-- ==== Sys2Proof/Config.lean ====
section
/-!
DEFINITION. What an implementation fixes: the parameters of 00_scope R4 to R6. `bootDict` is the one open
parameter (00_scope R6, 93_implementation_defined U1): it has no body, so nothing can be proved of its value.
-/

namespace Sys2Proof.Config

/-- The longest code length a table can hold (00_scope R4). -/
@[simp] abbrev maxCodeLen : Nat := 32

/-- Symbols are `0 .. maxSymbol - 1` (00_scope R4). -/
@[simp] abbrev maxSymbol : Nat := 285

/-- Codes of length 1 to `hashBits` are resolved by the hash table (00_scope R4). -/
@[simp] abbrev hashBits : Nat := 8

/-- The largest bit count of PEEK and DROP (00_scope R5). -/
@[simp] abbrev peekMax : Nat := 32

/-- Bytes one refill takes while that many remain (40_bit_cursor R121). -/
@[simp] abbrev refillBytes : Nat := 4

/-- Zero bits the one ghost refill supplies (40_bit_cursor R121, R127). -/
@[simp] abbrev ghostBits : Nat := 32

/-- Symbols of SYM_T below it are literals (00_scope section 4, 30_encoding R96). -/
@[simp] abbrev litLimit : Nat := 256

/-- BOOT_DICT, the `(symbol, length)` pairs of the bootstrap table in add order (00_scope R6). The spec lists
no pair, so this is an opaque constant: log entry 1. -/
opaque bootDict : List (Int × Nat)

/-- `BOOT_DICT_TEST` of 95_test_vectors T1: the spec's own test value, not the production table. -/
def bootDictTest : List (Int × Nat) :=
  [(0x01, 1), (0x00, 2), (0xE0, 3), (0x02, 4), (0x22, 5), (0x03, 6),
   (0x43, 7), (0x09, 8), (0x2A, 9), (0x0A, 10), (0x04, 10)]

end Sys2Proof.Config
end

