-- ==== Sys2Proof/Word.lean ====
section
/-!
DEFINITION. The word types of CORE. Counters and positions are natural numbers (00_scope R9: every quantity
is a natural number and nothing wraps); bit vectors stand for what the spec treats as bits.
-/

namespace Sys2Proof

/-- One byte of the input or the output space (20_memory R60, R61). -/
abbrev Byte := BitVec 8

/-- A 32-bit host register or header field (10_state R26, R27; 30_encoding R91). -/
abbrev Word := BitVec 32

/-- The cursor's 64-bit accumulator (00_scope R5). -/
abbrev Acc := BitVec 64

/-- A decoded symbol as the opcode table's `match` and `mask` see it, 9 bits (30_encoding R105). -/
abbrev SymBits := BitVec 9

end Sys2Proof
end

