-- ==== Sys2Proof/Syntax.lean ====
section
/-!
DEFINITION. The instruction set: one constructor per row of spec/opcode_table.json (30_encoding R105), and the
names the instructions' operands use.
-/

namespace Sys2Proof

/-- The hard errors, in the order of their codes 1 to 13 (60_exceptions R291). -/
inductive ErrKind where
  | nullOrEmptyInput
  | invalidArgumentCombination
  | tooManySymbols
  | invalidCodeLength
  | invalidSymbol
  | emptyTable
  | invalidLengthCode
  | invalidDistanceCode
  | unexpectedEndOfInput
  | allocationFailure
  | oversubscribedTable
  | codeNotFound
  | copyOutOfRange
deriving DecidableEq, Repr

/-- The three table instances (10_state R29). -/
inductive TableId where
  | symT
  | copyT
  | bootT
deriving DecidableEq, Repr

/-- The tables PARSE_TABLE can write: SYM_T or COPY_T (44_table_parsing R190). -/
inductive WorkTable where
  | symT
  | copyT
deriving DecidableEq, Repr

/-- A working table as a table instance. -/
def WorkTable.id : WorkTable → TableId
  | .symT => .symT
  | .copyT => .copyT

/-- One instruction of CORE: a syntactic element of the stream, or a primitive operation of a component
(00_scope section 9). Operands of stream elements have the width of their field in the opcode table. -/
inductive Instr where
  -- raw stream elements: HDR, COUNT, PARAMS (30_encoding R91 to R93)
  | hdr (magic size reserved : Word)
  | count (n : BitVec 16)
  | params (rsv s m : BitVec 4)
  -- raw extra bits after a length or distance symbol (30_encoding R94)
  | lenExtra1 (x : BitVec 1)
  | lenExtra2 (x : BitVec 2)
  | lenExtra3 (x : BitVec 3)
  | lenExtra4 (x : BitVec 4)
  | lenExtra5 (x : BitVec 5)
  | distExtra1 (x : BitVec 1)
  | distExtra2 (x : BitVec 2)
  | distExtra3 (x : BitVec 3)
  | distExtra4 (x : BitVec 4)
  | distExtra5 (x : BitVec 5)
  | distExtra6 (x : BitVec 6)
  | distExtra7 (x : BitVec 7)
  | distExtra8 (x : BitVec 8)
  | distExtra9 (x : BitVec 9)
  | distExtra10 (x : BitVec 10)
  | distExtra11 (x : BitVec 11)
  | distExtra12 (x : BitVec 12)
  | distExtra13 (x : BitVec 13)
  | distExtra14 (x : BitVec 14)
  | distExtra15 (x : BitVec 15)
  -- run codes, decoded with BOOT_T (30_encoding R95)
  | runSkip (rep : BitVec 4)
  | runAssign (rep : BitVec 4) (len : BitVec 5)
  -- literals and length symbols, decoded with SYM_T (30_encoding R96, R97)
  | lit (byte : Byte)
  | lenQ0 (r : BitVec 2)
  | lenQ1 (r : BitVec 2)
  | lenQ2 (r : BitVec 2)
  | lenQ3 (r : BitVec 2)
  | lenQ4 (r : BitVec 2)
  | lenQ5 (r : BitVec 2)
  | lenQ6 (r : BitVec 2)
  | lenMax
  | lenInvalid (sym : SymBits)
  -- distance symbols, decoded with COPY_T (30_encoding R98)
  | distQ0 (r2 : BitVec 1)
  | distQ1 (r2 : BitVec 1)
  | distQ2 (r2 : BitVec 1)
  | distQ3 (r2 : BitVec 1)
  | distQ4 (r2 : BitVec 1)
  | distQ5 (r2 : BitVec 1)
  | distQ6 (r2 : BitVec 1)
  | distQ7 (r2 : BitVec 1)
  | distQ8 (r2 : BitVec 1)
  | distQ9 (r2 : BitVec 1)
  | distQ10 (r2 : BitVec 1)
  | distQ11 (r2 : BitVec 1)
  | distQ12 (r2 : BitVec 1)
  | distQ13 (r2 : BitVec 1)
  | distQ14 (r2 : BitVec 1)
  | distQ15 (r2 : BitVec 1)
  | distQ16 (r2 : BitVec 1)
  | distInvalid (ds : SymBits)
  -- host commands and primitive operations (30_encoding R105, format OP)
  | reset
  | start
  | cursorInit
  | refill
  | need (n : Nat)
  | peek (n : Nat)
  | drop (n : Nat)
  | read (n : Nat)
  | decode (t : TableId)
  | clear
  | addSymbol (symbol : Int) (length : Nat)
  | build (t : TableId)
  | initBoot
  | parseTable (t : WorkTable)
  | copyRun
  | softStop
  | raise (e : ErrKind)
deriving DecidableEq, Repr

end Sys2Proof
end

