-- ==== Sys2Proof/Machine/Huffman.lean ====
section
/-!
DEFINITION. Canonical Huffman tables and the builder: their data (10_state R28 to R31) and the builder's
operations CLEAR, ADD_SYMBOL and BUILD (42_table_builder R160 to R170), and the construction of the bootstrap
table (43_bootstrap_dictionary R180).
-/

namespace Sys2Proof.Machine

/-- A present slot of the hash table: its symbol and the length of its code (10_state R28). -/
structure HashSlot where
  sym : Nat
  len : Nat
deriving DecidableEq, Repr

/-- A canonical Huffman table (10_state R28). `thr` and `ends` have 33 entries, `hash` 256, an absent slot
being `none`; `syms` holds the `nsyms` coded symbols only (log entry 11). -/
structure Table where
  empty : Bool
  nsyms : Nat
  thr : List Nat
  ends : List Nat
  syms : List Nat
  hash : List (Option HashSlot)
deriving DecidableEq, Repr

/-- The table BUILD yields from a cleared builder (42_table_builder R168). -/
def Table.emptyTable : Table where
  empty := true
  nsyms := 0
  thr := List.replicate 33 0
  ends := List.replicate 33 0
  syms := []
  hash := List.replicate 256 none

/-- A table that codes the one symbol `sym` with the code `0` (42_table_builder R170; 95_test_vectors V6 (h)). -/
def Table.single (sym : Nat) : Table where
  empty := false
  nsyms := 1
  thr := 0 :: List.replicate 32 (2 ^ 31)
  ends := 0 :: List.replicate 32 1
  syms := [sym]
  hash := List.replicate 128 (some ⟨sym, 1⟩) ++ List.replicate 128 none

/-- The builder: `lists[L]` is the sequence of symbols given length `L`, in add order (10_state R31). -/
structure Builder where
  lists : List (List Nat)
deriving DecidableEq, Repr

/-- A cleared builder: 33 empty lists (42_table_builder R160). -/
def Builder.cleared : Builder := ⟨List.replicate 33 []⟩

/-- The symbols of one length, in add order. -/
def Builder.list (b : Builder) (L : Nat) : List Nat := b.lists.getD L []

/-- `count[L]` (42_table_builder R164). -/
def Builder.count (b : Builder) (L : Nat) : Nat := (b.list L).length

/-- Whether a symbol is in some list (42_table_builder R163). -/
def Builder.holds (b : Builder) (s : Nat) : Bool := b.lists.any fun l => l.contains s

/-- What ADD_SYMBOL can do. -/
inductive AddResult where
  | ok (b : Builder)
  | raise (e : ErrKind)
  | duplicate
deriving DecidableEq, Repr

/-- ADD_SYMBOL: the length check, then the symbol check, then the append (42_table_builder R161, R162). A symbol
already in a list has no meaning (R163). -/
def Builder.addSymbol (b : Builder) (symbol : Int) (length : Nat) : AddResult :=
  if Config.maxCodeLen < length then .raise .invalidCodeLength
  else if symbol < 0 ∨ (Config.maxSymbol : Int) ≤ symbol then .raise .invalidSymbol
  else if b.holds symbol.toNat then .duplicate
  else .ok ⟨b.lists.modify length (· ++ [symbol.toNat])⟩

/-- `K`, the sum of `count[L] * 2^(32-L)` over the lengths up to `n` (42_table_builder R164). The power stands first
so that the kernel does not unfold it. -/
def Builder.kraft (b : Builder) : Nat → Nat
  | 0 => 0
  | L + 1 => b.kraft L + 2 ^ (32 - (L + 1)) * b.count (L + 1)

/-- The variables of BUILD's pseudocode (42_table_builder R164); `idx` is the length of `syms`. -/
structure BuildVars where
  code : Nat
  syms : List Nat
  ends : List Nat
  thr : List Nat
  hash : List (Option HashSlot)
deriving DecidableEq, Repr

/-- BUILD's variables before the first length. -/
def BuildVars.init : BuildVars := ⟨0, [], [0], [0], List.replicate 256 none⟩

/-- The slots `lo .. lo + k - 1` set to one value (42_table_builder R167). -/
def fillSlots (hash : List (Option HashSlot)) (lo k : Nat) (slot : HashSlot) : List (Option HashSlot) :=
  hash.take lo ++ List.replicate k (some slot) ++ hash.drop (lo + k)

/-- BUILD's inner loop: the symbols of length `L` in add order (42_table_builder R165 to R167). -/
def BuildVars.addCodes (v : BuildVars) (L : Nat) : List Nat → BuildVars
  | [] => v
  | s :: ss =>
    BuildVars.addCodes
      { v with
        syms := v.syms ++ [s]
        hash := if L ≤ Config.hashBits then fillSlots v.hash (v.code <<< (8 - L)) (2 ^ (8 - L)) ⟨s, L⟩ else v.hash
        code := v.code + 1 } L ss

/-- BUILD's outer loop body for one length (42_table_builder R164). -/
def BuildVars.addLength (v : BuildVars) (L : Nat) (ss : List Nat) : BuildVars :=
  let w := v.addCodes L ss
  { w with
    ends := w.ends ++ [w.syms.length]
    thr := w.thr ++ [w.code <<< (32 - L)]
    code := w.code <<< 1 }

/-- BUILD's outer loop over the lengths `1 .. n`, ascending. -/
def Builder.buildVars (b : Builder) : Nat → BuildVars
  | 0 => BuildVars.init
  | L + 1 => (b.buildVars L).addLength (L + 1) (b.list (L + 1))

/-- The table BUILD writes once the Kraft check has passed (42_table_builder R164, R168). -/
def Builder.table (b : Builder) : Table :=
  let v := b.buildVars 32
  { empty := decide (v.syms.length = 0), nsyms := v.syms.length, thr := v.thr, ends := v.ends, syms := v.syms,
    hash := v.hash }

/-- BUILD: `none` where it raises OversubscribedTable, before anything is written (42_table_builder R164, R169). -/
def Builder.build (b : Builder) : Option Table := if b.kraft 32 ≤ 2 ^ 32 then some b.table else none

/-- What INIT_BOOT can do: the table and the builder it leaves, an error and the builder as it was then, or no
meaning because BOOT_DICT repeats a symbol. -/
inductive BootResult where
  | ok (t : Table)
  | raise (e : ErrKind) (b : Builder)
  | duplicate
deriving DecidableEq, Repr

/-- BUILD of BOOT_T once every pair is added (43_bootstrap_dictionary R180). -/
def Builder.bootBuild (b : Builder) : BootResult :=
  match b.build with
  | some t => .ok t
  | none => .raise .oversubscribedTable b

/-- ADD_SYMBOL for each pair in sequence order, then BUILD (43_bootstrap_dictionary R180). -/
def Builder.addAll (b : Builder) : List (Int × Nat) → BootResult
  | [] => b.bootBuild
  | (s, L) :: d =>
    match b.addSymbol s L with
    | .ok b' => b'.addAll d
    | .raise e => .raise e b
    | .duplicate => .duplicate

/-- INIT_BOOT's work: CLEAR, ADD_SYMBOL for each pair, BUILD (43_bootstrap_dictionary R180). -/
def initBoot (d : List (Int × Nat)) : BootResult := Builder.cleared.addAll d

end Sys2Proof.Machine
end

