-- ==== Sys2Proof/Machine/Memory.lean ====
section
/-!
DEFINITION. A byte-addressed memory as one canonical list of cells, and the stream of bits it holds. IN and OUT
are two separate memories of this type (20_memory R60, R61; 10_state R33), so they cannot overlap (R74): log
entry 5.
-/

namespace Sys2Proof.Machine

/-- A memory: cells at strictly rising addresses, none holding what an unlisted address reads as. -/
abbrev Memory := List Host.Cell

/-- What an unlisted address reads as. The spec gives neither IN nor OUT an initial content (U5 of
93_implementation_defined); DESIGN CHOICE, unsafe: log entry 5. -/
def Memory.unlisted : Byte := 0

/-- The byte at an address. -/
def Memory.read : Memory → Nat → Byte
  | [], _ => Memory.unlisted
  | (k, v) :: m, a => if a = k then v else Memory.read m a

/-- The memory after a byte is written; a byte equal to `unlisted` is not listed. -/
def Memory.write : Memory → Nat → Byte → Memory
  | [], a, v => if v = Memory.unlisted then [] else [(a, v)]
  | (k, x) :: m, a, v =>
    if a < k then (if v = Memory.unlisted then (k, x) :: m else (a, v) :: (k, x) :: m)
    else if a = k then (if v = Memory.unlisted then m else (a, v) :: m)
    else (k, x) :: Memory.write m a v

/-- Every address listed is at least `lo`, addresses strictly rise, and no cell holds `unlisted`. -/
def Memory.wfFrom : Nat → Memory → Bool
  | _, [] => true
  | lo, (k, v) :: m => decide (lo ≤ k) && decide (v ≠ Memory.unlisted) && Memory.wfFrom (k + 1) m

/-- The canonical form. -/
def Memory.wf (m : Memory) : Bool := Memory.wfFrom 0 m

/-- Write bytes at successive addresses. -/
def Memory.writeAll : Memory → Nat → List Byte → Memory
  | m, _, [] => m
  | m, a, b :: bs => Memory.writeAll (m.write a b) (a + 1) bs

/-- The value of `k` bytes from address `a`, lowest address most significant (40_bit_cursor R121, `v`). -/
def Memory.value (m : Memory) (a : Nat) : Nat → Nat
  | 0 => 0
  | k + 1 => m.value a k * 256 + (m.read (a + k)).toNat

/-- Stream bit `k` of an input of `inLen` bytes, followed by zero bits (00_scope R7, 40_bit_cursor R126). -/
def Memory.streamBit (m : Memory) (inLen k : Nat) : Bool :=
  decide (k < 8 * inLen) && (m.read (k / 8)).getMsbD (k % 8)

/-- The `n` stream bits from position `p` as a number, first bit most significant (00_scope R7). -/
def Memory.streamValue (m : Memory) (inLen p : Nat) : Nat → Nat
  | 0 => 0
  | n + 1 => 2 * m.streamValue inLen p n + (m.streamBit inLen (p + n)).toNat

end Sys2Proof.Machine
end

