-- ==== Sys2Proof/Machine/State.lean ====
section
/-!
DEFINITION. The state of CORE as plain data, the reasons a step can stop, and the state after reset (10_state
R20 to R36; 45_block_decoder R225). Fields named "model's own" are not the spec's.
-/

namespace Sys2Proof.Machine

/-- The bit cursor's registers (10_state R21) and `in_len`, which CURSOR_INIT samples from ARG_IN_LEN
(40_bit_cursor R120). -/
structure Cursor where
  pos : Nat
  acc : Acc
  valid : Nat
  eoi : Bool
  inLen : Nat
deriving DecidableEq, Repr

/-- STATUS (10_state R27). -/
inductive Status where
  | idle
  | busy
  | done
  | error
deriving DecidableEq, Repr

/-- The engine's phases (45_block_decoder R225). -/
inductive Phase where
  | resetInit
  | idle
  | check
  | header
  | blockTest
  | parseSym
  | parseCopy
  | blockParams
  | codeTest
  | symbol
  | literal
  | copyLen
  | copyDist
  | copyRun
  | failed
deriving DecidableEq, Repr

/-- Model's own: which element comes next inside a phase that reads several. `start` is the phase's first
element; `clear`, `runs` and `result` follow COUNT inside a table parse (44_table_parsing R190); `lenExtra n` and
`distExtra n` are an extra field of `n + 1` bits (30_encoding R94). Log entry 6. -/
inductive Seq where
  | start
  | clear
  | runs
  | result
  | lenExtra (n : Fin 5)
  | distExtra (n : Fin 15)
deriving DecidableEq, Repr

/-- What the environment can do between two engine steps (10_state R26; 20_memory R75; 70 R332). Log entry 7. -/
inductive HostCmd where
  /-- A write of ARG_IN_LEN. -/
  | argInLen (v : Word)
  /-- A write of ARG_OUT_HINT. -/
  | argOutHint (v : Word)
  /-- A write of ARG_OUT_PRESENT. -/
  | argOutPresent (v : Bool)
  /-- A write of CMD_START; only a 1 is a command. -/
  | cmdStart (v : Bool)
  /-- A byte written into the input buffer. -/
  | writeIn (a : Word) (v : Byte)
  /-- A byte written into the output buffer. -/
  | writeOut (a : Word) (v : Byte)
  /-- The parameter BOOT_DICT for the next reset (70 R331, R332). -/
  | bootDict (d : List (Int × Nat))
  /-- External reset. -/
  | reset
  /-- Nothing: the engine takes its step. -/
  | tick
deriving DecidableEq, Repr

/-- The machine. -/
structure State where
  /-- ARG_IN_LEN (10_state R26). -/
  argInLen : Word
  /-- ARG_OUT_HINT (10_state R26). -/
  argOutHint : Word
  /-- ARG_OUT_PRESENT (10_state R26). -/
  argOutPresent : Bool
  /-- STATUS (10_state R27). -/
  status : Status
  /-- ERR (10_state R27): `none` is code 0. -/
  err : Option ErrKind
  /-- OUT_LEN (10_state R27). -/
  outLen : Word
  /-- SOFT_EOF (10_state R25, R27). -/
  softEof : Bool
  /-- DECLARED (10_state R27). -/
  statusDeclared : Word
  /-- TARGET (10_state R27). -/
  statusTarget : Word
  /-- The engine's phase (10_state R24, 45_block_decoder R225). -/
  phase : Phase
  /-- The bit cursor (10_state R21). -/
  bc : Cursor
  /-- `declared` (10_state R24). -/
  declared : Nat
  /-- `target` (10_state R24). -/
  target : Nat
  /-- `out_pos` (10_state R24). -/
  outPos : Nat
  /-- `wsb` (10_state R24). -/
  wsb : Nat
  /-- `codes_left` (10_state R24). -/
  codesLeft : Nat
  /-- `tp_n` (10_state R24). -/
  tpN : Nat
  /-- `tp_rem`, the one signed quantity (10_state R24, 00_scope R10). -/
  tpRem : Int
  /-- `cp_sym` (10_state R24). -/
  cpSym : Nat
  /-- `cp_len` (10_state R24). -/
  cpLen : Nat
  /-- `cp_dist` (10_state R24). -/
  cpDist : Nat
  /-- SYM_T (10_state R29). -/
  symT : Table
  /-- COPY_T (10_state R29). -/
  copyT : Table
  /-- BOOT_T (10_state R29). -/
  bootT : Table
  /-- The builder (10_state R31). -/
  builder : Builder
  /-- The input space IN (20_memory R60). -/
  inMem : Memory
  /-- The output space OUT (20_memory R61). -/
  outMem : Memory
  /-- Model's own: the parameter BOOT_DICT (00_scope R6), log entry 1. -/
  bootDict : List (Int × Nat)
  /-- Model's own: the variable `length` of 46_copy_instructions R240. -/
  length : Nat
  /-- Model's own: the variable `distance` of 46_copy_instructions R240. -/
  distance : Nat
  /-- Model's own: the position inside a phase, log entry 6. -/
  seq : Seq
  /-- Model's own: what the last PEEK, READ, DECODE or PARSE_TABLE returned, log entry 13. -/
  ret : Nat
  /-- Model's own: the host's actions still to come, oldest first, log entry 7. -/
  host : List HostCmd
deriving DecidableEq, Repr

/-- Why the machine stops with a fault. -/
inductive Fault where
  /-- Raised by LIT where `out_pos` is not below `target`: the address is outside OUT (20_memory R61). Safe: the
  code loop never runs a literal there (45_block_decoder R218). -/
  | outputWrite
  /-- Raised by COPY_RUN where `out_pos - cp_dist` would be below 0: the address is outside OUT (20_memory R61).
  Safe: the range check comes first (46_copy_instructions R271). -/
  | outputRead
deriving DecidableEq, Repr

/-- Why the machine has no meaning for what is asked of it. -/
inductive Refusal where
  /-- Raised by an arm of `exec` that has no meaning yet. Safe. -/
  | notModelled (mnemonic : String)
  /-- Raised by NEED, PEEK, DROP and READ with a bit count outside 1 to 32: "no meaning (refuse)" (40_bit_cursor
  R129). Safe. -/
  | bitCount (n : Nat)
  /-- Raised by REFILL with more than 32 valid bits, against its precondition (40_bit_cursor R121). Safe. -/
  | refillNoRoom
  /-- Raised by ADD_SYMBOL, RUN_ASSIGN, PARSE_TABLE, INIT_BOOT and RESET for a symbol already in the builder: "no
  meaning (refuse)" (42_table_builder R163). Safe. -/
  | duplicateSymbol
  /-- Raised by a step whose table yields a number that is no symbol; no table that BUILD wrote holds one
  (10_state R28). Safe. -/
  | notASymbol (v : Nat)
  /-- Raised by a host write of IN, OUT, an argument register or BOOT_DICT while BUSY: "no meaning ... (refuse)"
  (20_memory R75). Safe. -/
  | hostWriteWhileBusy
deriving DecidableEq, Repr

/-- The cursor after reset (10_state R36); `inLen` has no reset value in the spec: log entry 3. -/
def Cursor.zero : Cursor := ⟨0, 0, 0, false, 0⟩

/-- BOOT_T after INIT_BOOT; if that build fails BOOT_T "has no defined contents" (70 R331): log entry 4. -/
def BootResult.table : BootResult → Table
  | .ok t => t
  | .raise _ _ | .duplicate => Table.emptyTable

/-- The builder after INIT_BOOT: cleared, or frozen where the build failed (10_state R36; 70 R336). -/
def BootResult.builder : BootResult → Builder
  | .ok _ | .duplicate => Builder.cleared
  | .raise _ b => b

/-- STATUS after reset (10_state R36; 70 R331). -/
def BootResult.status : BootResult → Status
  | .ok _ | .duplicate => .idle
  | .raise _ _ => .error

/-- ERR after reset (10_state R36; 70 R331). -/
def BootResult.err : BootResult → Option ErrKind
  | .ok _ | .duplicate => none
  | .raise e _ => some e

/-- The phase after reset (70 R330, R331). A BOOT_DICT that repeats a symbol leaves the reset unfinished: log
entry 8. -/
def BootResult.phase : BootResult → Phase
  | .ok _ => .idle
  | .raise _ _ => .failed
  | .duplicate => .resetInit

/-- The state after reset with the dictionary `d` (10_state R36; 70 R330, R331). Fields the spec leaves
unspecified are zero, `start` or the empty table: log entries 2, 3, 4 and 5. -/
def State.resetWith (d : List (Int × Nat)) : State where
  argInLen := 0
  argOutHint := 0
  argOutPresent := false
  status := (initBoot d).status
  err := (initBoot d).err
  outLen := 0
  softEof := false
  statusDeclared := 0
  statusTarget := 0
  phase := (initBoot d).phase
  bc := Cursor.zero
  declared := 0
  target := 0
  outPos := 0
  wsb := 0
  codesLeft := 0
  tpN := 0
  tpRem := 0
  cpSym := 0
  cpLen := 0
  cpDist := 0
  symT := Table.emptyTable
  copyT := Table.emptyTable
  bootT := (initBoot d).table
  builder := (initBoot d).builder
  inMem := []
  outMem := []
  bootDict := d
  length := 0
  distance := 0
  seq := .start
  ret := 0
  host := []

/-- The state after reset, with the open parameter BOOT_DICT (00_scope R6): log entry 1. -/
def State.reset : State := State.resetWith Config.bootDict

/-- A table instance (10_state R29). -/
def State.table (s : State) : TableId → Table
  | .symT => s.symT
  | .copyT => s.copyT
  | .bootT => s.bootT

end Sys2Proof.Machine
end

