-- ==== Sys2Proof/Machine/Flags.lean ====
section
/-!
DEFINITION. The one-bit state and the codes the host reads. CORE has no condition codes (10_state R25): its flags
are `BC.eoi`, `empty` and `present` of the tables, SOFT_EOF and BUSY.
-/

namespace Sys2Proof.Machine

/-- STATUS as the host reads it, 2 bits (10_state R27). -/
def Status.code : Status → BitVec 2
  | .idle => 0
  | .busy => 1
  | .done => 2
  | .error => 3

/-- The code of an error kind, 4 bits (60_exceptions R291). -/
def errKindCode : ErrKind → BitVec 4
  | .nullOrEmptyInput => 1
  | .invalidArgumentCombination => 2
  | .tooManySymbols => 3
  | .invalidCodeLength => 4
  | .invalidSymbol => 5
  | .emptyTable => 6
  | .invalidLengthCode => 7
  | .invalidDistanceCode => 8
  | .unexpectedEndOfInput => 9
  | .allocationFailure => 10
  | .oversubscribedTable => 11
  | .codeNotFound => 12
  | .copyOutOfRange => 13

/-- ERR as the host reads it (10_state R27, 60_exceptions R291). -/
def State.errCode (s : State) : BitVec 4 :=
  match s.err with
  | none => 0
  | some e => errKindCode e

/-- BUSY, the part of STATUS that says a decode runs (10_state R25). -/
def State.isBusy (s : State) : Bool := decide (s.status = .busy)

/-- `T.hash[h]`: the slot where `present` is 1 (10_state R25, R28). -/
def Table.slot (t : Table) (h : Nat) : Option HashSlot := t.hash.getD h none

/-- Whether the host may write IN, OUT, the argument registers and BOOT_DICT (20_memory R75). -/
def State.hostMayWrite (s : State) : Bool := !s.isBusy

/-- Whether a START is accepted (45_block_decoder R210, R227; 70 R331). -/
def State.acceptsStart (s : State) : Bool :=
  !s.isBusy && decide (s.phase ≠ .resetInit) && decide (s.phase ≠ .failed)

end Sys2Proof.Machine
end

