-- ==== Sys2Proof/Machine/Operands.lean ====
section
/-!
DEFINITION. Operand assembly: what the fields of an element mean as values (30_encoding R95, R99, R100;
45_block_decoder R213, R217). Everything is natural-number arithmetic (00_scope R9).
-/

namespace Sys2Proof.Machine

/-- The base of a length of class `q` with low field `r`: `ls` for `q = 0`, else `(1 << (q-1)) * (4 + r)`
(30_encoding R99). -/
def lenBase (q r : Nat) : Nat := if q = 0 then r else (1 <<< (q - 1)) * (4 + r)

/-- The length of LEN_MAX (46_copy_instructions R248). -/
def lenMaxValue : Nat := 0xFF

/-- The base of a distance of class `q2` with low field `r2`: `ds` for `q2 = 0`, else `(1 << (q2-1)) * (2 + r2)`
(30_encoding R100). -/
def distBase (q2 r2 : Nat) : Nat := if q2 = 0 then r2 else (1 <<< (q2 - 1)) * (2 + r2)

/-- A base with its extra field (30_encoding R99, R100). -/
def withExtra (base x : Nat) : Nat := base ||| x

/-- `cp_len` (46_copy_instructions R250). -/
def finalLen (length wsb : Nat) : Nat := length + wsb

/-- `cp_dist` (46_copy_instructions R270). -/
def finalDist (distance : Nat) : Nat := distance + 1

/-- `repeat_count` of a run code (30_encoding R95). -/
def runCount (rep : BitVec 4) : Nat := rep.toNat + 1

/-- `write_size_base` (45_block_decoder R217). -/
def paramsWsb (s : BitVec 4) : Nat := s.toNat + 1

/-- `max_codes_this_block` (45_block_decoder R217). -/
def paramsCodes (m : BitVec 4) : Nat := (m.toNat + 1) <<< 12

/-- The effective output size (45_block_decoder R213). -/
def targetOf (declared : Nat) (hint : Word) : Nat := if hint ≠ 0 then min declared hint.toNat else declared

end Sys2Proof.Machine
end

