-- ==== Sys2Proof/Machine/Ops.lean ====
section
/-!
DEFINITION. The named operations the meanings share: the bit cursor (40_bit_cursor), DECODE (41_huffman_table),
accesses to OUT (20_memory R61), the copy loop (46_copy_instructions R272), the table parse (44_table_parsing
R190), the end of a decode, and taking a hard error (60_exceptions R307).
-/

namespace Sys2Proof.Machine

/-! ## The bit cursor -/

/-- What a cursor operation can do: a value and the cursor after it, or a hard error and the cursor as it was
then. -/
inductive CurRes (α : Type) where
  | ok (v : α) (c : Cursor)
  | raise (e : ErrKind) (c : Cursor)
deriving DecidableEq, Repr

/-- One cursor operation after another. -/
def CurRes.bind {α β : Type} (r : CurRes α) (f : α → Cursor → CurRes β) : CurRes β :=
  match r with
  | .ok v c => f v c
  | .raise e c => .raise e c

/-- The bits the one ghost refill has supplied: `G` of 10_state R22. -/
def Cursor.ghost (c : Cursor) : Nat := if c.eoi then Config.ghostBits else 0

/-- BITPOS, CORE's program counter (10_state R22, R23). -/
def Cursor.bitpos (c : Cursor) : Nat := 8 * c.pos + c.ghost - c.valid

/-- The bits of the input and the ghost together: `|S'|` of 40_bit_cursor R126. -/
def Cursor.limit (c : Cursor) : Nat := 8 * c.inLen + Config.ghostBits

/-- CURSOR_INIT (40_bit_cursor R120). -/
def Cursor.init (argInLen : Word) : Cursor := ⟨0, 0, 0, false, argInLen.toNat⟩

/-- REFILL (40_bit_cursor R121). -/
def Cursor.refill (m : Memory) (c : Cursor) : CurRes Unit :=
  if c.pos < c.inLen then
    let k := min Config.refillBytes (c.inLen - c.pos)
    .ok () { c with
      acc := c.acc ||| (BitVec.ofNat 64 (m.value c.pos k) <<< (64 - c.valid - 8 * k))
      valid := c.valid + 8 * k
      pos := c.pos + k }
  else if c.eoi = false then .ok () { c with eoi := true, valid := c.valid + Config.ghostBits }
  else .raise .unexpectedEndOfInput c

/-- NEED's loop with a bound on its refills; each adds at least 8 bits (40_bit_cursor R122). -/
def Cursor.needLoop (m : Memory) (n : Nat) : Nat → Cursor → CurRes Unit
  | 0, c => .ok () c
  | k + 1, c => if c.valid < n then (c.refill m).bind fun _ c' => Cursor.needLoop m n k c' else .ok () c

/-- NEED(n), `1 <= n <= 32`: at most four refills (40_bit_cursor R122). -/
def Cursor.need (m : Memory) (n : Nat) (c : Cursor) : CurRes Unit := Cursor.needLoop m n 4 c

/-- The top `n` bits of the accumulator as a number (40_bit_cursor R123). -/
def Cursor.top (c : Cursor) (n : Nat) : Nat := (c.acc >>> (64 - n)).toNat

/-- PEEK(n) (40_bit_cursor R123). -/
def Cursor.peek (m : Memory) (n : Nat) (c : Cursor) : CurRes Nat := (c.need m n).bind fun _ c' => .ok (c'.top n) c'

/-- DROP(n) (40_bit_cursor R124). -/
def Cursor.drop (m : Memory) (n : Nat) (c : Cursor) : CurRes Unit :=
  (c.need m n).bind fun _ c' => .ok () { c' with acc := c'.acc <<< n, valid := c'.valid - n }

/-- READ(n): PEEK(n), then DROP(n) (40_bit_cursor R125). -/
def Cursor.read (m : Memory) (n : Nat) (c : Cursor) : CurRes Nat :=
  (c.peek m n).bind fun v c' => (c'.drop m n).bind fun _ c'' => .ok v c''

/-! ## DECODE -/

/-- The least `L` in `from .. from + k - 1` whose threshold is above `w` (41_huffman_table R143). -/
def Table.findLen (t : Table) (w : Nat) : Nat → Nat → Option Nat
  | _, 0 => none
  | L, k + 1 => if w < t.thr.getD L 0 then some L else t.findLen w (L + 1) k

/-- The symbol of the slow path: `syms[end[L] - 1 - k]` with `k = (thr[L] - 1 - w) >> (32 - L)`
(41_huffman_table R143). Outside the table's arrays it is 0: log entry 10. -/
def Table.slowSym (t : Table) (w L : Nat) : Nat :=
  t.syms.getD (t.ends.getD L 0 - 1 - ((t.thr.getD L 0 - 1 - w) >>> (32 - L))) 0

/-- DECODE's slow path, where the hash slot is absent (41_huffman_table R143, R144). -/
def Table.decodeSlow (m : Memory) (t : Table) (c : Cursor) : CurRes Nat :=
  (c.peek m 32).bind fun w c' =>
    match t.findLen w 1 32 with
    | none => .raise .codeNotFound c'
    | some L => (c'.drop m L).bind fun _ c'' => .ok (t.slowSym w L) c''

/-- DECODE(T) (41_huffman_table R140 to R144). -/
def Table.decode (m : Memory) (t : Table) (c : Cursor) : CurRes Nat :=
  if t.empty then .raise .emptyTable c
  else (c.peek m 8).bind fun h c' =>
    match t.slot h with
    | some e => (c'.drop m e.len).bind fun _ c'' => .ok e.sym c''
    | none => t.decodeSlow m c'

/-! ## Results over the whole state -/

/-- What an operation on the machine can do. -/
inductive Res (α : Type) where
  | ok (v : α) (s : State)
  | raise (e : ErrKind) (s : State)
  | fault (f : Fault)
  | refused (r : Refusal)
deriving DecidableEq, Repr

/-- One operation after another. -/
def Res.bind {α β : Type} (r : Res α) (f : α → State → Res β) : Res β :=
  match r with
  | .ok v s => f v s
  | .raise e s => .raise e s
  | .fault x => .fault x
  | .refused x => .refused x

/-- The result of a cursor operation made the machine's. -/
def State.withCursor {α : Type} (s : State) (r : CurRes α) : Res α :=
  match r with
  | .ok v c => .ok v { s with bc := c }
  | .raise e c => .raise e { s with bc := c }

/-- NEED(n) on the machine's cursor. -/
def State.need (n : Nat) (s : State) : Res Unit := s.withCursor (s.bc.need s.inMem n)

/-- PEEK(n) on the machine's cursor. -/
def State.peek (n : Nat) (s : State) : Res Nat := s.withCursor (s.bc.peek s.inMem n)

/-- DROP(n) on the machine's cursor. -/
def State.drop (n : Nat) (s : State) : Res Unit := s.withCursor (s.bc.drop s.inMem n)

/-- READ(n) on the machine's cursor. -/
def State.read (n : Nat) (s : State) : Res Nat := s.withCursor (s.bc.read s.inMem n)

/-- DECODE(T) on the machine's cursor. -/
def State.decode (t : TableId) (s : State) : Res Nat := s.withCursor ((s.table t).decode s.inMem s.bc)

/-! ## Taking a hard error, and the ends of a decode -/

/-- Taking the hard error `e`: ERR, OUT_LEN, SOFT_EOF, STATUS and the phase; everything else is frozen, nothing
is saved and there is no return but a new START (60_exceptions R307, R309, R310; 70 R331). -/
def State.takeError (e : ErrKind) (s : State) : State :=
  { s with
    err := some e
    outLen := 0
    softEof := false
    status := .error
    phase := if s.phase = .resetInit then .failed else .idle }

/-- What START clears; it is also the only way on after an error (45_block_decoder R210; 60_exceptions R310). -/
def State.clearForStart (s : State) : State :=
  { s with status := .busy, err := none, outLen := 0, softEof := false, statusDeclared := 0, statusTarget := 0 }

/-- The end of a decode with the output full (45_block_decoder R222). -/
def State.finish (s : State) : State :=
  { s with outLen := BitVec.ofNat 32 s.outPos, softEof := false, status := .done, phase := .idle }

/-- The soft end of stream (60_exceptions R305; 45_block_decoder R223). -/
def State.softStop (s : State) : State :=
  { s with outLen := BitVec.ofNat 32 s.outPos, softEof := true, status := .done, phase := .idle }

/-- An operation's result as the outcome of a step: a hard error is taken. -/
def Res.outcome {α : Type} (r : Res α) : Host.Outcome State Fault Refusal :=
  match r with
  | .ok _ s => .next s
  | .raise e s => .next (s.takeError e)
  | .fault f => .fault f
  | .refused x => .refused x

/-- An operation whose value the model keeps in `ret` (log entry 13). -/
def Res.keep (r : Res Nat) : Res Unit := r.bind fun v s => .ok () { s with ret := v }

/-! ## Tables and the builder -/

/-- A table instance overwritten as a whole (10_state R29). -/
def State.setTable (s : State) (t : TableId) (x : Table) : State :=
  match t with
  | .symT => { s with symT := x }
  | .copyT => { s with copyT := x }
  | .bootT => { s with bootT := x }

/-- ADD_SYMBOL on the machine's builder (42_table_builder R161 to R163). -/
def State.addSymbol (symbol : Int) (length : Nat) (s : State) : Res Unit :=
  match s.builder.addSymbol symbol length with
  | .ok b => .ok () { s with builder := b }
  | .raise e => .raise e s
  | .duplicate => .refused .duplicateSymbol

/-- BUILD into a table instance (42_table_builder R164, R169). -/
def State.build (t : TableId) (s : State) : Res Unit :=
  match s.builder.build with
  | some x => .ok () (s.setTable t x)
  | none => .raise .oversubscribedTable s

/-- CLEAR on the machine's builder (42_table_builder R160). -/
def State.clearBuilder (s : State) : State := { s with builder := Builder.cleared }

/-- INIT_BOOT with the dictionary in force (43_bootstrap_dictionary R180); the phase RESET_INIT ends with it
(45_block_decoder R225). -/
def State.initBoot (s : State) : Res Unit :=
  match Machine.initBoot s.bootDict with
  | .ok t =>
    .ok () { s with
      bootT := t
      builder := Builder.cleared
      phase := if s.phase = .resetInit then .idle else s.phase }
  | .raise e b => .raise e { s with builder := b }
  | .duplicate => .refused .duplicateSymbol

/-! ## The table parse -/

/-- COUNT after its 16 bits: `tp_n`, and the check against 285 (44_table_parsing R191, R192). -/
def State.setCount (n : Nat) (s : State) : Res Unit :=
  if 285 < n then .raise .tooManySymbols { s with tpN := n } else .ok () { s with tpN := n }

/-- A skipping run (44_table_parsing R195). -/
def State.skipRun (rep : Nat) (s : State) : State := { s with tpRem := s.tpRem - rep }

/-- An assigning run: `rep` times the highest slot left gets the length (44_table_parsing R196, R197). -/
def State.assignRun (len : Nat) : Nat → State → Res Unit
  | 0, s => .ok () s
  | rep + 1, s =>
    (s.addSymbol s.tpRem len).bind fun _ s' => State.assignRun len rep { s' with tpRem := s'.tpRem - 1 }

/-- A run code, skipping or assigning (44_table_parsing R190, R194). -/
def State.run (rc : Nat) (s : State) : Res Unit :=
  if rc % 32 = 0 then .ok () (s.skipRun (rc / 32 + 1)) else s.assignRun (rc % 32) (rc / 32 + 1)

/-- The run loop with a bound on its iterations; each lowers `tp_rem` (44_table_parsing R193). -/
def State.runLoop : Nat → State → Res Unit
  | 0, s => .ok () s
  | k + 1, s =>
    if 0 ≤ s.tpRem then
      (s.decode .bootT).bind fun rc s' => (s'.run rc).bind fun _ s'' => State.runLoop k s''
    else .ok () s

/-- PARSE_TABLE(T), whose result is 1 where the table has a code (44_table_parsing R190 to R198). -/
def State.parseTable (t : WorkTable) (s : State) : Res Nat :=
  (s.read 16).bind fun n s1 =>
    (s1.setCount n).bind fun _ s2 =>
      let s3 := { s2.clearBuilder with tpRem := (s2.tpN : Int) - 1 }
      (State.runLoop s3.tpN s3).bind fun _ s4 =>
        (s4.build t.id).bind fun _ s5 => .ok (if (s5.table t.id).empty then 0 else 1) s5

/-! ## Length and distance -/

/-- A length known in full: `cp_len`, and on to the distance (46_copy_instructions R250; 45_block_decoder R225). -/
def State.setLength (length : Nat) (s : State) : State :=
  { s with length := length, cpLen := finalLen length s.wsb, phase := .copyDist, seq := .start }

/-- A length whose extra field of `n + 1` bits comes next (30_encoding R90, R94): log entry 20. -/
def State.awaitLenExtra (base : Nat) (n : Fin 5) (s : State) : State := { s with length := base, seq := .lenExtra n }

/-- A length's extra field: `x <- READ(w); length <- length | x`, then `cp_len` (46_copy_instructions R243 to
R247, R250). -/
def State.takeLenExtra (w x : Nat) (s : State) : Res Unit :=
  (s.read w).bind fun _ s' => .ok () (s'.setLength (withExtra s'.length x))

/-- A distance known in full: `cp_dist`, the range check, and on to the copy (46_copy_instructions R270, R271). -/
def State.setDistance (distance : Nat) (s : State) : Res Unit :=
  if s.outPos < finalDist distance then
    .raise .copyOutOfRange { s with distance := distance, cpDist := finalDist distance }
  else .ok () { s with distance := distance, cpDist := finalDist distance, phase := .copyRun, seq := .start }

/-- A distance whose extra field of `n + 1` bits comes next (30_encoding R90, R94): log entry 20. -/
def State.awaitDistExtra (base : Nat) (n : Fin 15) (s : State) : State :=
  { s with distance := base, seq := .distExtra n }

/-- A distance's extra field: `x <- READ(w); distance <- distance | x`, then the check (46_copy_instructions R254
to R268, R270, R271). -/
def State.takeDistExtra (w x : Nat) (s : State) : Res Unit :=
  (s.read w).bind fun _ s' => s'.setDistance (withExtra s'.distance x)

/-! ## OUT -/

/-- One byte written at `out_pos`, which then advances; OUT ends at `target` (20_memory R61; 45 R220). -/
def State.emit (b : Byte) (s : State) : Res Unit :=
  if s.outPos < s.target then .ok () { s with outMem := s.outMem.write s.outPos b, outPos := s.outPos + 1 }
  else .fault .outputWrite

/-- The copy, one byte read and one byte written at a time, stopping early when the output is full
(46_copy_instructions R272 to R274). -/
def State.copyLoop : Nat → State → Res Unit
  | 0, s => .ok () s
  | i + 1, s =>
    if s.outPos < s.target then
      if s.outPos < s.cpDist then .fault .outputRead
      else (s.emit (s.outMem.read (s.outPos - s.cpDist))).bind fun _ s' => State.copyLoop i s'
    else .ok () s

end Sys2Proof.Machine
end

