-- ==== Sys2Proof/Machine/Control.lean ====
section
/-!
DEFINITION. Meanings of the host commands and the engine's actions (70 R330; 45_block_decoder R210, R227;
46_copy_instructions R272; 60_exceptions R305, R307).
-/

namespace Sys2Proof.Machine

/-- RESET: the sequence of 70 R330 with the dictionary in force; IN and OUT are unchanged (10_state R36), and what
R36 leaves unspecified takes the values of `State.resetWith` (log entry 18). -/
def execReset (s : State) : Host.Outcome State Fault Refusal :=
  match Machine.initBoot s.bootDict with
  | .ok _ | .raise _ _ =>
    .next { State.resetWith s.bootDict with inMem := s.inMem, outMem := s.outMem, host := s.host }
  | .duplicate => .refused .duplicateSymbol

/-- START: ignored where it is not accepted (45_block_decoder R227), else the checks of R210. The initialisation
of R211 is the step of the phase CHECK that follows (R225). -/
def execStart (s : State) : Host.Outcome State Fault Refusal :=
  if s.acceptsStart then
    if s.argInLen = 0 then .next (s.clearForStart.takeError .nullOrEmptyInput)
    else if s.argOutPresent = true ∧ s.argOutHint = 0 then
      .next (s.clearForStart.takeError .invalidArgumentCombination)
    else .next { s.clearForStart with phase := .check, seq := .start }
  else .next s

/-- COPY_RUN (46_copy_instructions R272 to R274); the code loop comes next (45_block_decoder R225). -/
def execCopyRun (s : State) : Host.Outcome State Fault Refusal :=
  ((s.copyLoop s.cpLen).bind fun _ s' => .ok () { s' with phase := .codeTest }).outcome

/-- SOFT_STOP (60_exceptions R305). -/
def execSoftStop (s : State) : Host.Outcome State Fault Refusal := .next s.softStop

/-- RAISE: the hard error is taken (60_exceptions R307). -/
def execRaise (e : ErrKind) (s : State) : Host.Outcome State Fault Refusal := .next (s.takeError e)

end Sys2Proof.Machine
end

