-- ==== Sys2Proof/Machine/CursorOps.lean ====
section
/-!
DEFINITION. Meanings of the bit cursor's operations (40_bit_cursor R120 to R125, R129).
-/

namespace Sys2Proof.Machine

/-- CURSOR_INIT (40_bit_cursor R120). -/
def execCursorInit (s : State) : Host.Outcome State Fault Refusal := .next { s with bc := Cursor.init s.argInLen }

/-- REFILL, with its precondition `BC.valid <= 32` (40_bit_cursor R121). -/
def execRefill (s : State) : Host.Outcome State Fault Refusal :=
  if s.bc.valid ≤ 32 then (s.withCursor (s.bc.refill s.inMem)).outcome else .refused .refillNoRoom

/-- An operation with a bit count, which has a meaning for 1 to 32 only (40_bit_cursor R129). -/
def withBitCount (n : Nat) (r : Res Unit) : Host.Outcome State Fault Refusal :=
  if 1 ≤ n ∧ n ≤ 32 then r.outcome else .refused (.bitCount n)

/-- NEED(n) (40_bit_cursor R122). -/
def execNeed (n : Nat) (s : State) : Host.Outcome State Fault Refusal := withBitCount n (s.need n)

/-- PEEK(n); its result is kept in `ret` (40_bit_cursor R123; log entry 13). -/
def execPeek (n : Nat) (s : State) : Host.Outcome State Fault Refusal := withBitCount n (s.peek n).keep

/-- DROP(n) (40_bit_cursor R124). -/
def execDrop (n : Nat) (s : State) : Host.Outcome State Fault Refusal := withBitCount n (s.drop n)

/-- READ(n): PEEK(n) then DROP(n); its result is kept in `ret` (40_bit_cursor R125; log entry 13). -/
def execRead (n : Nat) (s : State) : Host.Outcome State Fault Refusal := withBitCount n (s.read n).keep

end Sys2Proof.Machine
end

