-- ==== Sys2Proof/Machine/Distance.lean ====
section
/-!
DEFINITION. Meanings of the distance symbols and their extra fields (46_copy_instructions R252 to R271).
-/

namespace Sys2Proof.Machine

/-- DIST_EXTRA_1: the 1-bit field of DIST_Q2 (46_copy_instructions R254, R270, R271). -/
def execDistExtra1 (x : BitVec 1) (s : State) : Host.Outcome State Fault Refusal := (s.takeDistExtra 1 x.toNat).outcome

/-- DIST_EXTRA_2: the 2-bit field of DIST_Q3 (46_copy_instructions R255, R270, R271). -/
def execDistExtra2 (x : BitVec 2) (s : State) : Host.Outcome State Fault Refusal := (s.takeDistExtra 2 x.toNat).outcome

/-- DIST_EXTRA_3: the 3-bit field of DIST_Q4 (46_copy_instructions R256, R270, R271). -/
def execDistExtra3 (x : BitVec 3) (s : State) : Host.Outcome State Fault Refusal := (s.takeDistExtra 3 x.toNat).outcome

/-- DIST_EXTRA_4: the 4-bit field of DIST_Q5 (46_copy_instructions R257, R270, R271). -/
def execDistExtra4 (x : BitVec 4) (s : State) : Host.Outcome State Fault Refusal := (s.takeDistExtra 4 x.toNat).outcome

/-- DIST_EXTRA_5: the 5-bit field of DIST_Q6 (46_copy_instructions R258, R270, R271). -/
def execDistExtra5 (x : BitVec 5) (s : State) : Host.Outcome State Fault Refusal := (s.takeDistExtra 5 x.toNat).outcome

/-- DIST_EXTRA_6: the 6-bit field of DIST_Q7 (46_copy_instructions R259, R270, R271). -/
def execDistExtra6 (x : BitVec 6) (s : State) : Host.Outcome State Fault Refusal := (s.takeDistExtra 6 x.toNat).outcome

/-- DIST_EXTRA_7: the 7-bit field of DIST_Q8 (46_copy_instructions R260, R270, R271). -/
def execDistExtra7 (x : BitVec 7) (s : State) : Host.Outcome State Fault Refusal := (s.takeDistExtra 7 x.toNat).outcome

/-- DIST_EXTRA_8: the 8-bit field of DIST_Q9 (46_copy_instructions R261, R270, R271). -/
def execDistExtra8 (x : BitVec 8) (s : State) : Host.Outcome State Fault Refusal := (s.takeDistExtra 8 x.toNat).outcome

/-- DIST_EXTRA_9: the 9-bit field of DIST_Q10 (46_copy_instructions R262, R270, R271). -/
def execDistExtra9 (x : BitVec 9) (s : State) : Host.Outcome State Fault Refusal := (s.takeDistExtra 9 x.toNat).outcome

/-- DIST_EXTRA_10: the 10-bit field of DIST_Q11 (46_copy_instructions R263, R270, R271). -/
def execDistExtra10 (x : BitVec 10) (s : State) : Host.Outcome State Fault Refusal := (s.takeDistExtra 10 x.toNat).outcome

/-- DIST_EXTRA_11: the 11-bit field of DIST_Q12 (46_copy_instructions R264, R270, R271). -/
def execDistExtra11 (x : BitVec 11) (s : State) : Host.Outcome State Fault Refusal := (s.takeDistExtra 11 x.toNat).outcome

/-- DIST_EXTRA_12: the 12-bit field of DIST_Q13 (46_copy_instructions R265, R270, R271). -/
def execDistExtra12 (x : BitVec 12) (s : State) : Host.Outcome State Fault Refusal := (s.takeDistExtra 12 x.toNat).outcome

/-- DIST_EXTRA_13: the 13-bit field of DIST_Q14 (46_copy_instructions R266, R270, R271). -/
def execDistExtra13 (x : BitVec 13) (s : State) : Host.Outcome State Fault Refusal := (s.takeDistExtra 13 x.toNat).outcome

/-- DIST_EXTRA_14: the 14-bit field of DIST_Q15 (46_copy_instructions R267, R270, R271). -/
def execDistExtra14 (x : BitVec 14) (s : State) : Host.Outcome State Fault Refusal := (s.takeDistExtra 14 x.toNat).outcome

/-- DIST_EXTRA_15: the 15-bit field of DIST_Q16 (46_copy_instructions R268, R270, R271). -/
def execDistExtra15 (x : BitVec 15) (s : State) : Host.Outcome State Fault Refusal := (s.takeDistExtra 15 x.toNat).outcome

/-- DIST_Q0: `distance <- ds`, no extra bits, then the range check (46_copy_instructions R252). -/
def execDistQ0 (r2 : BitVec 1) (s : State) : Host.Outcome State Fault Refusal := (s.setDistance (distBase 0 r2.toNat)).outcome

/-- DIST_Q1: `distance <- 1 * (2 + r2)`, no extra bits, then the range check (46_copy_instructions R253). -/
def execDistQ1 (r2 : BitVec 1) (s : State) : Host.Outcome State Fault Refusal := (s.setDistance (distBase 1 r2.toNat)).outcome

/-- DIST_Q2: `distance <- 2 * (2 + r2)`; a field of 1 bit follows (46_copy_instructions R254). -/
def execDistQ2 (r2 : BitVec 1) (s : State) : Host.Outcome State Fault Refusal := .next (s.awaitDistExtra (distBase 2 r2.toNat) 0)

/-- DIST_Q3: `distance <- 4 * (2 + r2)`; a field of 2 bits follows (46_copy_instructions R255). -/
def execDistQ3 (r2 : BitVec 1) (s : State) : Host.Outcome State Fault Refusal := .next (s.awaitDistExtra (distBase 3 r2.toNat) 1)

/-- DIST_Q4: `distance <- 8 * (2 + r2)`; a field of 3 bits follows (46_copy_instructions R256). -/
def execDistQ4 (r2 : BitVec 1) (s : State) : Host.Outcome State Fault Refusal := .next (s.awaitDistExtra (distBase 4 r2.toNat) 2)

/-- DIST_Q5: `distance <- 16 * (2 + r2)`; a field of 4 bits follows (46_copy_instructions R257). -/
def execDistQ5 (r2 : BitVec 1) (s : State) : Host.Outcome State Fault Refusal := .next (s.awaitDistExtra (distBase 5 r2.toNat) 3)

/-- DIST_Q6: `distance <- 32 * (2 + r2)`; a field of 5 bits follows (46_copy_instructions R258). -/
def execDistQ6 (r2 : BitVec 1) (s : State) : Host.Outcome State Fault Refusal := .next (s.awaitDistExtra (distBase 6 r2.toNat) 4)

/-- DIST_Q7: `distance <- 64 * (2 + r2)`; a field of 6 bits follows (46_copy_instructions R259). -/
def execDistQ7 (r2 : BitVec 1) (s : State) : Host.Outcome State Fault Refusal := .next (s.awaitDistExtra (distBase 7 r2.toNat) 5)

/-- DIST_Q8: `distance <- 128 * (2 + r2)`; a field of 7 bits follows (46_copy_instructions R260). -/
def execDistQ8 (r2 : BitVec 1) (s : State) : Host.Outcome State Fault Refusal := .next (s.awaitDistExtra (distBase 8 r2.toNat) 6)

/-- DIST_Q9: `distance <- 256 * (2 + r2)`; a field of 8 bits follows (46_copy_instructions R261). -/
def execDistQ9 (r2 : BitVec 1) (s : State) : Host.Outcome State Fault Refusal := .next (s.awaitDistExtra (distBase 9 r2.toNat) 7)

/-- DIST_Q10: `distance <- 512 * (2 + r2)`; a field of 9 bits follows (46_copy_instructions R262). -/
def execDistQ10 (r2 : BitVec 1) (s : State) : Host.Outcome State Fault Refusal := .next (s.awaitDistExtra (distBase 10 r2.toNat) 8)

/-- DIST_Q11: `distance <- 1024 * (2 + r2)`; a field of 10 bits follows (46_copy_instructions R263). -/
def execDistQ11 (r2 : BitVec 1) (s : State) : Host.Outcome State Fault Refusal := .next (s.awaitDistExtra (distBase 11 r2.toNat) 9)

/-- DIST_Q12: `distance <- 2048 * (2 + r2)`; a field of 11 bits follows (46_copy_instructions R264). -/
def execDistQ12 (r2 : BitVec 1) (s : State) : Host.Outcome State Fault Refusal := .next (s.awaitDistExtra (distBase 12 r2.toNat) 10)

/-- DIST_Q13: `distance <- 4096 * (2 + r2)`; a field of 12 bits follows (46_copy_instructions R265). -/
def execDistQ13 (r2 : BitVec 1) (s : State) : Host.Outcome State Fault Refusal := .next (s.awaitDistExtra (distBase 13 r2.toNat) 11)

/-- DIST_Q14: `distance <- 8192 * (2 + r2)`; a field of 13 bits follows (46_copy_instructions R266). -/
def execDistQ14 (r2 : BitVec 1) (s : State) : Host.Outcome State Fault Refusal := .next (s.awaitDistExtra (distBase 14 r2.toNat) 12)

/-- DIST_Q15: `distance <- 16384 * (2 + r2)`; a field of 14 bits follows (46_copy_instructions R267). -/
def execDistQ15 (r2 : BitVec 1) (s : State) : Host.Outcome State Fault Refusal := .next (s.awaitDistExtra (distBase 15 r2.toNat) 13)

/-- DIST_Q16: `distance <- 32768 * (2 + r2)`; a field of 15 bits follows (46_copy_instructions R268). -/
def execDistQ16 (r2 : BitVec 1) (s : State) : Host.Outcome State Fault Refusal := .next (s.awaitDistExtra (distBase 16 r2.toNat) 14)

/-- DIST_INVALID raises InvalidDistanceCode; nothing is copied (46_copy_instructions R269). -/
def execDistInvalid (_ds : SymBits) (s : State) : Host.Outcome State Fault Refusal := .next (s.takeError .invalidDistanceCode)

end Sys2Proof.Machine
end

