-- ==== Sys2Proof/Machine/Elements.lean ====
section
/-!
DEFINITION. Meanings of the header, the table elements, the block parameters and the literal
(45_block_decoder R212, R213, R217, R220; 44_table_parsing R191 to R197).
-/

namespace Sys2Proof.Machine

/-- HDR: `DROP(32); declared <- READ(32); DROP(32)`, DECLARED, then the target (45_block_decoder R212, R213); the
first and third fields are not examined. -/
def execHdr (_magic size _reserved : Word) (s : State) : Host.Outcome State Fault Refusal :=
  ((s.drop 32).bind fun _ s1 => (s1.read 32).bind fun _ s2 =>
    (State.drop 32 { s2 with declared := size.toNat }).bind fun _ s3 =>
      .ok () { s3 with
        statusDeclared := BitVec.ofNat 32 s3.declared
        target := targetOf s3.declared s3.argOutHint
        statusTarget := BitVec.ofNat 32 (targetOf s3.declared s3.argOutHint)
        phase := .blockTest }).outcome

/-- COUNT: `tp_n <- READ(16)`, then the check (44_table_parsing R191, R192); CLEAR comes next (R193). -/
def execCount (n : BitVec 16) (s : State) : Host.Outcome State Fault Refusal :=
  ((s.read 16).bind fun _ s1 => (s1.setCount n.toNat).bind fun _ s2 => .ok () { s2 with seq := .clear }).outcome

/-- PARAMS: `DROP(4); s <- READ(4); wsb; m <- READ(4); codes_left` (45_block_decoder R217). -/
def execParams (_rsv sv m : BitVec 4) (s : State) : Host.Outcome State Fault Refusal :=
  ((s.drop 4).bind fun _ s1 => (s1.read 4).bind fun _ s2 =>
    (State.read 4 { s2 with wsb := paramsWsb sv }).bind fun _ s3 =>
      .ok () { s3 with codesLeft := paramsCodes m, phase := .codeTest }).outcome

/-- RUN_SKIP: `tp_rem <- tp_rem - rep` (44_table_parsing R195). -/
def execRunSkip (rep : BitVec 4) (s : State) : Host.Outcome State Fault Refusal := .next (s.skipRun (runCount rep))

/-- RUN_ASSIGN: `rep` times ADD_SYMBOL of the highest slot left (44_table_parsing R196, R197). -/
def execRunAssign (rep : BitVec 4) (len : BitVec 5) (s : State) : Host.Outcome State Fault Refusal :=
  (s.assignRun len.toNat (runCount rep)).outcome

/-- LIT: the byte to `OUT[out_pos]`, and `out_pos` advances (45_block_decoder R220). -/
def execLit (byte : Byte) (s : State) : Host.Outcome State Fault Refusal :=
  ((s.emit byte).bind fun _ s' => .ok () { s' with phase := .codeTest }).outcome

end Sys2Proof.Machine
end

