-- ==== Sys2Proof/Machine/Length.lean ====
section
/-!
DEFINITION. Meanings of the length symbols and their extra fields (46_copy_instructions R241 to R250).
-/

namespace Sys2Proof.Machine

/-- LEN_EXTRA_1: the 1-bit field of LEN_Q2 (46_copy_instructions R243, R250). -/
def execLenExtra1 (x : BitVec 1) (s : State) : Host.Outcome State Fault Refusal := (s.takeLenExtra 1 x.toNat).outcome

/-- LEN_EXTRA_2: the 2-bit field of LEN_Q3 (46_copy_instructions R244, R250). -/
def execLenExtra2 (x : BitVec 2) (s : State) : Host.Outcome State Fault Refusal := (s.takeLenExtra 2 x.toNat).outcome

/-- LEN_EXTRA_3: the 3-bit field of LEN_Q4 (46_copy_instructions R245, R250). -/
def execLenExtra3 (x : BitVec 3) (s : State) : Host.Outcome State Fault Refusal := (s.takeLenExtra 3 x.toNat).outcome

/-- LEN_EXTRA_4: the 4-bit field of LEN_Q5 (46_copy_instructions R246, R250). -/
def execLenExtra4 (x : BitVec 4) (s : State) : Host.Outcome State Fault Refusal := (s.takeLenExtra 4 x.toNat).outcome

/-- LEN_EXTRA_5: the 5-bit field of LEN_Q6 (46_copy_instructions R247, R250). -/
def execLenExtra5 (x : BitVec 5) (s : State) : Host.Outcome State Fault Refusal := (s.takeLenExtra 5 x.toNat).outcome

/-- LEN_Q0: `length <- ls`, no extra bits (46_copy_instructions R241). -/
def execLenQ0 (r : BitVec 2) (s : State) : Host.Outcome State Fault Refusal := .next (s.setLength (lenBase 0 r.toNat))

/-- LEN_Q1: `length <- 1 * (4 + r)`, no extra bits (46_copy_instructions R242). -/
def execLenQ1 (r : BitVec 2) (s : State) : Host.Outcome State Fault Refusal := .next (s.setLength (lenBase 1 r.toNat))

/-- LEN_Q2: `length <- 2 * (4 + r)`; a field of 1 bit follows (46_copy_instructions R243). -/
def execLenQ2 (r : BitVec 2) (s : State) : Host.Outcome State Fault Refusal := .next (s.awaitLenExtra (lenBase 2 r.toNat) 0)

/-- LEN_Q3: `length <- 4 * (4 + r)`; a field of 2 bits follows (46_copy_instructions R244). -/
def execLenQ3 (r : BitVec 2) (s : State) : Host.Outcome State Fault Refusal := .next (s.awaitLenExtra (lenBase 3 r.toNat) 1)

/-- LEN_Q4: `length <- 8 * (4 + r)`; a field of 3 bits follows (46_copy_instructions R245). -/
def execLenQ4 (r : BitVec 2) (s : State) : Host.Outcome State Fault Refusal := .next (s.awaitLenExtra (lenBase 4 r.toNat) 2)

/-- LEN_Q5: `length <- 16 * (4 + r)`; a field of 4 bits follows (46_copy_instructions R246). -/
def execLenQ5 (r : BitVec 2) (s : State) : Host.Outcome State Fault Refusal := .next (s.awaitLenExtra (lenBase 5 r.toNat) 3)

/-- LEN_Q6: `length <- 32 * (4 + r)`; a field of 5 bits follows (46_copy_instructions R247). -/
def execLenQ6 (r : BitVec 2) (s : State) : Host.Outcome State Fault Refusal := .next (s.awaitLenExtra (lenBase 6 r.toNat) 4)

/-- LEN_MAX: `length <- 0xFF`, no extra bits (46_copy_instructions R248). -/
def execLenMax (s : State) : Host.Outcome State Fault Refusal := .next (s.setLength lenMaxValue)

/-- LEN_INVALID raises InvalidLengthCode; no further bit is read (46_copy_instructions R249). -/
def execLenInvalid (_sym : SymBits) (s : State) : Host.Outcome State Fault Refusal := .next (s.takeError .invalidLengthCode)

end Sys2Proof.Machine
end

