-- ==== Sys2Proof/Machine/TableOps.lean ====
section
/-!
DEFINITION. Meanings of the operations on tables and the builder (41_huffman_table R140;
42_table_builder R160, R161, R164; 43_bootstrap_dictionary R180; 44_table_parsing R190).
-/

namespace Sys2Proof.Machine

/-- DECODE(T); its result is kept in `ret` (41_huffman_table R140; log entry 13). -/
def execDecode (t : TableId) (s : State) : Host.Outcome State Fault Refusal := (s.decode t).keep.outcome

/-- CLEAR (42_table_builder R160). -/
def execClear (s : State) : Host.Outcome State Fault Refusal := .next s.clearBuilder

/-- ADD_SYMBOL(symbol, length) (42_table_builder R161 to R163). -/
def execAddSymbol (symbol : Int) (length : Nat) (s : State) : Host.Outcome State Fault Refusal := (s.addSymbol symbol length).outcome

/-- BUILD into the table `t` (42_table_builder R164 to R169). -/
def execBuild (t : TableId) (s : State) : Host.Outcome State Fault Refusal := (s.build t).outcome

/-- INIT_BOOT (43_bootstrap_dictionary R180; 70 R331). -/
def execInitBoot (s : State) : Host.Outcome State Fault Refusal := s.initBoot.outcome

/-- PARSE_TABLE(T); its result, 1 for `true`, is kept in `ret` (44_table_parsing R190 to R198; log entry 13). -/
def execParseTable (t : WorkTable) (s : State) : Host.Outcome State Fault Refusal := (s.parseTable t).keep.outcome

end Sys2Proof.Machine
end

