-- ==== Sys2Proof/Machine/Dispatch.lean ====
section
/-!
DEFINITION. The meaning of every instruction: one arm per row of spec/opcode_table.json.
-/

namespace Sys2Proof.Machine

def exec (i : Instr) (s : State) : Host.Outcome State Fault Refusal :=
  match i with
  | .hdr magic size reserved => Sys2Proof.Machine.execHdr magic size reserved s
  | .count n => Sys2Proof.Machine.execCount n s
  | .params rsv sv m => Sys2Proof.Machine.execParams rsv sv m s
  | .lenExtra1 x => Sys2Proof.Machine.execLenExtra1 x s
  | .lenExtra2 x => Sys2Proof.Machine.execLenExtra2 x s
  | .lenExtra3 x => Sys2Proof.Machine.execLenExtra3 x s
  | .lenExtra4 x => Sys2Proof.Machine.execLenExtra4 x s
  | .lenExtra5 x => Sys2Proof.Machine.execLenExtra5 x s
  | .distExtra1 x => Sys2Proof.Machine.execDistExtra1 x s
  | .distExtra2 x => Sys2Proof.Machine.execDistExtra2 x s
  | .distExtra3 x => Sys2Proof.Machine.execDistExtra3 x s
  | .distExtra4 x => Sys2Proof.Machine.execDistExtra4 x s
  | .distExtra5 x => Sys2Proof.Machine.execDistExtra5 x s
  | .distExtra6 x => Sys2Proof.Machine.execDistExtra6 x s
  | .distExtra7 x => Sys2Proof.Machine.execDistExtra7 x s
  | .distExtra8 x => Sys2Proof.Machine.execDistExtra8 x s
  | .distExtra9 x => Sys2Proof.Machine.execDistExtra9 x s
  | .distExtra10 x => Sys2Proof.Machine.execDistExtra10 x s
  | .distExtra11 x => Sys2Proof.Machine.execDistExtra11 x s
  | .distExtra12 x => Sys2Proof.Machine.execDistExtra12 x s
  | .distExtra13 x => Sys2Proof.Machine.execDistExtra13 x s
  | .distExtra14 x => Sys2Proof.Machine.execDistExtra14 x s
  | .distExtra15 x => Sys2Proof.Machine.execDistExtra15 x s
  | .runSkip rep => Sys2Proof.Machine.execRunSkip rep s
  | .runAssign rep len => Sys2Proof.Machine.execRunAssign rep len s
  | .lit byte => Sys2Proof.Machine.execLit byte s
  | .lenQ0 r => Sys2Proof.Machine.execLenQ0 r s
  | .lenQ1 r => Sys2Proof.Machine.execLenQ1 r s
  | .lenQ2 r => Sys2Proof.Machine.execLenQ2 r s
  | .lenQ3 r => Sys2Proof.Machine.execLenQ3 r s
  | .lenQ4 r => Sys2Proof.Machine.execLenQ4 r s
  | .lenQ5 r => Sys2Proof.Machine.execLenQ5 r s
  | .lenQ6 r => Sys2Proof.Machine.execLenQ6 r s
  | .lenMax => Sys2Proof.Machine.execLenMax s
  | .lenInvalid sym => Sys2Proof.Machine.execLenInvalid sym s
  | .distQ0 r2 => Sys2Proof.Machine.execDistQ0 r2 s
  | .distQ1 r2 => Sys2Proof.Machine.execDistQ1 r2 s
  | .distQ2 r2 => Sys2Proof.Machine.execDistQ2 r2 s
  | .distQ3 r2 => Sys2Proof.Machine.execDistQ3 r2 s
  | .distQ4 r2 => Sys2Proof.Machine.execDistQ4 r2 s
  | .distQ5 r2 => Sys2Proof.Machine.execDistQ5 r2 s
  | .distQ6 r2 => Sys2Proof.Machine.execDistQ6 r2 s
  | .distQ7 r2 => Sys2Proof.Machine.execDistQ7 r2 s
  | .distQ8 r2 => Sys2Proof.Machine.execDistQ8 r2 s
  | .distQ9 r2 => Sys2Proof.Machine.execDistQ9 r2 s
  | .distQ10 r2 => Sys2Proof.Machine.execDistQ10 r2 s
  | .distQ11 r2 => Sys2Proof.Machine.execDistQ11 r2 s
  | .distQ12 r2 => Sys2Proof.Machine.execDistQ12 r2 s
  | .distQ13 r2 => Sys2Proof.Machine.execDistQ13 r2 s
  | .distQ14 r2 => Sys2Proof.Machine.execDistQ14 r2 s
  | .distQ15 r2 => Sys2Proof.Machine.execDistQ15 r2 s
  | .distQ16 r2 => Sys2Proof.Machine.execDistQ16 r2 s
  | .distInvalid ds => Sys2Proof.Machine.execDistInvalid ds s
  | .reset => Sys2Proof.Machine.execReset s
  | .start => Sys2Proof.Machine.execStart s
  | .cursorInit => Sys2Proof.Machine.execCursorInit s
  | .refill => Sys2Proof.Machine.execRefill s
  | .need n => Sys2Proof.Machine.execNeed n s
  | .peek n => Sys2Proof.Machine.execPeek n s
  | .drop n => Sys2Proof.Machine.execDrop n s
  | .read n => Sys2Proof.Machine.execRead n s
  | .decode t => Sys2Proof.Machine.execDecode t s
  | .clear => Sys2Proof.Machine.execClear s
  | .addSymbol symbol length => Sys2Proof.Machine.execAddSymbol symbol length s
  | .build t => Sys2Proof.Machine.execBuild t s
  | .initBoot => Sys2Proof.Machine.execInitBoot s
  | .parseTable t => Sys2Proof.Machine.execParseTable t s
  | .copyRun => Sys2Proof.Machine.execCopyRun s
  | .softStop => Sys2Proof.Machine.execSoftStop s
  | .raise e => Sys2Proof.Machine.execRaise e s

end Sys2Proof.Machine
end

