-- ==== Sys2Proof/WellFormed.lean ====
section
/-!
DEFINITION. Which instructions the encoding can hold: the operand constraints that the field widths of
`Instr` do not already say.
-/

namespace Sys2Proof

/-- A symbol a table can hold is below 285 (00_scope R4); `LEN_INVALID` and `DIST_INVALID` cover the `range` of
their opcode rows; RUN_ASSIGN has a nonzero length (30_encoding R95, R105); bit counts are 1 to 32 (40_bit_cursor
R129); ADD_SYMBOL's length is 0 to 255 (42_table_builder R161); BUILD's destination inside a decode is a working
table or, for INIT_BOOT, BOOT_T (42_table_builder R164); CORE never raises AllocationFailure (60_exceptions R304). -/
def Instr.wellFormed : Instr → Bool
  | .runSkip rep => decide (rep.toNat * 32 < 285)
  | .runAssign rep len => decide (len ≠ 0 ∧ rep.toNat * 32 + len.toNat < 285)
  | .lenInvalid sym => decide (0x11D ≤ sym.toNat)
  | .distInvalid ds => decide (34 ≤ ds.toNat ∧ ds.toNat < 285)
  | .need n => decide (1 ≤ n ∧ n ≤ 32)
  | .peek n => decide (1 ≤ n ∧ n ≤ 32)
  | .drop n => decide (1 ≤ n ∧ n ≤ 32)
  | .read n => decide (1 ≤ n ∧ n ≤ 32)
  | .addSymbol _ length => decide (length ≤ 255)
  | .raise e => decide (e ≠ .allocationFailure)
  | .hdr _ _ _ | .count _ | .params _ _ _
  | .lenExtra1 _ | .lenExtra2 _ | .lenExtra3 _ | .lenExtra4 _ | .lenExtra5 _
  | .distExtra1 _ | .distExtra2 _ | .distExtra3 _ | .distExtra4 _ | .distExtra5 _ | .distExtra6 _
  | .distExtra7 _ | .distExtra8 _ | .distExtra9 _ | .distExtra10 _ | .distExtra11 _ | .distExtra12 _
  | .distExtra13 _ | .distExtra14 _ | .distExtra15 _
  | .lit _ | .lenQ0 _ | .lenQ1 _ | .lenQ2 _ | .lenQ3 _ | .lenQ4 _ | .lenQ5 _ | .lenQ6 _ | .lenMax
  | .distQ0 _ | .distQ1 _ | .distQ2 _ | .distQ3 _ | .distQ4 _ | .distQ5 _
  | .distQ6 _ | .distQ7 _ | .distQ8 _ | .distQ9 _ | .distQ10 _ | .distQ11 _
  | .distQ12 _ | .distQ13 _ | .distQ14 _ | .distQ15 _ | .distQ16 _
  | .reset | .start | .cursorInit | .refill | .decode _ | .clear | .build _ | .initBoot | .parseTable _
  | .copyRun | .softStop => true

end Sys2Proof
end

