-- ==== Sys2Proof/Decode.lean ====
section
/-!
DEFINITION. The decoder from bits to instructions, total, rejecting by name, and the encoder beside it
(30_encoding R91 to R98, R105). A Huffman-coded element is decoded from the 9-bit symbol its table yields: the
bit pattern of its code is the table's, not the format's (30_encoding R101, R105).
-/

namespace Sys2Proof

/-- What the next bits are, as the opcode table's `format` column says (30_encoding R105). -/
inductive Format where
  | hdr
  | count
  | params
  | lenExtra (n : Fin 5)
  | distExtra (n : Fin 15)
  | run
  | sym
  | dsym
deriving DecidableEq, Repr

/-- The fields of a raw element as the engine reads them one after another (45_block_decoder R212, R217). A
symbol is one field of 9 bits. -/
def Format.fields : Format → List Nat
  | .hdr => [32, 32, 32]
  | .count => [16]
  | .params => [4, 4, 4]
  | .lenExtra n => [n.val + 1]
  | .distExtra n => [n.val + 1]
  | .run | .sym | .dsym => [9]

/-- The width of an element (30_encoding R91 to R94, R105). -/
def Format.width (f : Format) : Nat := f.fields.sum

/-- Why the decoder rejects. -/
inductive Reject where
  /-- Fewer bits than the element has. -/
  | tooFewBits
  /-- The value is no symbol of this format: above 284 (00_scope R4), or above the 9 bits of the SYM rows. -/
  | notASymbol (v : Nat)
deriving DecidableEq, Repr

/-- The value of a bit string, first bit most significant (00_scope R7). -/
def bitsToNat (bits : List Bool) : Nat := bits.foldl (fun v b => 2 * v + b.toNat) 0

/-- The `w`-bit string of a value, first bit most significant (00_scope R7). -/
def natToBits : Nat → Nat → List Bool
  | 0, _ => []
  | w + 1, v => v.testBit w :: natToBits w v

/-- A RUN row: `code_length` is the low 5 bits, `repeat_count - 1` the rest (30_encoding R95, R105). -/
def decodeRun (rc : SymBits) : Instr :=
  if rc &&& 0x01F#9 = 0#9 then .runSkip (rc.extractLsb' 5 4)
  else .runAssign (rc.extractLsb' 5 4) (rc.extractLsb' 0 5)

/-- A SYM row by `match` and `mask` (30_encoding R96, R97, R105). -/
def decodeSymRow (sym : SymBits) : Instr :=
  if sym &&& 0x100#9 = 0#9 then .lit (sym.extractLsb' 0 8)
  else if sym &&& 0x1FC#9 = 0x100#9 then .lenQ0 (sym.extractLsb' 0 2)
  else if sym &&& 0x1FC#9 = 0x104#9 then .lenQ1 (sym.extractLsb' 0 2)
  else if sym &&& 0x1FC#9 = 0x108#9 then .lenQ2 (sym.extractLsb' 0 2)
  else if sym &&& 0x1FC#9 = 0x10C#9 then .lenQ3 (sym.extractLsb' 0 2)
  else if sym &&& 0x1FC#9 = 0x110#9 then .lenQ4 (sym.extractLsb' 0 2)
  else if sym &&& 0x1FC#9 = 0x114#9 then .lenQ5 (sym.extractLsb' 0 2)
  else if sym &&& 0x1FC#9 = 0x118#9 then .lenQ6 (sym.extractLsb' 0 2)
  else if sym &&& 0x1FF#9 = 0x11C#9 then .lenMax
  else .lenInvalid sym

/-- A DSYM row by `match` and `mask` (30_encoding R98, R105). -/
def decodeDsymRow (ds : SymBits) : Instr :=
  if ds &&& 0x1FE#9 = 0x000#9 then .distQ0 (ds.extractLsb' 0 1)
  else if ds &&& 0x1FE#9 = 0x002#9 then .distQ1 (ds.extractLsb' 0 1)
  else if ds &&& 0x1FE#9 = 0x004#9 then .distQ2 (ds.extractLsb' 0 1)
  else if ds &&& 0x1FE#9 = 0x006#9 then .distQ3 (ds.extractLsb' 0 1)
  else if ds &&& 0x1FE#9 = 0x008#9 then .distQ4 (ds.extractLsb' 0 1)
  else if ds &&& 0x1FE#9 = 0x00A#9 then .distQ5 (ds.extractLsb' 0 1)
  else if ds &&& 0x1FE#9 = 0x00C#9 then .distQ6 (ds.extractLsb' 0 1)
  else if ds &&& 0x1FE#9 = 0x00E#9 then .distQ7 (ds.extractLsb' 0 1)
  else if ds &&& 0x1FE#9 = 0x010#9 then .distQ8 (ds.extractLsb' 0 1)
  else if ds &&& 0x1FE#9 = 0x012#9 then .distQ9 (ds.extractLsb' 0 1)
  else if ds &&& 0x1FE#9 = 0x014#9 then .distQ10 (ds.extractLsb' 0 1)
  else if ds &&& 0x1FE#9 = 0x016#9 then .distQ11 (ds.extractLsb' 0 1)
  else if ds &&& 0x1FE#9 = 0x018#9 then .distQ12 (ds.extractLsb' 0 1)
  else if ds &&& 0x1FE#9 = 0x01A#9 then .distQ13 (ds.extractLsb' 0 1)
  else if ds &&& 0x1FE#9 = 0x01C#9 then .distQ14 (ds.extractLsb' 0 1)
  else if ds &&& 0x1FE#9 = 0x01E#9 then .distQ15 (ds.extractLsb' 0 1)
  else if ds &&& 0x1FE#9 = 0x020#9 then .distQ16 (ds.extractLsb' 0 1)
  else .distInvalid ds

/-- A length's extra field of `n + 1` bits (30_encoding R94). -/
def lenExtraInstr : Fin 5 → Nat → Instr
  | 0, v => .lenExtra1 (BitVec.ofNat 1 v)
  | 1, v => .lenExtra2 (BitVec.ofNat 2 v)
  | 2, v => .lenExtra3 (BitVec.ofNat 3 v)
  | 3, v => .lenExtra4 (BitVec.ofNat 4 v)
  | 4, v => .lenExtra5 (BitVec.ofNat 5 v)

/-- A distance's extra field of `n + 1` bits (30_encoding R94). -/
def distExtraInstr : Fin 15 → Nat → Instr
  | 0, v => .distExtra1 (BitVec.ofNat 1 v)
  | 1, v => .distExtra2 (BitVec.ofNat 2 v)
  | 2, v => .distExtra3 (BitVec.ofNat 3 v)
  | 3, v => .distExtra4 (BitVec.ofNat 4 v)
  | 4, v => .distExtra5 (BitVec.ofNat 5 v)
  | 5, v => .distExtra6 (BitVec.ofNat 6 v)
  | 6, v => .distExtra7 (BitVec.ofNat 7 v)
  | 7, v => .distExtra8 (BitVec.ofNat 8 v)
  | 8, v => .distExtra9 (BitVec.ofNat 9 v)
  | 9, v => .distExtra10 (BitVec.ofNat 10 v)
  | 10, v => .distExtra11 (BitVec.ofNat 11 v)
  | 11, v => .distExtra12 (BitVec.ofNat 12 v)
  | 12, v => .distExtra13 (BitVec.ofNat 13 v)
  | 13, v => .distExtra14 (BitVec.ofNat 14 v)
  | 14, v => .distExtra15 (BitVec.ofNat 15 v)

/-- The instruction of an element whose value is `v`, first bit most significant (30_encoding R91 to R98). -/
def decodeValue (f : Format) (v : Nat) : Except Reject Instr :=
  match f with
  | .hdr => .ok (.hdr (BitVec.ofNat 32 (v >>> 64)) (BitVec.ofNat 32 (v >>> 32)) (BitVec.ofNat 32 v))
  | .count => .ok (.count (BitVec.ofNat 16 v))
  | .params => .ok (.params (BitVec.ofNat 4 (v >>> 8)) (BitVec.ofNat 4 (v >>> 4)) (BitVec.ofNat 4 v))
  | .lenExtra n => .ok (lenExtraInstr n v)
  | .distExtra n => .ok (distExtraInstr n v)
  | .run => if v < 285 then .ok (decodeRun (BitVec.ofNat 9 v)) else .error (.notASymbol v)
  | .sym => if v < 512 then .ok (decodeSymRow (BitVec.ofNat 9 v)) else .error (.notASymbol v)
  | .dsym => if v < 285 then .ok (decodeDsymRow (BitVec.ofNat 9 v)) else .error (.notASymbol v)

/-- The decoder: the instruction at the head of a bit string, and the bits after it. -/
def decode (f : Format) (bits : List Bool) : Except Reject (Instr × List Bool) :=
  if bits.length < f.width then .error .tooFewBits
  else match decodeValue f (bitsToNat (bits.take f.width)) with
    | .ok i => .ok (i, bits.drop f.width)
    | .error r => .error r

/-- The format of an instruction's opcode row; an OP row has no stream encoding (30_encoding R105). -/
def Instr.format? : Instr → Option Format
  | .hdr _ _ _ => some .hdr
  | .count _ => some .count
  | .params _ _ _ => some .params
  | .lenExtra1 _ => some (.lenExtra 0)
  | .lenExtra2 _ => some (.lenExtra 1)
  | .lenExtra3 _ => some (.lenExtra 2)
  | .lenExtra4 _ => some (.lenExtra 3)
  | .lenExtra5 _ => some (.lenExtra 4)
  | .distExtra1 _ => some (.distExtra 0)
  | .distExtra2 _ => some (.distExtra 1)
  | .distExtra3 _ => some (.distExtra 2)
  | .distExtra4 _ => some (.distExtra 3)
  | .distExtra5 _ => some (.distExtra 4)
  | .distExtra6 _ => some (.distExtra 5)
  | .distExtra7 _ => some (.distExtra 6)
  | .distExtra8 _ => some (.distExtra 7)
  | .distExtra9 _ => some (.distExtra 8)
  | .distExtra10 _ => some (.distExtra 9)
  | .distExtra11 _ => some (.distExtra 10)
  | .distExtra12 _ => some (.distExtra 11)
  | .distExtra13 _ => some (.distExtra 12)
  | .distExtra14 _ => some (.distExtra 13)
  | .distExtra15 _ => some (.distExtra 14)
  | .runSkip _ | .runAssign _ _ => some .run
  | .lit _ | .lenMax | .lenInvalid _ => some .sym
  | .lenQ0 _ | .lenQ1 _ | .lenQ2 _ | .lenQ3 _ | .lenQ4 _ | .lenQ5 _ | .lenQ6 _ => some .sym
  | .distQ0 _ | .distQ1 _ | .distQ2 _ | .distQ3 _ | .distQ4 _ | .distQ5 _ | .distQ6 _ | .distQ7 _ | .distQ8 _ => some .dsym
  | .distQ9 _ | .distQ10 _ | .distQ11 _ | .distQ12 _ | .distQ13 _ | .distQ14 _ | .distQ15 _ | .distQ16 _ => some .dsym
  | .distInvalid _ => some .dsym
  | .reset | .start | .cursorInit | .refill | .need _ | .peek _ | .drop _ | .read _ | .decode _ | .clear => none
  | .addSymbol _ _ | .build _ | .initBoot | .parseTable _ | .copyRun | .softStop | .raise _ => none

/-- The value of an element's bits, first bit most significant (30_encoding R91 to R98). -/
def Instr.value : Instr → Nat
  | .hdr magic size reserved => (magic.toNat <<< 64) + (size.toNat <<< 32) + reserved.toNat
  | .count n => n.toNat
  | .params rsv s m => (rsv.toNat <<< 8) + (s.toNat <<< 4) + m.toNat
  | .lenExtra1 x => x.toNat
  | .lenExtra2 x => x.toNat
  | .lenExtra3 x => x.toNat
  | .lenExtra4 x => x.toNat
  | .lenExtra5 x => x.toNat
  | .distExtra1 x => x.toNat
  | .distExtra2 x => x.toNat
  | .distExtra3 x => x.toNat
  | .distExtra4 x => x.toNat
  | .distExtra5 x => x.toNat
  | .distExtra6 x => x.toNat
  | .distExtra7 x => x.toNat
  | .distExtra8 x => x.toNat
  | .distExtra9 x => x.toNat
  | .distExtra10 x => x.toNat
  | .distExtra11 x => x.toNat
  | .distExtra12 x => x.toNat
  | .distExtra13 x => x.toNat
  | .distExtra14 x => x.toNat
  | .distExtra15 x => x.toNat
  | .runSkip rep => rep.toNat <<< 5
  | .runAssign rep len => (rep.toNat <<< 5) + len.toNat
  | .lit b => b.toNat
  | .lenQ0 r => 0x100 + r.toNat
  | .lenQ1 r => 0x104 + r.toNat
  | .lenQ2 r => 0x108 + r.toNat
  | .lenQ3 r => 0x10C + r.toNat
  | .lenQ4 r => 0x110 + r.toNat
  | .lenQ5 r => 0x114 + r.toNat
  | .lenQ6 r => 0x118 + r.toNat
  | .lenMax => 0x11C
  | .lenInvalid sym => sym.toNat
  | .distQ0 r2 => 0 + r2.toNat
  | .distQ1 r2 => 2 + r2.toNat
  | .distQ2 r2 => 4 + r2.toNat
  | .distQ3 r2 => 6 + r2.toNat
  | .distQ4 r2 => 8 + r2.toNat
  | .distQ5 r2 => 10 + r2.toNat
  | .distQ6 r2 => 12 + r2.toNat
  | .distQ7 r2 => 14 + r2.toNat
  | .distQ8 r2 => 16 + r2.toNat
  | .distQ9 r2 => 18 + r2.toNat
  | .distQ10 r2 => 20 + r2.toNat
  | .distQ11 r2 => 22 + r2.toNat
  | .distQ12 r2 => 24 + r2.toNat
  | .distQ13 r2 => 26 + r2.toNat
  | .distQ14 r2 => 28 + r2.toNat
  | .distQ15 r2 => 30 + r2.toNat
  | .distQ16 r2 => 32 + r2.toNat
  | .distInvalid ds => ds.toNat
  | .reset | .start | .cursorInit | .refill | .need _ | .peek _ | .drop _ | .read _ | .decode _ | .clear => 0
  | .addSymbol _ _ | .build _ | .initBoot | .parseTable _ | .copyRun | .softStop | .raise _ => 0

/-- The encoder: the bits of a stream element, and none for an OP row. For a RUN, SYM or DSYM row they are the
9 bits of the symbol, not of its code (30_encoding R101, R105). -/
def encode (i : Instr) : List Bool :=
  match i.format? with
  | some f => natToBits f.width i.value
  | none => []

/-- The bits of bytes in address order, most significant first (00_scope R7). -/
def bytesToBits (bytes : List Byte) : List Bool := bytes.flatMap fun b => natToBits 8 b.toNat

/-- The bytes of a bit string in address order, zero bits up to the byte boundary (30_encoding R106, `PAD`). -/
def bitsToBytes : Nat → List Bool → List Byte
  | 0, _ => []
  | k + 1, bits => BitVec.ofNat 8 (bitsToNat (bits.take 8 ++ List.replicate (8 - (bits.take 8).length) false))
      :: bitsToBytes k (bits.drop 8)

/-- Which format a bare word of the opcode table is read in. The table's rows of different formats share their
words (symbol 0 is a run code, a literal and a distance symbol), so this order is the model's: log entry 15. -/
def tableFormat (nbits w : Nat) : Option Format :=
  if nbits = 8 then some .run
  else if nbits = 16 then
    some (if w < 34 then .dsym else if w < 512 then .sym else if w < 4096 then .params else .count)
  else if nbits = 96 then some .hdr
  else none

/-- The value of an element whose bits the opcode table numbers from bit 0 of `w`: whole words for HDR, the
reader's fields for PARAMS, one number for the rest (log entry 15). -/
def tableValue (f : Format) (w : Nat) : Nat :=
  match f with
  | .hdr => ((w % 2 ^ 32) <<< 64) + (((w >>> 32) % 2 ^ 32) <<< 32) + (w >>> 64) % 2 ^ 32
  | .params => ((w % 16) <<< 8) + (((w >>> 4) % 16) <<< 4) + (w >>> 8) % 16
  | _ => w % 2 ^ f.width

/-- The instruction the decoder reads from a word of the opcode table. -/
def decodeTableWord (nbits w : Nat) : Option Instr :=
  match tableFormat nbits w with
  | none => none
  | some f =>
    match decode f (natToBits f.width (tableValue f w)) with
    | .ok (i, _) => some i
    | .error _ => none

end Sys2Proof
end

