-- ==== Sys2Proof/Machine/Fetch.lean ====
section
/-!
DEFINITION. What the machine does next: the host's action if one is due (10_state R26; 20_memory R75;
45_block_decoder R227), else the engine's, by its phase (45_block_decoder R225); and a stream that holds one
given instruction where the next one is fetched.
-/

namespace Sys2Proof.Machine

/-- What comes next. -/
inductive Next where
  /-- A control transfer of R225, a host write, or a wait for START or for a reset (60_exceptions R315; 70 R331): no
  instruction runs. -/
  | move (s : State)
  /-- An instruction, and the state it runs in. -/
  | run (i : Instr) (s : State)
  /-- No meaning. -/
  | refused (r : Refusal)
deriving DecidableEq, Repr

/-- The decoder's rejection as a refusal; no symbol of a table that BUILD wrote is rejected (10_state R28). -/
def refusalOf (r : Reject) : Refusal :=
  match r with
  | .notASymbol v => .notASymbol v
  | .tooFewBits => .notASymbol 0

/-! ## The engine -/

/-- The number the next `n` bits show, and the cursor after them; 0 where they cannot be had, since the
instruction's own reads then raise UnexpectedEndOfInput (40_bit_cursor R128). -/
def Cursor.look (m : Memory) (n : Nat) (c : Cursor) : Nat × Cursor :=
  match c.read m n with
  | .ok v c' => (v, c')
  | .raise _ c' => (0, c')

/-- The value of fields read one after another, the first in the highest place (20_memory R64). -/
def Cursor.lookFields (m : Memory) (c : Cursor) (v : Nat) : List Nat → Nat
  | [] => v
  | n :: ns => Cursor.lookFields m (c.look m n).2 (v <<< n + (c.look m n).1) ns

/-- The raw element at BITPOS (30_encoding R91 to R94). It is consumed by the instruction itself. -/
def rawNext (f : Format) (s : State) : Next :=
  match decodeValue f (s.bc.lookFields s.inMem 0 f.fields) with
  | .ok i => .run i s
  | .error r => .refused (refusalOf r)

/-- The Huffman-coded element at BITPOS: DECODE consumes its code and yields the symbol that selects the row
(30_encoding R105); `upd` says where the engine keeps the symbol. A hard error of DECODE is raised. -/
def codeNext (t : TableId) (f : Format) (upd : Nat → State → State) (s : State) : Next :=
  match (s.table t).decode s.inMem s.bc with
  | .ok v c =>
    match decodeValue f v with
    | .ok i => .run i (upd v { s with bc := c })
    | .error r => .refused (refusalOf r)
  | .raise e c => .run (.raise e) { s with bc := c }

/-- A table parse, element by element: COUNT, CLEAR, the runs, BUILD, and its result (44_table_parsing R190;
45_block_decoder R215, R216, R225). -/
def parseNext (t : WorkTable) (after : Phase) (s : State) : Next :=
  match s.seq with
  | .clear => .run .clear { s with tpRem := (s.tpN : Int) - 1, seq := .runs }
  | .runs =>
    if 0 ≤ s.tpRem then codeNext .bootT .run (fun _ s' => s') s
    else .run (.build t.id) { s with seq := .result }
  | .result => if (s.table t.id).empty then .run .softStop s else .move { s with phase := after, seq := .start }
  | .start | .lenExtra _ | .distExtra _ => rawNext .count s

/-- The block loop's test (45_block_decoder R214, R222). -/
def blockTest (s : State) : State :=
  if s.outPos < s.target then { s with phase := .parseSym, seq := .start } else s.finish

/-- The code loop's test (45_block_decoder R218). -/
def codeTest (s : State) : State :=
  { s with phase := if 0 < s.codesLeft ∧ s.outPos < s.target then .symbol else .blockTest }

/-- The symbol kept in `cp_sym`, and the phase it leads to (45_block_decoder R218, R220, R221, R225). -/
def keepSymbol (v : Nat) (s : State) : State :=
  { s with cpSym := v, phase := if v < Config.litLimit then .literal else .copyLen, seq := .start }

/-- The row of a symbol already in `cp_sym`. -/
def symbolNext (s : State) : Next :=
  match decodeValue .sym s.cpSym with
  | .ok i => .run i s
  | .error r => .refused (refusalOf r)

/-- What the engine does in each phase (45_block_decoder R225). -/
def engineNext (s : State) : Next :=
  match s.phase with
  | .resetInit => .run .initBoot s
  | .idle | .failed => .move s
  | .check => .run .cursorInit { s with outPos := 0, phase := .header }
  | .header => rawNext .hdr s
  | .blockTest => .move (blockTest s)
  | .parseSym => parseNext .symT .parseCopy s
  | .parseCopy => parseNext .copyT .blockParams s
  | .blockParams => rawNext .params s
  | .codeTest => .move (codeTest s)
  | .symbol => codeNext .symT .sym keepSymbol { s with codesLeft := s.codesLeft - 1 }
  | .literal => symbolNext s
  | .copyLen =>
    match s.seq with
    | .lenExtra n => rawNext (.lenExtra n) s
    | .start | .clear | .runs | .result | .distExtra _ => symbolNext s
  | .copyDist =>
    match s.seq with
    | .distExtra n => rawNext (.distExtra n) s
    | .start | .clear | .runs | .result | .lenExtra _ => codeNext .copyT .dsym (fun _ s' => s') s
  | .copyRun => .run .copyRun s

/-! ## The host -/

/-- A host write, which has no meaning while BUSY (20_memory R75). -/
def hostWrite (s s' : State) : Next := if s.hostMayWrite then .move s' else .refused .hostWriteWhileBusy

/-- One action of the environment (10_state R26; 45_block_decoder R210, R227; 70 R330, R332). -/
def hostNext (a : HostCmd) (s : State) : Next :=
  match a with
  | .argInLen v => hostWrite s { s with argInLen := v }
  | .argOutHint v => hostWrite s { s with argOutHint := v }
  | .argOutPresent v => hostWrite s { s with argOutPresent := v }
  | .cmdStart v => if v then .run .start s else .move s
  | .writeIn a v => hostWrite s { s with inMem := s.inMem.write a.toNat v }
  | .writeOut a v => hostWrite s { s with outMem := s.outMem.write a.toNat v }
  | .bootDict d => hostWrite s { s with bootDict := d }
  | .reset => .run .reset s
  | .tick => engineNext s

/-- What the machine does next: the host's oldest action, or the engine's where there is none. -/
def next (s : State) : Next :=
  match s.host with
  | [] => engineNext s
  | a :: rest => hostNext a { s with host := rest }

/-! ## A state about to fetch a given instruction -/

/-- The machine in the middle of a decode, at stream bit 0 of the bytes given, no host action due. -/
def State.atStream (s : State) (bytes : List Byte) : State :=
  { s with
    status := .busy
    bc := ⟨0, 0, 0, false, bytes.length⟩
    inMem := Memory.writeAll [] 0 bytes
    seq := .start
    host := [] }

/-- The machine about to fetch the element of format `f` whose value is `v`: a raw element stands in IN; a symbol
is the one symbol its table codes, with the code `0`, and IN holds zero bits; a run finds the builder cleared, as
COUNT's step leaves it (log entry 16). -/
def State.atElement (s : State) (f : Format) (v : Nat) : State :=
  match f with
  | .hdr => { s.atStream (bitsToBytes 12 (natToBits 96 v)) with phase := .header }
  | .count => { s.atStream (bitsToBytes 2 (natToBits 16 v)) with phase := .parseSym }
  | .params => { s.atStream (bitsToBytes 2 (natToBits 12 v)) with phase := .blockParams }
  | .lenExtra n =>
    { s.atStream (bitsToBytes 1 (natToBits (n.val + 1) v)) with phase := .copyLen, seq := .lenExtra n }
  | .distExtra n =>
    { s.atStream (bitsToBytes 2 (natToBits (n.val + 1) v)) with phase := .copyDist, seq := .distExtra n }
  | .run =>
    { s.atStream (List.replicate 4 0) with
      phase := .parseSym, seq := .runs, tpN := 285, tpRem := 284, builder := Builder.cleared, bootT := Table.single v }
  | .sym =>
    { s.atStream (List.replicate 4 0) with
      phase := .symbol, symT := Table.single v, codesLeft := 4096, target := 4096, outPos := 0 }
  | .dsym => { s.atStream (List.replicate 4 0) with phase := .copyDist, copyT := Table.single v }

/-- `State.atElement` for a word of the opcode table; a word of no format leaves the state as it is. -/
def State.atTableWord (s : State) (nbits w : Nat) : State :=
  match tableFormat nbits w with
  | none => s
  | some f => s.atElement f (tableValue f w)

end Sys2Proof.Machine
end

