-- ==== Sys2Proof/Machine/Step.lean ====
section
/-!
DEFINITION. One step of the machine.
-/

namespace Sys2Proof.Machine

/-- One step: the next action, and where it is an instruction, its meaning (00_scope R12; 45_block_decoder R225). -/
def step (s : State) : Host.Outcome State Fault Refusal :=
  match next s with
  | .move s' => .next s'
  | .run i s' => exec i s'
  | .refused r => .refused r

/-- The machine about to fetch the instruction whose opcode-table word is `w` (log entry 16). -/
def State.withFetchWord (s : State) (nbits w : Nat) : State := s.atTableWord nbits w

end Sys2Proof.Machine
end

