-- ==== Sys2Proof/Safety.lean ====
section
/-!
DEFINITION. What a sound state is, as the spec's invariants say it (10_state R22, R24, R30; 45_block_decoder R225),
and the words the statements use: the bits of a stream, the code of a symbol, what a table descriptor says.
-/

namespace Sys2Proof.Machine

/-! ## The stream -/

/-- The `n` bits of the stream from position `p`, first bit first, zeros after the input (40_bit_cursor R126). -/
def Memory.streamBits (m : Memory) (inLen p n : Nat) : List Bool :=
  (List.range n).map fun i => m.streamBit inLen (p + i)

/-- The cursor invariant (10_state R22): (a) the range of `valid`, (b) the accumulator holds the next `valid` bits
left-aligned over zeros, (c) the ghost is taken at the end of the input only; BITPOS is not negative. -/
def Cursor.Inv (m : Memory) (c : Cursor) : Prop :=
  c.valid ≤ 64 ∧ c.pos ≤ c.inLen ∧ (c.eoi = true → c.pos = c.inLen) ∧ c.valid ≤ 8 * c.pos + c.ghost ∧
  ∀ i < 64, c.acc.getMsbD i = (decide (i < c.valid) && m.streamBit c.inLen (c.bitpos + i))

/-! ## Codes -/

/-- The first code of length `L + 1`: `first[1] = 0`, `first[L+1] = (first[L] + count[L]) << 1`
(42_table_builder R165). -/
def Builder.firstCode (b : Builder) : Nat → Nat
  | 0 => 0
  | L + 1 => (b.firstCode L + b.count (L + 1)) <<< 1

/-- The code of the `i`-th symbol of length `L >= 1` (42_table_builder R165). -/
def Builder.code (b : Builder) (L i : Nat) : Nat := b.firstCode (L - 1) + i

/-- Every slot of a table names a symbol below 285 with a code of 1 to 8 bits, and every entry of `syms` is a
symbol (10_state R28). -/
def Table.Ok (t : Table) : Prop :=
  (∀ x ∈ t.syms, x < 285) ∧ ∀ e, some e ∈ t.hash → e.sym < 285 ∧ 1 ≤ e.len ∧ e.len ≤ 8

/-- The builder has its 33 lists, and they hold symbols (10_state R31). -/
def Builder.Ok (b : Builder) : Prop := b.lists.length = 33 ∧ ∀ l ∈ b.lists, ∀ x ∈ l, x < 285

/-! ## A table descriptor -/

/-- `k` run codes decoded one after another with BOOT_T, and the cursor after them (44_table_parsing R194);
`none` where a DECODE raises. -/
def runsAt (m : Memory) (boot : Table) : Nat → Cursor → Option (List Nat × Cursor)
  | 0, c => some ([], c)
  | k + 1, c =>
    match boot.decode m c with
    | .raise _ _ => none
    | .ok rc c' =>
      match runsAt m boot k c' with
      | none => none
      | some (rcs, c'') => some (rc :: rcs, c'')

/-- The lengths the runs give, slot after slot from the highest down; 0 means skipped (44_table_parsing R195,
R196). -/
def runLengths (rcs : List Nat) : List Nat := rcs.flatMap fun rc => List.replicate (rc / 32 + 1) (rc % 32)

/-- The symbols of length `L` among the slots `n - 1` down to 0 whose lengths are listed highest slot first, in add
order (44_table_parsing R196). -/
def slotsOfLength (n : Nat) (lens : List Nat) (L : Nat) : List Nat :=
  (List.range n).filterMap fun i => if lens.getD i 0 = L then some (n - 1 - i) else none

/-- The builder a descriptor of `n` slots leaves: the skipped slots in no list (44_table_parsing R195, R196). -/
def descriptorBuilder (n : Nat) (lens : List Nat) : Builder :=
  ⟨[] :: (List.range 32).map fun j => slotsOfLength n lens (j + 1)⟩

/-! ## Sound states -/

/-- The phases of a decode after its initialisation (45_block_decoder R225). -/
def Phase.decoding : Phase → Bool
  | .header | .blockTest | .parseSym | .parseCopy | .blockParams | .codeTest | .symbol | .literal | .copyLen
  | .copyDist | .copyRun => true
  | .resetInit | .idle | .check | .failed => false

/-- The phases of a decode (45_block_decoder R225). -/
def Phase.inDecode (p : Phase) : Bool := p.decoding || decide (p = .check)

/-- Both memories have their canonical form. -/
def State.MemoryInv (s : State) : Prop := s.inMem.wf = true ∧ s.outMem.wf = true

/-- STATUS, ERR, SOFT_EOF, OUT_LEN and the phase agree (10_state R27; 45_block_decoder R225; 60_exceptions R304,
R307; 70 R331). -/
def State.ControlInv (s : State) : Prop :=
  (s.status = .busy ↔ s.phase.inDecode = true) ∧ (s.status = .error ↔ s.err ≠ none) ∧
  s.err ≠ some .allocationFailure ∧ (s.softEof = true → s.status = .done) ∧ (s.outLen ≠ 0 → s.status = .done) ∧
  (s.phase = .failed → s.status = .error)

/-- During a decode the cursor meets 10_state R22 over the input that ARG_IN_LEN measures (40_bit_cursor R120). -/
def State.CursorInv (s : State) : Prop :=
  s.phase.decoding = true → s.bc.Inv s.inMem ∧ s.bc.inLen = s.argInLen.toNat

/-- The three tables and the builder hold symbols only (10_state R28, R31). -/
def State.TablesInv (s : State) : Prop := s.symT.Ok ∧ s.copyT.Ok ∧ s.bootT.Ok ∧ s.builder.Ok

/-- The engine's registers are in the ranges of 10_state R24, but for the lower ends that a register not yet
written misses (log entry 2). -/
def State.RangeInv (s : State) : Prop :=
  s.declared < 2 ^ 32 ∧ s.target < 2 ^ 32 ∧ s.outPos ≤ s.target ∧ (s.phase = .header → s.outPos = 0) ∧
  s.wsb ≤ 16 ∧ s.codesLeft ≤ 65536 ∧ s.tpN ≤ 65535 ∧ -9 ≤ s.tpRem ∧ s.tpRem ≤ 284 ∧
  (s.seq = .clear → s.tpN ≤ 285) ∧ s.cpSym ≤ 284 ∧ s.length ≤ 255 ∧ s.cpLen ≤ 271 ∧ s.distance ≤ 131071 ∧
  s.cpDist ≤ 131072

/-- The phases between the code loop's test and the end of an element (45_block_decoder R225). -/
def Phase.inCode : Phase → Bool
  | .symbol | .literal | .copyLen | .copyDist | .copyRun => true
  | .resetInit | .idle | .check | .failed | .header | .blockTest | .parseSym | .parseCopy | .blockParams
  | .codeTest => false

/-- What each phase may rely on: inside the code loop there is room for a byte and a code is left (45_block_decoder
R218); a copy reaches back into what is written (46_copy_instructions R271); a table in use has a code
(45_block_decoder R215); a run loop's builder holds slots above `tp_rem` only (44_table_parsing R193); `cp_sym` is a
literal in LITERAL and a length symbol in COPY_LEN (45_block_decoder R220, R221). -/
def State.FlowInv (s : State) : Prop :=
  (s.phase.inCode = true → s.outPos < s.target) ∧ (s.phase = .symbol → 0 < s.codesLeft) ∧
  (s.phase = .copyRun → 1 ≤ s.cpDist ∧ s.cpDist ≤ s.outPos) ∧
  ((s.phase.inCode = true ∨ s.phase = .parseCopy ∨ s.phase = .blockParams ∨ s.phase = .codeTest) →
    s.symT.empty = false) ∧
  ((s.phase.inCode = true ∨ s.phase = .blockParams ∨ s.phase = .codeTest) → s.copyT.empty = false) ∧
  ((s.phase = .parseSym ∨ s.phase = .parseCopy) → s.seq = .runs →
    ∀ l ∈ s.builder.lists, ∀ x ∈ l, s.tpRem < (x : Int)) ∧
  (s.phase = .literal → s.cpSym < 256) ∧ (s.phase = .copyLen → 256 ≤ s.cpSym)

/-- A sound state. -/
def State.Inv (s : State) : Prop :=
  s.MemoryInv ∧ s.ControlInv ∧ s.CursorInv ∧ s.TablesInv ∧ s.RangeInv ∧ s.FlowInv

/-- A dictionary from which the core leaves reset in IDLE (43_bootstrap_dictionary R181): lengths 0 to 32, symbols 0
to 284, no symbol twice, and lengths that do not over-subscribe the code space. -/
def DictOk (d : List (Int × Nat)) : Prop :=
  (∀ p ∈ d, p.2 ≤ 32 ∧ 0 ≤ p.1 ∧ p.1 < 285) ∧ (d.map Prod.fst).Nodup ∧
  ((d.filter fun p => p.2 ≠ 0).map fun p => 2 ^ (32 - p.2)).sum ≤ 2 ^ 32

/-- What the host reads after a decode: STATUS, ERR, OUT_LEN, SOFT_EOF, DECLARED, TARGET (10_state R27). -/
def State.hostView (s : State) : BitVec 2 × BitVec 4 × Word × Bool × Word × Word :=
  (s.status.code, s.errCode, s.outLen, s.softEof, s.statusDeclared, s.statusTarget)

end Sys2Proof.Machine
end

