-- ==== Sys2Proof/Certificates/Slice0/Obligations.lean ====
section
/-!
DEFINITION. The statements for the provers. Each docstring names the rules of spec/ it formalises. `exec i s = .next t`
with `t` written as `s` with some fields changed says both what the instruction does and its frame: every field not
named is as in `s`.
-/

open Sys2Proof Sys2Proof.Machine

/-! ## Encoding -/

/-- Words written out from the tables of 30_encoding R91 to R98 decode to the instructions they stand for. -/
def Obligations.DecodeReadsWrittenWords : Prop :=
  decode .hdr (bytesToBits [0x12, 0x34, 0x56, 0x78, 0x00, 0x00, 0x00, 0x04, 0x9A, 0xBC, 0xDE, 0xF0]) =
    .ok (.hdr 0x12345678 4 0x9ABCDEF0, []) ∧
  decode .count (bytesToBits [0x00, 0x42]) = .ok (.count 66, []) ∧
  decode .params [true, true, true, true, false, false, true, false, false, false, false, false] =
    .ok (.params 15 2 0, []) ∧
  decode .run (natToBits 9 0x22) = .ok (.runAssign 1 2, []) ∧
  decode .run (natToBits 9 0xE0) = .ok (.runSkip 7, []) ∧
  decode .sym (natToBits 9 0x41) = .ok (.lit 0x41, []) ∧
  decode .sym (natToBits 9 0x105) = .ok (.lenQ1 1, []) ∧
  decode .sym (natToBits 9 0x11C) = .ok (.lenMax, []) ∧
  decode .dsym (natToBits 9 33) = .ok (.distQ16 1, []) ∧
  decode .dsym (natToBits 9 34) = .ok (.distInvalid 34, [])

/-- 30_encoding R91 to R98, R105: decoding the encoding of a well-formed stream element gives it back, and the bits
after it, for every operand. -/
def Obligations.EncodeThenDecode : Prop :=
  ∀ (i : Instr) (f : Format) (rest : List Bool), i.wellFormed = true → i.format? = some f →
    decode f (encode i ++ rest) = .ok (i, rest)

/-- 30_encoding R91 to R98, R105: what decodes is well formed, is of the format asked for, and encodes to the very
bits it was read from: no bit of an element is dropped. -/
def Obligations.DecodeThenEncode : Prop :=
  ∀ (f : Format) (bits rest : List Bool) (i : Instr), decode f bits = .ok (i, rest) →
    i.wellFormed = true ∧ i.format? = some f ∧ encode i ++ rest = bits

/-! ## The step -/

/-- 00_scope section 9, 30_encoding R90, 45_block_decoder R225: where a raw element is due and the stream bits at
BITPOS decode to `i`, the step is `exec i` of the same state; where the stream has fewer bits than the element, the
step takes UnexpectedEndOfInput (40_bit_cursor R128). The positions inside a phase (`seq`) are the model's choice,
log entry 6. -/
def Obligations.StepRunsRawElement : Prop :=
  ∀ (s : State) (f : Format), s.host = [] → s.bc.Inv s.inMem →
    (f = .hdr ∧ s.phase = .header ∨
      f = .count ∧ (s.phase = .parseSym ∨ s.phase = .parseCopy) ∧ s.seq = .start ∨
      f = .params ∧ s.phase = .blockParams ∨
      (∃ n, f = .lenExtra n ∧ s.phase = .copyLen ∧ s.seq = .lenExtra n) ∨
      (∃ n, f = .distExtra n ∧ s.phase = .copyDist ∧ s.seq = .distExtra n)) →
    (∀ i, s.bc.bitpos + f.width ≤ s.bc.limit →
      decode f (s.inMem.streamBits s.bc.inLen s.bc.bitpos f.width) = .ok (i, []) → step s = exec i s) ∧
    (s.bc.limit < s.bc.bitpos + f.width →
      ∃ t, step s = .next t ∧ t.status = .error ∧ t.err = some .unexpectedEndOfInput)

/-- 30_encoding R105, 41_huffman_table R140, 45_block_decoder R218, R225, 44_table_parsing R194, 46_copy_instructions
R251: where a code is due and DECODE yields the symbol `v`, whose row is the well-formed instruction `i`, the step
is `exec i` of the state in which the code is consumed and, for a SYM_T symbol, counted and kept in `cp_sym`; where
DECODE raises `e`, the step takes `e`. That a code and its row are one step, and the position `start` inside the
phase, are the model's choice, log entry 6. -/
def Obligations.StepRunsCodedElement : Prop :=
  ∀ (s : State) (v : Nat) (c : Cursor) (i : Instr) (e : ErrKind), s.host = [] →
    (s.phase = .symbol →
      (s.symT.decode s.inMem s.bc = .ok v c → decodeValue .sym v = .ok i →
        step s = exec i { s with
          codesLeft := s.codesLeft - 1, bc := c, cpSym := v
          phase := if v < 0x100 then .literal else .copyLen, seq := .start }) ∧
      (s.symT.decode s.inMem s.bc = .raise e c →
        step s = .next (State.takeError e { s with codesLeft := s.codesLeft - 1, bc := c }))) ∧
    (s.phase = .copyDist → s.seq = .start →
      (s.copyT.decode s.inMem s.bc = .ok v c → decodeValue .dsym v = .ok i → step s = exec i { s with bc := c }) ∧
      (s.copyT.decode s.inMem s.bc = .raise e c → step s = .next (State.takeError e { s with bc := c }))) ∧
    ((s.phase = .parseSym ∨ s.phase = .parseCopy) → s.seq = .runs → 0 ≤ s.tpRem →
      (s.bootT.decode s.inMem s.bc = .ok v c → decodeValue .run v = .ok i → step s = exec i { s with bc := c }) ∧
      (s.bootT.decode s.inMem s.bc = .raise e c → step s = .next (State.takeError e { s with bc := c })))

/-- 45_block_decoder R214, R218, R222: the block loop's test goes to the next block or to DONE, and the code loop's
test goes to the next code or back to the block loop. That each test is a step of its own, and the position `start`
that the first sets inside the phase, are the model's choice, log entry 6. -/
def Obligations.LoopTestsChooseNextPhase : Prop :=
  ∀ s : State, s.host = [] →
    (s.phase = .blockTest → s.outPos < s.target → step s = .next { s with phase := .parseSym, seq := .start }) ∧
    (s.phase = .blockTest → s.target ≤ s.outPos →
      step s = .next { s with
        outLen := BitVec.ofNat 32 s.outPos, softEof := false, status := .done, phase := .idle }) ∧
    (s.phase = .codeTest → 0 < s.codesLeft → s.outPos < s.target → step s = .next { s with phase := .symbol }) ∧
    (s.phase = .codeTest → (s.codesLeft = 0 ∨ s.target ≤ s.outPos) → step s = .next { s with phase := .blockTest })

/-- 44_table_parsing R190, R193, R198; 45_block_decoder R215, R216, R225: after COUNT a table parse clears the builder
and sets `tp_rem`; after the runs it runs BUILD into its own table; an empty table is the soft stop, and a table
with a code leads to the second parse or to the block parameters. The positions `clear`, `runs` and `result` inside
the phase are the model's choice, log entry 6. -/
def Obligations.TableParseRunsItsElements : Prop :=
  ∀ s : State, s.host = [] →
    (∀ (t : WorkTable) (after : Phase),
      (s.phase = .parseSym ∧ t = .symT ∧ after = .parseCopy ∨
        s.phase = .parseCopy ∧ t = .copyT ∧ after = .blockParams) →
      (s.seq = .clear → step s = exec .clear { s with tpRem := (s.tpN : Int) - 1, seq := .runs }) ∧
      (s.seq = .runs → s.tpRem < 0 → step s = exec (.build t.id) { s with seq := .result }) ∧
      (s.seq = .result → (s.table t.id).empty = true → step s = exec .softStop s) ∧
      (s.seq = .result → (s.table t.id).empty = false → step s = .next { s with phase := after, seq := .start }))

/-- 45_block_decoder R211, R225: the phase CHECK initialises the cursor and `out_pos` and leads to the header; COPY_RUN
and INIT_BOOT run in their phases; IDLE and FAILED wait (60_exceptions R315, 70_reset_and_hazards R331). That START
makes the checks before CHECK, and that waiting is a step, is the model's choice, log entries 21 and 22. -/
def Obligations.OtherPhasesRunTheirOperation : Prop :=
  ∀ s : State, s.host = [] →
    (s.phase = .check →
      step s = .next { s with outPos := 0, phase := .header, bc := ⟨0, 0, 0, false, s.argInLen.toNat⟩ }) ∧
    (s.phase = .copyRun → step s = exec .copyRun s) ∧
    (s.phase = .resetInit → step s = exec .initBoot s) ∧
    ((s.phase = .idle ∨ s.phase = .failed) → step s = .next s)

/-- 10_state R26, 20_memory R75, 45_block_decoder R227: a host action is taken before the engine's step; a write is
refused while BUSY and otherwise changes its register or byte alone; CMD_START runs START on a 1 and does nothing on a
0; reset runs RESET; a tick is the step the engine takes with no action due, after which the actions behind the tick
are due. That actions form a list is the model's choice, log entry 7. -/
def Obligations.HostActionsAtTheStep : Prop :=
  ∀ (s : State) (rest : List HostCmd) (v : Word) (b : Bool) (x : Byte) (d : List (Int × Nat)),
    (s.host = .argInLen v :: rest →
      step s = if s.status = .busy then .refused .hostWriteWhileBusy
        else .next { s with host := rest, argInLen := v }) ∧
    (s.host = .argOutHint v :: rest →
      step s = if s.status = .busy then .refused .hostWriteWhileBusy
        else .next { s with host := rest, argOutHint := v }) ∧
    (s.host = .argOutPresent b :: rest →
      step s = if s.status = .busy then .refused .hostWriteWhileBusy
        else .next { s with host := rest, argOutPresent := b }) ∧
    (s.host = .writeIn v x :: rest →
      step s = if s.status = .busy then .refused .hostWriteWhileBusy
        else .next { s with host := rest, inMem := s.inMem.write v.toNat x }) ∧
    (s.host = .writeOut v x :: rest →
      step s = if s.status = .busy then .refused .hostWriteWhileBusy
        else .next { s with host := rest, outMem := s.outMem.write v.toNat x }) ∧
    (s.host = .bootDict d :: rest →
      step s = if s.status = .busy then .refused .hostWriteWhileBusy
        else .next { s with host := rest, bootDict := d }) ∧
    (s.host = .cmdStart true :: rest → step s = exec .start { s with host := rest }) ∧
    (s.host = .cmdStart false :: rest → step s = .next { s with host := rest }) ∧
    (s.host = .reset :: rest → step s = exec .reset { s with host := rest }) ∧
    (s.host = .tick :: rest →
      (∀ t, step { s with host := [] } = .next t → step s = .next { t with host := rest }) ∧
      (∀ f, step { s with host := [] } = .fault f → step s = .fault f) ∧
      ∀ r, step { s with host := [] } = .refused r → step s = .refused r)

/-! ## The bit cursor -/

/-- 40_bit_cursor R120: CURSOR_INIT zeroes the cursor and samples ARG_IN_LEN. -/
def Obligations.CursorInitZeroesCursor : Prop :=
  ∀ s : State, exec .cursorInit s =
      .next { s with bc := { pos := 0, acc := 0, valid := 0, eoi := false, inLen := s.argInLen.toNat } } ∧
    (Cursor.mk 0 0 0 false s.argInLen.toNat).bitpos = 0

/-- 40_bit_cursor R121: REFILL with room takes up to four bytes in address order below the bits held; at the end of
the input it takes the ghost once, and then raises UnexpectedEndOfInput. -/
def Obligations.RefillPullsBytesThenGhost : Prop :=
  ∀ s : State, s.bc.valid ≤ 32 →
    (∀ k, k = min 4 (s.bc.inLen - s.bc.pos) → s.bc.pos < s.bc.inLen →
      exec .refill s = .next { s with bc := { s.bc with
        acc := s.bc.acc ||| (BitVec.ofNat 64 (s.inMem.streamValue s.bc.inLen (8 * s.bc.pos) (8 * k))
          <<< (64 - s.bc.valid - 8 * k))
        valid := s.bc.valid + 8 * k
        pos := s.bc.pos + k } }) ∧
    (s.bc.inLen ≤ s.bc.pos → s.bc.eoi = false →
      exec .refill s = .next { s with bc := { s.bc with eoi := true, valid := s.bc.valid + 32 } }) ∧
    (s.bc.inLen ≤ s.bc.pos → s.bc.eoi = true → exec .refill s = .next (s.takeError .unexpectedEndOfInput))

/-- 40_bit_cursor R122, R123, R128: NEED(n) ends with `n` bits held, and PEEK(n) returns the next `n` stream bits as a
number, first bit most significant, both with BITPOS unchanged, where the input and the ghost have the bits; both
raise UnexpectedEndOfInput with BITPOS unchanged exactly where they do not. That `ret` keeps PEEK's value is the
model's choice, log entry 13. -/
def Obligations.NeedAndPeekKeepBitpos : Prop :=
  ∀ (s : State) (n : Nat), 1 ≤ n → n ≤ 32 → s.bc.Inv s.inMem →
    ∃ c, c.Inv s.inMem ∧ c.bitpos = s.bc.bitpos ∧ c.inLen = s.bc.inLen ∧
      (s.bc.bitpos + n ≤ 8 * s.bc.inLen + 32 → n ≤ c.valid ∧ exec (.need n) s = .next { s with bc := c } ∧
        exec (.peek n) s = .next { s with bc := c, ret := s.inMem.streamValue s.bc.inLen s.bc.bitpos n }) ∧
      (8 * s.bc.inLen + 32 < s.bc.bitpos + n →
        exec (.need n) s = .next (State.takeError .unexpectedEndOfInput { s with bc := c }) ∧
        exec (.peek n) s = .next (State.takeError .unexpectedEndOfInput { s with bc := c }))

/-- 40_bit_cursor R124, R125: DROP(n) advances BITPOS by `n`, and READ(n) is PEEK(n) then DROP(n); both raise, and
consume nothing, exactly where the input and the ghost have fewer bits. That `ret` keeps READ's value is the
model's choice, log entry 13. -/
def Obligations.DropAndReadConsume : Prop :=
  ∀ (s : State) (n : Nat), 1 ≤ n → n ≤ 32 → s.bc.Inv s.inMem →
    (∃ c, c.Inv s.inMem ∧ c.inLen = s.bc.inLen ∧
      (s.bc.bitpos + n ≤ 8 * s.bc.inLen + 32 →
        c.bitpos = s.bc.bitpos + n ∧ exec (.drop n) s = .next { s with bc := c }) ∧
      (8 * s.bc.inLen + 32 < s.bc.bitpos + n →
        c.bitpos = s.bc.bitpos ∧
          exec (.drop n) s = .next (State.takeError .unexpectedEndOfInput { s with bc := c }))) ∧
    ∃ c, c.Inv s.inMem ∧ c.inLen = s.bc.inLen ∧
      (s.bc.bitpos + n ≤ 8 * s.bc.inLen + 32 →
        c.bitpos = s.bc.bitpos + n ∧
          exec (.read n) s =
            .next { s with bc := c, ret := s.inMem.streamValue s.bc.inLen s.bc.bitpos n }) ∧
      (8 * s.bc.inLen + 32 < s.bc.bitpos + n →
        c.bitpos = s.bc.bitpos ∧
          exec (.read n) s = .next (State.takeError .unexpectedEndOfInput { s with bc := c }))

/-- 40_bit_cursor R129: NEED, PEEK and DROP of 0 or of more than 32 bits have no meaning; the model's choice for READ and
for REFILL against its precondition (R121), log entry 12. 20_memory R61: LIT with the output full, and COPY_RUN reaching
before the output's start with a byte to copy, would leave OUT, and fault; the model's choice, log entry 14. -/
def Obligations.StopsByName : Prop :=
  ∀ (s : State) (n : Nat) (byte : Byte),
    (n = 0 ∨ 32 < n →
      exec (.need n) s = .refused (.bitCount n) ∧ exec (.peek n) s = .refused (.bitCount n) ∧
      exec (.drop n) s = .refused (.bitCount n) ∧ exec (.read n) s = .refused (.bitCount n)) ∧
    (32 < s.bc.valid → exec .refill s = .refused .refillNoRoom) ∧
    (s.target ≤ s.outPos → exec (.lit byte) s = .fault .outputWrite) ∧
    (s.outPos < s.cpDist → 0 < s.cpLen → s.outPos < s.target → exec .copyRun s = .fault .outputRead)

/-! ## DECODE and the builder -/

/-- 41_huffman_table R142: where the next 8 bits index a present slot, DECODE returns its symbol and consumes its
recorded length. That `ret` keeps the symbol is the model's choice, log entry 13. -/
def Obligations.DecodeFastPath : Prop :=
  ∀ (s : State) (t : TableId) (e : HashSlot), s.bc.Inv s.inMem → (s.table t).empty = false →
    s.bc.bitpos + 8 ≤ 8 * s.bc.inLen + 32 →
    (s.table t).hash[s.inMem.streamValue s.bc.inLen s.bc.bitpos 8]? = some (some e) → 1 ≤ e.len → e.len ≤ 8 →
    ∃ c, exec (.decode t) s = .next { s with bc := c, ret := e.sym } ∧ c.Inv s.inMem ∧ c.inLen = s.bc.inLen ∧
      c.bitpos = s.bc.bitpos + e.len

/-- 41_huffman_table R143: where the slot is absent, DECODE takes the least length whose threshold is above the next 32
bits, returns the symbol counted back from that length's last one, and consumes that length. That `ret` keeps the
symbol is the model's choice, log entry 13. -/
def Obligations.DecodeSlowPath : Prop :=
  ∀ (s : State) (t : TableId) (w L thr end_ sym : Nat), s.bc.Inv s.inMem → (s.table t).empty = false →
    s.bc.bitpos + 32 ≤ 8 * s.bc.inLen + 32 →
    (s.table t).hash[s.inMem.streamValue s.bc.inLen s.bc.bitpos 8]? = some none →
    w = s.inMem.streamValue s.bc.inLen s.bc.bitpos 32 → 1 ≤ L → L ≤ 32 →
    (s.table t).thr[L]? = some thr → w < thr →
    (∀ j x, 1 ≤ j → j < L → (s.table t).thr[j]? = some x → x ≤ w) →
    (s.table t).ends[L]? = some end_ →
    (s.table t).syms[end_ - 1 - (thr - 1 - w) / 2 ^ (32 - L)]? = some sym →
    ∃ c, exec (.decode t) s = .next { s with bc := c, ret := sym } ∧ c.Inv s.inMem ∧ c.inLen = s.bc.inLen ∧
      c.bitpos = s.bc.bitpos + L

/-- 41_huffman_table R141, R142, R143, R144, R145: where DECODE raises: EmptyTable before any bit is examined;
UnexpectedEndOfInput where 8 bits, or 32 after a hash miss, are not there; CodeNotFound where no threshold is above the
next 32 bits. Nothing is consumed. -/
def Obligations.DecodeRaises : Prop :=
  ∀ (s : State) (t : TableId),
    ((s.table t).empty = true → exec (.decode t) s = .next (s.takeError .emptyTable)) ∧
    (s.bc.Inv s.inMem → (s.table t).empty = false →
      ∃ c, c.Inv s.inMem ∧ c.bitpos = s.bc.bitpos ∧ c.inLen = s.bc.inLen ∧
        (8 * s.bc.inLen + 32 < s.bc.bitpos + 8 →
          exec (.decode t) s = .next (State.takeError .unexpectedEndOfInput { s with bc := c })) ∧
        ((s.table t).hash[s.inMem.streamValue s.bc.inLen s.bc.bitpos 8]? = some none →
          s.bc.bitpos + 8 ≤ 8 * s.bc.inLen + 32 → 8 * s.bc.inLen + 32 < s.bc.bitpos + 32 →
          exec (.decode t) s = .next (State.takeError .unexpectedEndOfInput { s with bc := c })) ∧
        ((s.table t).hash[s.inMem.streamValue s.bc.inLen s.bc.bitpos 8]? = some none →
          s.bc.bitpos + 32 ≤ 8 * s.bc.inLen + 32 →
          (∀ L, 1 ≤ L → L ≤ 32 →
            (s.table t).thr.getD L 0 ≤ s.inMem.streamValue s.bc.inLen s.bc.bitpos 32) →
          exec (.decode t) s = .next (State.takeError .codeNotFound { s with bc := c })))

/-- 41_huffman_table R146, 42_table_builder R165, R171: DECODE with the table BUILD makes of a builder gives back every
coded symbol from its own code bits, and consumes that code, where the stream has the 8 bits that a code of up to 8
bits takes, or the 32 bits that a longer one takes (41_huffman_table R145). That `ret` keeps the symbol is the
model's choice, log entry 13. -/
def Obligations.DecodeInvertsBuild : Prop :=
  ∀ (s : State) (t : TableId) (b : Builder) (L i sym : Nat), s.bc.Inv s.inMem → b.Ok → b.build = some (s.table t) →
    1 ≤ L → L ≤ 32 → (b.list L)[i]? = some sym →
    s.inMem.streamValue s.bc.inLen s.bc.bitpos L = b.code L i →
    s.bc.bitpos + (if L ≤ 8 then 8 else 32) ≤ 8 * s.bc.inLen + 32 →
    ∃ c, exec (.decode t) s = .next { s with bc := c, ret := sym } ∧ c.Inv s.inMem ∧ c.inLen = s.bc.inLen ∧
      c.bitpos = s.bc.bitpos + L

/-- 42_table_builder R160: CLEAR empties all 33 lists. -/
def Obligations.ClearEmptiesLists : Prop :=
  ∀ s : State, exec .clear s = .next { s with builder := ⟨List.replicate 33 []⟩ }

/-- 42_table_builder R161, R162, R163: ADD_SYMBOL checks the length, then the symbol, and appends the symbol to the
list of its length, 0 included; on an error the builder is unchanged; a symbol already in some list has no meaning. -/
def Obligations.AddSymbolChecksThenAppends : Prop :=
  ∀ (s : State) (symbol : Int) (length : Nat),
    (32 < length → exec (.addSymbol symbol length) s = .next (s.takeError .invalidCodeLength)) ∧
    (length ≤ 32 → (symbol < 0 ∨ 285 ≤ symbol) →
      exec (.addSymbol symbol length) s = .next (s.takeError .invalidSymbol)) ∧
    (length ≤ 32 → 0 ≤ symbol → symbol < 285 → (∃ l ∈ s.builder.lists, symbol.toNat ∈ l) →
      exec (.addSymbol symbol length) s = .refused .duplicateSymbol) ∧
    (length ≤ 32 → 0 ≤ symbol → symbol < 285 → s.builder.lists.length = 33 →
      (∀ l ∈ s.builder.lists, symbol.toNat ∉ l) →
      ∃ b, exec (.addSymbol symbol length) s = .next { s with builder := b } ∧ b.lists.length = 33 ∧
        b.list length = s.builder.list length ++ [symbol.toNat] ∧
        ∀ L, L ≠ length → b.list L = s.builder.list L)

/-- 42_table_builder R166, R168, R169, R170; 10_state R28: BUILD writes the thresholds, the offsets and the symbols in
the order of length and add order, and marks the table empty exactly where no symbol has a length of 1 to 32; nothing
else of the machine changes. The table written is the one `Builder.build` answers, whose 256 hash slots
`BuildFillsHash` gives. Where the Kraft sum is above 1 it raises OversubscribedTable and writes no table. -/
def Obligations.BuildWritesTable : Prop :=
  ∀ (s : State) (t : TableId),
    (2 ^ 32 < ((List.range 32).map fun j => (s.builder.list (j + 1)).length * 2 ^ (31 - j)).sum →
      exec (.build t) s = .next (s.takeError .oversubscribedTable)) ∧
    (((List.range 32).map fun j => (s.builder.list (j + 1)).length * 2 ^ (31 - j)).sum ≤ 2 ^ 32 →
    ∃ T, exec (.build t) s = .next (s.setTable t T) ∧ s.builder.build = some T ∧
      T.syms = (List.range 32).flatMap (fun j => s.builder.list (j + 1)) ∧ T.nsyms = T.syms.length ∧
      (T.empty = true ↔ ∀ L, 1 ≤ L → L ≤ 32 → s.builder.list L = []) ∧
      T.thr.length = 33 ∧ T.ends.length = 33 ∧ T.hash.length = 256 ∧
      ∀ L, L ≤ 32 →
        T.thr.getD L 0 = ((List.range L).map fun j => (s.builder.list (j + 1)).length * 2 ^ (31 - j)).sum ∧
        T.ends.getD L 0 = ((List.range L).map fun j => (s.builder.list (j + 1)).length).sum)

/-- 42_table_builder R165, R167; 10_state R30 (e): in the table BUILD writes, a hash slot is present exactly where its
index begins with a code of 1 to 8 bits, and then it holds that code's symbol and length. -/
def Obligations.BuildFillsHash : Prop :=
  ∀ (b : Builder) (T : Table) (h : Nat) (e : HashSlot), b.build = some T → h < 256 →
    (T.hash[h]? = some (some e) ↔
      ∃ L i, 1 ≤ L ∧ L ≤ 8 ∧ (b.list L)[i]? = some e.sym ∧ e.len = L ∧ h / 2 ^ (8 - L) = b.code L i)

/-- 43_bootstrap_dictionary R180, R181: INIT_BOOT with a dictionary that meets R181 builds BOOT_T from the symbols of
each length in the dictionary's order, clears the builder, and changes nothing else but the phase RESET_INIT, which
ends (45_block_decoder R225). -/
def Obligations.InitBootBuildsBootTable : Prop :=
  ∀ s : State, DictOk s.bootDict →
    ∃ b : Builder, b.lists.length = 33 ∧
      (∀ L, L ≤ 32 → b.list L = (s.bootDict.filter fun p => p.2 = L).map fun p => p.1.toNat) ∧
      b.build = some b.table ∧
      exec .initBoot s = .next { s with
        bootT := b.table, builder := Builder.cleared, phase := if s.phase = .resetInit then .idle else s.phase }

/-- 70_reset_and_hazards R330, R331, 43_bootstrap_dictionary R180, 42_table_builder R163, R169: a dictionary whose
first bad pair has a length above 32, or a symbol outside 0 to 284, or whose good pairs over-subscribe the code
space, ends reset in FAILED with STATUS ERROR and that error's code, from RESET and from RESET_INIT; one whose
first bad pair repeats a symbol has no meaning. The refusal, and that INIT_BOOT alone leaves BOOT_T as it was, are
the model's choice, log entries 8 and 4. -/
def Obligations.BadDictionaryFailsReset : Prop :=
  ∀ (s : State) (d d' : List (Int × Nat)) (p : Int × Nat), s.bootDict = d ++ d' →
    (∀ q ∈ d, q.2 ≤ 32 ∧ 0 ≤ q.1 ∧ q.1 < 285) → (d.map Prod.fst).Nodup →
    (∀ e, (d'.head? = some p ∧ 32 < p.2 ∧ e = .invalidCodeLength ∨
        d'.head? = some p ∧ p.2 ≤ 32 ∧ (p.1 < 0 ∨ 285 ≤ p.1) ∧ e = .invalidSymbol ∨
        d' = [] ∧ 2 ^ 32 < ((d.filter fun q => q.2 ≠ 0).map fun q => 2 ^ (32 - q.2)).sum ∧ e = .oversubscribedTable) →
      (s.phase = .resetInit → ∃ t, exec .initBoot s = .next t ∧ t.status = .error ∧ t.phase = .failed ∧
        t.err = some e ∧ t.bootT = s.bootT) ∧
      ∃ t, exec .reset s = .next t ∧ t.status = .error ∧ t.phase = .failed ∧ t.err = some e) ∧
    (d'.head? = some p → p.2 ≤ 32 → 0 ≤ p.1 → p.1 < 285 → p.1 ∈ d.map Prod.fst →
      exec .initBoot s = .refused .duplicateSymbol ∧ exec .reset s = .refused .duplicateSymbol)

/-- 70_reset_and_hazards R330, 10_state R36: RESET with a dictionary that meets R181 zeroes the host's registers, the
cursor and the output registers, rebuilds BOOT_T, clears the builder and ends in IDLE; IN and OUT are unchanged. That
RESET is one step, and that it leaves BOOT_DICT and the host's actions as they are, is the model's choice (DEDUCED),
log entry 18. -/
def Obligations.ResetLeavesIdle : Prop :=
  ∀ s : State, DictOk s.bootDict →
    ∃ t, exec .reset s = .next t ∧ t.status = .idle ∧ t.err = none ∧ t.outLen = 0 ∧ t.softEof = false ∧
      t.statusDeclared = 0 ∧ t.statusTarget = 0 ∧ t.argInLen = 0 ∧ t.argOutHint = 0 ∧ t.argOutPresent = false ∧
      t.phase = .idle ∧ t.bc.pos = 0 ∧ t.bc.acc = 0 ∧ t.bc.valid = 0 ∧ t.bc.eoi = false ∧ t.declared = 0 ∧
      t.target = 0 ∧ t.outPos = 0 ∧ t.builder.lists = List.replicate 33 [] ∧
      initBoot s.bootDict = .ok t.bootT ∧
      t.inMem = s.inMem ∧ t.outMem = s.outMem ∧ t.bootDict = s.bootDict ∧ t.host = s.host

/-! ## The table parse -/

/-- 44_table_parsing R191, R192: COUNT consumes 16 bits and stores `N`; `N` above 285 raises TooManySymbols after the
count is consumed; without 16 bits it raises UnexpectedEndOfInput. The position `clear` inside the phase is the
model's, log entry 6. -/
def Obligations.CountStoresOrRaises : Prop :=
  ∀ (s : State) (n : BitVec 16), s.bc.Inv s.inMem →
    ∃ c, c.Inv s.inMem ∧ c.inLen = s.bc.inLen ∧
      (s.bc.bitpos + 16 ≤ 8 * s.bc.inLen + 32 → c.bitpos = s.bc.bitpos + 16 ∧
        (n.toNat ≤ 285 → exec (.count n) s = .next { s with bc := c, tpN := n.toNat, seq := .clear }) ∧
        (285 < n.toNat →
          exec (.count n) s = .next (State.takeError .tooManySymbols { s with bc := c, tpN := n.toNat }))) ∧
      (8 * s.bc.inLen + 32 < s.bc.bitpos + 16 → c.bitpos = s.bc.bitpos ∧
        exec (.count n) s = .next (State.takeError .unexpectedEndOfInput { s with bc := c }))

/-- 44_table_parsing R195: RUN_SKIP lowers `tp_rem` by the repeat count and does nothing else. -/
def Obligations.RunSkipLowersRemaining : Prop :=
  ∀ (s : State) (rep : BitVec 4), exec (.runSkip rep) s = .next { s with tpRem := s.tpRem - (rep.toNat + 1) }

/-- 44_table_parsing R196: RUN_ASSIGN with slots enough gives its length to the highest slots left, in descending
order, appended in that order to the list of its length. -/
def Obligations.RunAssignAppendsDescending : Prop :=
  ∀ (s : State) (rep : BitVec 4) (len : BitVec 5), len ≠ 0 → s.builder.lists.length = 33 → s.tpRem ≤ 284 →
    (rep.toNat : Int) ≤ s.tpRem → (∀ l ∈ s.builder.lists, ∀ x ∈ l, s.tpRem < (x : Int)) →
    ∃ b, exec (.runAssign rep len) s = .next { s with builder := b, tpRem := s.tpRem - (rep.toNat + 1) } ∧
      b.lists.length = 33 ∧
      b.list len.toNat = s.builder.list len.toNat ++
        (List.range (rep.toNat + 1)).map (fun (i : Nat) => (s.tpRem - (i : Int)).toNat) ∧
      ∀ L, L ≠ len.toNat → b.list L = s.builder.list L

/-- 44_table_parsing R197: an assigning run that overruns slot 0 assigns the slots down to 0, then raises InvalidSymbol
at index -1; no table is built. -/
def Obligations.RunAssignOverrunRaises : Prop :=
  ∀ (s : State) (rep : BitVec 4) (len : BitVec 5), len ≠ 0 → s.builder.lists.length = 33 → 0 ≤ s.tpRem →
    s.tpRem ≤ 284 → s.tpRem < (rep.toNat : Int) → (∀ l ∈ s.builder.lists, ∀ x ∈ l, s.tpRem < (x : Int)) →
    ∃ b, exec (.runAssign rep len) s =
        .next (State.takeError .invalidSymbol { s with builder := b, tpRem := -1 }) ∧
      b.lists.length = 33 ∧
      b.list len.toNat = s.builder.list len.toNat ++
        (List.range (s.tpRem.toNat + 1)).map (fun (i : Nat) => (s.tpRem - (i : Int)).toNat) ∧
      ∀ L, L ≠ len.toNat → b.list L = s.builder.list L

/-- 44_table_parsing R190 to R198, R199: PARSE_TABLE on a descriptor of `N <= 285` slots whose `k` runs cover the slots
exactly when the last is read, with no assigning run past slot 0 and no over-subscribed lengths: the table is BUILD
of the slots' lengths, BITPOS is where the last run ends, and the result is 1 exactly where some slot has a length.
That `ret` keeps the result is the model's choice, log entry 13. -/
def Obligations.ParseTableReadsDescriptor : Prop :=
  ∀ (s : State) (t : WorkTable) (n k : Nat) (rcs lens : List Nat) (c c' : Cursor), s.bc.Inv s.inMem → s.bootT.Ok →
    s.bc.bitpos + 16 ≤ 8 * s.bc.inLen + 32 → n = s.inMem.streamValue s.bc.inLen s.bc.bitpos 16 → n ≤ 285 →
    s.bc.read s.inMem 16 = .ok n c → runsAt s.inMem s.bootT k c = some (rcs, c') → lens = runLengths rcs →
    n ≤ lens.length → (∀ j, j < k → (runLengths (rcs.take j)).length < n) →
    (∀ i x, n ≤ i → lens[i]? = some x → x = 0) → (descriptorBuilder n lens).kraft 32 ≤ 2 ^ 32 →
    ∃ r, exec (.parseTable t) s =
        .next { (s.setTable t.id (descriptorBuilder n lens).table) with
          bc := c', tpN := n, tpRem := (n : Int) - 1 - lens.length, builder := descriptorBuilder n lens, ret := r } ∧
      (r = 0 ∨ r = 1) ∧ (r = 1 ↔ ∃ x ∈ lens, x ≠ 0)

/-- 44_table_parsing R190, 45_block_decoder R215, R225, 00_scope R12: the steps of a table parse together do what
PARSE_TABLE does in one: the same error, the soft stop where the result is 0, the next phase where it is 1. The cut
into steps is the model's choice, log entry 6. -/
def Obligations.ParseStepsRefineParseTable : Prop :=
  ∀ (s : State) (t : WorkTable) (after : Phase), s.host = [] → s.bc.Inv s.inMem → s.bootT.Ok →
    s.seq = .start →
    (s.phase = .parseSym ∧ t = .symT ∧ after = .parseCopy ∨
      s.phase = .parseCopy ∧ t = .copyT ∧ after = .blockParams) →
    ∃ k q s', Sys2Proof.core.run k s = .next s' ∧
      (∀ u, s.parseTable t = .ok 1 u → s' = { u with phase := after, seq := .start }) ∧
      (∀ u, s.parseTable t = .ok 0 u → s' = State.softStop { u with seq := q }) ∧
      (∀ e u, s.parseTable t = .raise e u → s' = State.takeError e { u with seq := q })

/-! ## The engine -/

/-- 45_block_decoder R210, R225, R227, 60_exceptions R292, R293, R306: an accepted START makes the core BUSY with its
status registers cleared and goes to CHECK, or ends at once with NullOrEmptyInput, checked first, or
InvalidArgumentCombination. START while BUSY, in RESET_INIT or in FAILED is ignored. That START itself makes the checks
(45_block_decoder R225 has them in CHECK), and that only a START that passes enters CHECK, is the model's choice
(DEDUCED), log entry 22; the position `start` inside the phase is the model's, log entry 6. -/
def Obligations.StartChecksArguments : Prop :=
  ∀ s : State,
    ((s.status = .busy ∨ s.phase = .resetInit ∨ s.phase = .failed) → exec .start s = .next s) ∧
    (s.status ≠ .busy → s.phase ≠ .resetInit → s.phase ≠ .failed →
    (s.argInLen ≠ 0 → (s.argOutPresent = false ∨ s.argOutHint ≠ 0) →
      exec .start s = .next { s with
        status := .busy, err := none, outLen := 0, softEof := false, statusDeclared := 0, statusTarget := 0
        phase := .check, seq := .start }) ∧
    (s.argInLen = 0 →
      exec .start s = .next { s with
        status := .error, err := some .nullOrEmptyInput, outLen := 0, softEof := false
        statusDeclared := 0, statusTarget := 0, phase := .idle }) ∧
    (s.argInLen ≠ 0 → s.argOutPresent = true → s.argOutHint = 0 →
      exec .start s = .next { s with
        status := .error, err := some .invalidArgumentCombination, outLen := 0, softEof := false
        statusDeclared := 0, statusTarget := 0, phase := .idle }))

/-- 45_block_decoder R212, R213, 60_exceptions R300: with 96 bits there HDR consumes them and sets `declared`, DECLARED,
`target` and TARGET from its second field alone, whatever the first and third hold, and the hint; without them it
raises UnexpectedEndOfInput at the first field it cannot complete, and neither DECLARED nor TARGET is written. -/
def Obligations.HdrSetsSizes : Prop :=
  ∀ (s : State) (magic size reserved : Word), s.bc.Inv s.inMem →
    (s.bc.bitpos + 96 ≤ 8 * s.bc.inLen + 32 →
      ∃ c T, exec (.hdr magic size reserved) s = .next { s with
          bc := c, declared := size.toNat, statusDeclared := size, target := T, statusTarget := BitVec.ofNat 32 T
          phase := .blockTest } ∧
        T = (if s.argOutHint = 0 then size.toNat else min size.toNat s.argOutHint.toNat) ∧
        c.Inv s.inMem ∧ c.inLen = s.bc.inLen ∧ c.bitpos = s.bc.bitpos + 96) ∧
    (8 * s.bc.inLen + 32 < s.bc.bitpos + 96 →
      ∃ c dcl, exec (.hdr magic size reserved) s =
          .next (State.takeError .unexpectedEndOfInput { s with bc := c, declared := dcl }) ∧
        dcl = (if 8 * s.bc.inLen + 32 < s.bc.bitpos + 64 then s.declared else size.toNat) ∧
        c.Inv s.inMem ∧ c.inLen = s.bc.inLen ∧
        c.bitpos = s.bc.bitpos + 32 * ((8 * s.bc.inLen + 32 - s.bc.bitpos) / 32))

/-- 45_block_decoder R217, 60_exceptions R300: with 12 bits there PARAMS consumes them and sets `wsb` and `codes_left`,
whatever the reserved field holds; without them it raises UnexpectedEndOfInput at the first field it cannot complete,
and `codes_left` is not written. -/
def Obligations.ParamsSetsBlock : Prop :=
  ∀ (s : State) (rsv sv m : BitVec 4), s.bc.Inv s.inMem →
    (s.bc.bitpos + 12 ≤ 8 * s.bc.inLen + 32 →
      ∃ c, exec (.params rsv sv m) s = .next { s with
          bc := c, wsb := sv.toNat + 1, codesLeft := (m.toNat + 1) * 4096, phase := .codeTest } ∧
        c.Inv s.inMem ∧ c.inLen = s.bc.inLen ∧ c.bitpos = s.bc.bitpos + 12) ∧
    (8 * s.bc.inLen + 32 < s.bc.bitpos + 12 →
      ∃ c w, exec (.params rsv sv m) s =
          .next (State.takeError .unexpectedEndOfInput { s with bc := c, wsb := w }) ∧
        w = (if 8 * s.bc.inLen + 32 < s.bc.bitpos + 8 then s.wsb else sv.toNat + 1) ∧
        c.Inv s.inMem ∧ c.inLen = s.bc.inLen ∧
        c.bitpos = s.bc.bitpos + 4 * ((8 * s.bc.inLen + 32 - s.bc.bitpos) / 4))

/-- 45_block_decoder R220, 20_memory R61: LIT writes its byte at `out_pos` and advances it; every other byte of OUT reads
as before. -/
def Obligations.LitWritesOneByte : Prop :=
  ∀ (s : State) (byte : Byte), s.outPos < s.target → s.outMem.wf = true →
    ∃ m, exec (.lit byte) s = .next { s with outMem := m, outPos := s.outPos + 1, phase := .codeTest } ∧
      m.wf = true ∧ m.read s.outPos = byte ∧ ∀ a, a ≠ s.outPos → m.read a = s.outMem.read a

/-- 46_copy_instructions R241, R242, R248, R250; 45_block_decoder R225: LEN_Q0, LEN_Q1 and LEN_MAX read no extra bits:
the length is `ls`, `ls` and 255, and the distance comes next. The position `start` inside the phase is the model's
choice, log entry 6. -/
def Obligations.LenWithoutExtraBits : Prop :=
  ∀ (s : State) (r : BitVec 2),
    exec (.lenQ0 r) s = .next { s with
      length := r.toNat, cpLen := r.toNat + s.wsb, phase := .copyDist, seq := .start } ∧
    exec (.lenQ1 r) s = .next { s with
      length := 4 + r.toNat, cpLen := 4 + r.toNat + s.wsb, phase := .copyDist, seq := .start } ∧
    exec .lenMax s = .next { s with length := 255, cpLen := 255 + s.wsb, phase := .copyDist, seq := .start }

/-- 46_copy_instructions R243 to R247, first half: LEN_Q2 to LEN_Q6 set the base, and the extra field comes next. That
the field is an element of its own, which `seq` says is due, is the model's choice, log entries 20 and 6. -/
def Obligations.LenBasesAwaitExtraBits : Prop :=
  ∀ (s : State) (r : BitVec 2),
    exec (.lenQ2 r) s = .next { s with length := 2 * (4 + r.toNat), seq := .lenExtra 0 } ∧
    exec (.lenQ3 r) s = .next { s with length := 4 * (4 + r.toNat), seq := .lenExtra 1 } ∧
    exec (.lenQ4 r) s = .next { s with length := 8 * (4 + r.toNat), seq := .lenExtra 2 } ∧
    exec (.lenQ5 r) s = .next { s with length := 16 * (4 + r.toNat), seq := .lenExtra 3 } ∧
    exec (.lenQ6 r) s = .next { s with length := 32 * (4 + r.toNat), seq := .lenExtra 4 }

/-- 46_copy_instructions R243 to R247, R250; 00_scope R11; 60_exceptions R300: with its bits there, LEN_EXTRA_k
consumes `k` bits, sets them in the base (for a base that is a multiple of `2^k`, adds them), sets `cp_len` and
leads to the distance; without them it raises UnexpectedEndOfInput and consumes nothing. That the field is an
element of its own, and the position `start` inside the next phase, are the model's choice, log entries 20 and 6. -/
def Obligations.LenExtraCompletesLength : Prop :=
  ∀ (s : State) (w x b : Nat) (i : Instr),
    ((∃ v : BitVec 1, w = 1 ∧ x = v.toNat ∧ i = .lenExtra1 v) ∨ (∃ v : BitVec 2, w = 2 ∧ x = v.toNat ∧ i = .lenExtra2 v) ∨
      (∃ v : BitVec 3, w = 3 ∧ x = v.toNat ∧ i = .lenExtra3 v) ∨ (∃ v : BitVec 4, w = 4 ∧ x = v.toNat ∧ i = .lenExtra4 v) ∨
      (∃ v : BitVec 5, w = 5 ∧ x = v.toNat ∧ i = .lenExtra5 v)) →
    s.bc.Inv s.inMem →
    ∃ c, c.Inv s.inMem ∧ c.inLen = s.bc.inLen ∧ (s.length = b * 2 ^ w → s.length ||| x = b * 2 ^ w + x) ∧
      (s.bc.bitpos + w ≤ 8 * s.bc.inLen + 32 → c.bitpos = s.bc.bitpos + w ∧
        exec i s = .next { s with
          bc := c, length := s.length ||| x, cpLen := (s.length ||| x) + s.wsb, phase := .copyDist, seq := .start }) ∧
      (8 * s.bc.inLen + 32 < s.bc.bitpos + w → c.bitpos = s.bc.bitpos ∧
        exec i s = .next (State.takeError .unexpectedEndOfInput { s with bc := c }))

/-- 46_copy_instructions R252, R253, R270, R271, 60_exceptions R303: DIST_Q0 and DIST_Q1 read no extra bits: the distance
is `ds`, `cp_dist` one more, and the copy comes next where it is in range; where it reaches before the output's start
they raise CopyOutOfRange (R271; R252 and R253 list no error of their own), and OUT is untouched. The position `start`
inside the phase is the model's choice, log entry 6. -/
def Obligations.DistWithoutExtraBits : Prop :=
  ∀ (s : State) (r2 : BitVec 1),
    (r2.toNat + 1 ≤ s.outPos →
      exec (.distQ0 r2) s = .next { s with
        distance := r2.toNat, cpDist := r2.toNat + 1, phase := .copyRun, seq := .start }) ∧
    (s.outPos < r2.toNat + 1 →
      exec (.distQ0 r2) s = .next (State.takeError .copyOutOfRange
        { s with distance := r2.toNat, cpDist := r2.toNat + 1 })) ∧
    (r2.toNat + 3 ≤ s.outPos →
      exec (.distQ1 r2) s = .next { s with
        distance := 2 + r2.toNat, cpDist := r2.toNat + 3, phase := .copyRun, seq := .start }) ∧
    (s.outPos < r2.toNat + 3 →
      exec (.distQ1 r2) s = .next (State.takeError .copyOutOfRange
        { s with distance := 2 + r2.toNat, cpDist := r2.toNat + 3 }))

/-- 46_copy_instructions R254 to R268, first half: DIST_Q2 to DIST_Q16 set the base, and the extra field comes next.
That the field is an element of its own, which `seq` says is due, is the model's choice, log entries 20 and 6. -/
def Obligations.DistBasesAwaitExtraBits : Prop :=
  ∀ (s : State) (r2 : BitVec 1),
    exec (.distQ2 r2) s = .next { s with distance := 2 * (2 + r2.toNat), seq := .distExtra 0 } ∧
    exec (.distQ3 r2) s = .next { s with distance := 4 * (2 + r2.toNat), seq := .distExtra 1 } ∧
    exec (.distQ4 r2) s = .next { s with distance := 8 * (2 + r2.toNat), seq := .distExtra 2 } ∧
    exec (.distQ5 r2) s = .next { s with distance := 16 * (2 + r2.toNat), seq := .distExtra 3 } ∧
    exec (.distQ6 r2) s = .next { s with distance := 32 * (2 + r2.toNat), seq := .distExtra 4 } ∧
    exec (.distQ7 r2) s = .next { s with distance := 64 * (2 + r2.toNat), seq := .distExtra 5 } ∧
    exec (.distQ8 r2) s = .next { s with distance := 128 * (2 + r2.toNat), seq := .distExtra 6 } ∧
    exec (.distQ9 r2) s = .next { s with distance := 256 * (2 + r2.toNat), seq := .distExtra 7 } ∧
    exec (.distQ10 r2) s = .next { s with distance := 512 * (2 + r2.toNat), seq := .distExtra 8 } ∧
    exec (.distQ11 r2) s = .next { s with distance := 1024 * (2 + r2.toNat), seq := .distExtra 9 } ∧
    exec (.distQ12 r2) s = .next { s with distance := 2048 * (2 + r2.toNat), seq := .distExtra 10 } ∧
    exec (.distQ13 r2) s = .next { s with distance := 4096 * (2 + r2.toNat), seq := .distExtra 11 } ∧
    exec (.distQ14 r2) s = .next { s with distance := 8192 * (2 + r2.toNat), seq := .distExtra 12 } ∧
    exec (.distQ15 r2) s = .next { s with distance := 16384 * (2 + r2.toNat), seq := .distExtra 13 } ∧
    exec (.distQ16 r2) s = .next { s with distance := 32768 * (2 + r2.toNat), seq := .distExtra 14 }

/-- 46_copy_instructions R254 to R268, R270, R271; 00_scope R11; 60_exceptions R300: with its bits there, DIST_EXTRA_k
consumes `k` bits, sets them in the base (for a base that is a multiple of `2^k`, adds them), sets `cp_dist` and
leads to the copy where it is in range, else raises CopyOutOfRange; without them it raises UnexpectedEndOfInput and
consumes nothing. That the field is an element of its own, and the position `start` inside the next phase, are the
model's choice, log entries 20 and 6. -/
def Obligations.DistExtraCompletesDistance : Prop :=
  ∀ (s : State) (w x b : Nat) (i : Instr),
    ((∃ v : BitVec 1, w = 1 ∧ x = v.toNat ∧ i = .distExtra1 v) ∨ (∃ v : BitVec 2, w = 2 ∧ x = v.toNat ∧ i = .distExtra2 v) ∨
      (∃ v : BitVec 3, w = 3 ∧ x = v.toNat ∧ i = .distExtra3 v) ∨ (∃ v : BitVec 4, w = 4 ∧ x = v.toNat ∧ i = .distExtra4 v) ∨
      (∃ v : BitVec 5, w = 5 ∧ x = v.toNat ∧ i = .distExtra5 v) ∨ (∃ v : BitVec 6, w = 6 ∧ x = v.toNat ∧ i = .distExtra6 v) ∨
      (∃ v : BitVec 7, w = 7 ∧ x = v.toNat ∧ i = .distExtra7 v) ∨ (∃ v : BitVec 8, w = 8 ∧ x = v.toNat ∧ i = .distExtra8 v) ∨
      (∃ v : BitVec 9, w = 9 ∧ x = v.toNat ∧ i = .distExtra9 v) ∨
      (∃ v : BitVec 10, w = 10 ∧ x = v.toNat ∧ i = .distExtra10 v) ∨
      (∃ v : BitVec 11, w = 11 ∧ x = v.toNat ∧ i = .distExtra11 v) ∨
      (∃ v : BitVec 12, w = 12 ∧ x = v.toNat ∧ i = .distExtra12 v) ∨
      (∃ v : BitVec 13, w = 13 ∧ x = v.toNat ∧ i = .distExtra13 v) ∨
      (∃ v : BitVec 14, w = 14 ∧ x = v.toNat ∧ i = .distExtra14 v) ∨
      (∃ v : BitVec 15, w = 15 ∧ x = v.toNat ∧ i = .distExtra15 v)) →
    s.bc.Inv s.inMem →
    ∃ c, c.Inv s.inMem ∧ c.inLen = s.bc.inLen ∧ (s.distance = b * 2 ^ w → s.distance ||| x = b * 2 ^ w + x) ∧
      (s.bc.bitpos + w ≤ 8 * s.bc.inLen + 32 → c.bitpos = s.bc.bitpos + w ∧
        ((s.distance ||| x) + 1 ≤ s.outPos → exec i s = .next { s with
          bc := c, distance := s.distance ||| x, cpDist := (s.distance ||| x) + 1, phase := .copyRun, seq := .start }) ∧
        (s.outPos < (s.distance ||| x) + 1 → exec i s = .next (State.takeError .copyOutOfRange
          { s with bc := c, distance := s.distance ||| x, cpDist := (s.distance ||| x) + 1 }))) ∧
      (8 * s.bc.inLen + 32 < s.bc.bitpos + w → c.bitpos = s.bc.bitpos ∧
        exec i s = .next (State.takeError .unexpectedEndOfInput { s with bc := c }))

/-- 46_copy_instructions R249, R269; 60_exceptions R298, R299: LEN_INVALID and DIST_INVALID raise their errors, and
change nothing but what taking an error changes. -/
def Obligations.InvalidSymbolsRaise : Prop :=
  ∀ (s : State) (sym ds : SymBits),
    exec (.lenInvalid sym) s = .next (s.takeError .invalidLengthCode) ∧
    exec (.distInvalid ds) s = .next (s.takeError .invalidDistanceCode)

/-- 46_copy_instructions R272, R273, R274: COPY_RUN writes `min(cp_len, target - out_pos)` bytes, byte `j` of them the
one `cp_dist` before it, so that the last `cp_dist` bytes repeat; every other byte of OUT reads as before. -/
def Obligations.CopyRunRepeatsPeriodically : Prop :=
  ∀ (s : State) (k : Nat), s.outMem.wf = true → 1 ≤ s.cpDist → s.cpDist ≤ s.outPos → s.outPos ≤ s.target →
    k = min s.cpLen (s.target - s.outPos) →
    ∃ m, exec .copyRun s = .next { s with outMem := m, outPos := s.outPos + k, phase := .codeTest } ∧
      m.wf = true ∧
      (∀ j, j < k → m.read (s.outPos + j) = m.read (s.outPos + j - s.cpDist)) ∧
      (∀ j, j < k → m.read (s.outPos + j) = s.outMem.read (s.outPos - s.cpDist + j % s.cpDist)) ∧
      ∀ a, (a < s.outPos ∨ s.outPos + k ≤ a) → m.read a = s.outMem.read a

/-- 60_exceptions R305: SOFT_STOP ends the decode as DONE with SOFT_EOF and the bytes written so far. -/
def Obligations.SoftStopEndsDone : Prop :=
  ∀ s : State, exec .softStop s =
    .next { s with outLen := BitVec.ofNat 32 s.outPos, softEof := true, status := .done, phase := .idle }

/-- 60_exceptions R307, R309; 70_reset_and_hazards R331: RAISE sets ERR, clears OUT_LEN and SOFT_EOF, makes STATUS
ERROR, and goes to IDLE, or to FAILED during reset; everything else is frozen. -/
def Obligations.RaiseTakesTheError : Prop :=
  ∀ (s : State) (e : ErrKind), exec (.raise e) s = .next { s with
    err := some e, outLen := 0, softEof := false, status := .error
    phase := if s.phase = .resetInit then .failed else .idle }

/-- 60_exceptions R291, 10_state R27: the codes the host reads in STATUS and in ERR: STATUS is 0 for IDLE, 1 for BUSY, 2
for DONE and 3 for ERROR; ERR is 0 where there is no error, else the code of its kind, 1 to 13. -/
def Obligations.ErrorCodesAsListed : Prop :=
  [ErrKind.nullOrEmptyInput, .invalidArgumentCombination, .tooManySymbols, .invalidCodeLength, .invalidSymbol,
    .emptyTable, .invalidLengthCode, .invalidDistanceCode, .unexpectedEndOfInput, .allocationFailure,
    .oversubscribedTable, .codeNotFound, .copyOutOfRange].map errKindCode =
      [1, 2, 3, 4, 5, 6, 7, 8, 9, 10, 11, 12, 13] ∧
  [Status.idle, .busy, .done, .error].map Status.code = [0, 1, 2, 3] ∧
  ∀ s : State, (s.err = none → s.errCode = 0) ∧ ∀ e, s.err = some e → s.errCode = errKindCode e

/-! ## The machine as a whole -/

/-- 10_state R36, 70_reset_and_hazards R330, R331: the state after reset is sound, whatever the dictionary. The values
of what R36 leaves unspecified are the model's, log entries 2 to 4. -/
def Obligations.ResetStateIsSound : Prop := ∀ d : List (Int × Nat), (State.resetWith d).Inv

/-- The memory rules of the model (log entry 5): every step keeps both memories canonical. -/
def Obligations.StepKeepsMemoryCanonical : Prop := ∀ s t : State, s.MemoryInv → step s = .next t → t.MemoryInv

/-- 10_state R27, 45_block_decoder R225, 60_exceptions R304, R307, 70_reset_and_hazards R331: every step keeps STATUS,
ERR, SOFT_EOF, OUT_LEN and the phase in agreement, and never reports AllocationFailure. -/
def Obligations.StepKeepsControl : Prop := ∀ s t : State, s.ControlInv → step s = .next t → t.ControlInv

/-- 10_state R22: every step keeps the cursor invariant during a decode. -/
def Obligations.StepKeepsCursor : Prop :=
  ∀ s t : State, s.ControlInv → s.TablesInv → s.CursorInv → step s = .next t → t.CursorInv

/-- 10_state R28, R31: every step keeps the tables and the builder full of symbols below 285 and hash lengths of 1
to 8. -/
def Obligations.StepKeepsTables : Prop := ∀ s t : State, s.TablesInv → step s = .next t → t.TablesInv

/-- 10_state R24, 00_scope R9: every step keeps every register in its range. The lower ends that an unwritten register
misses are left out, log entry 2. -/
def Obligations.StepKeepsRanges : Prop :=
  ∀ s t : State, s.TablesInv → s.RangeInv → step s = .next t → t.RangeInv

/-- 10_state R22, R24, R27, R28; 45_block_decoder R215, R218; 46_copy_instructions R271: every step keeps a sound state
sound. -/
def Obligations.StepKeepsSoundness : Prop := ∀ s t : State, s.Inv → step s = .next t → t.Inv

/-- 20_memory R61, R75; 42_table_builder R163; 40_bit_cursor R129: from a sound state a step never faults, and what it
refuses is a host write while BUSY or a dictionary that repeats a symbol. What is refused is the model's choice in
part, log entries 7 and 8. -/
def Obligations.SoundStepsNeverStop : Prop :=
  ∀ s : State, s.Inv → (∀ f, step s ≠ .fault f) ∧
    ∀ r, step s = .refused r →
      r = .hostWriteWhileBusy ∨ r = .duplicateSymbol ∧ initBoot s.bootDict = .duplicate

/-- 41_huffman_table R141, 60_exceptions R295, R297, R298: in a decode from a sound state the engine never reports
InvalidCodeLength or InvalidLengthCode, and reports EmptyTable in a table parse only. -/
def Obligations.UnreachableErrorsStayUnreached : Prop :=
  ∀ s t : State, s.Inv → s.host = [] → s.status = .busy → step s = .next t →
    t.err ≠ some .invalidCodeLength ∧ t.err ≠ some .invalidLengthCode ∧
    (t.err = some .emptyTable → s.phase = .parseSym ∨ s.phase = .parseCopy)

/-- 20_memory R61, 60_exceptions R308: an engine step changes no byte of OUT but those from `out_pos` to the new
`out_pos`, below `target`. -/
def Obligations.EngineWritesOnlyNewOutput : Prop :=
  ∀ (s t : State) (a : Nat), s.host = [] → step s = .next t → t.outMem.read a ≠ s.outMem.read a →
    s.outPos ≤ a ∧ a < t.outPos ∧ a < s.target

/-- 20_memory R60, R73; 43_bootstrap_dictionary R184; 10_state R26, R35: an engine step writes neither IN nor an
argument register nor BOOT_DICT, and BOOT_T in RESET_INIT only. -/
def Obligations.EngineLeavesInputsAlone : Prop :=
  ∀ s t : State, s.host = [] → step s = .next t →
    t.inMem = s.inMem ∧ t.argInLen = s.argInLen ∧ t.argOutHint = s.argOutHint ∧
    t.argOutPresent = s.argOutPresent ∧ t.bootDict = s.bootDict ∧ t.host = [] ∧
    (s.phase ≠ .resetInit → t.bootT = s.bootT)

/-- 10_state R23: during a decode BITPOS never decreases and never passes the end of the ghost. -/
def Obligations.BitposNeverDecreases : Prop :=
  ∀ s t : State, s.ControlInv → s.TablesInv → s.CursorInv → s.host = [] → s.phase.decoding = true → step s = .next t →
    s.bc.bitpos ≤ t.bc.bitpos ∧ t.bc.bitpos ≤ 8 * s.bc.inLen + 32

/-- 45_block_decoder R226, 70_reset_and_hazards R341: every decode ends: from a sound BUSY state with no host action
due, some number of steps, bounded by the input's length, leaves BUSY. The bound counts the model's steps, log
entry 6. -/
def Obligations.EveryDecodeEnds : Prop :=
  ∀ s : State, s.Inv → s.host = [] → s.status = .busy →
    ∃ k t, k ≤ 32 * (8 * s.argInLen.toNat + 34) ∧ Sys2Proof.core.run k s = .next t ∧ t.status ≠ .busy

/-- 45_block_decoder R228, 00_scope R3; 93_implementation_defined U4, U5: the outcome of a decode depends on IN, the
arguments and BOOT_T alone: two sound states about to initialise that agree on these show the host the same after any
number of steps, and the same bytes of OUT below `out_pos`, whatever else they hold. -/
def Obligations.OutcomeIgnoresLeftovers : Prop :=
  ∀ (s s' t t' : State) (k : Nat), s.Inv → s'.Inv → s.phase = .check → s'.phase = .check → s.host = [] →
    s'.host = [] → s.inMem = s'.inMem → s.argInLen = s'.argInLen → s.argOutHint = s'.argOutHint →
    s.bootT = s'.bootT → s.statusDeclared = s'.statusDeclared → s.statusTarget = s'.statusTarget →
    Sys2Proof.core.run (k + 1) s = .next t → Sys2Proof.core.run (k + 1) s' = .next t' →
    t.hostView = t'.hostView ∧ t.outPos = t'.outPos ∧ ∀ a, a < t.outPos → t.outMem.read a = t'.outMem.read a
end

