-- ==== Sys2Proof/Laws/Memory.lean ====
section
/-!
SUPPORT. The laws of memory: a read after a write, the canonical form kept by every operation, and the stream's
bits as bits of its value.
-/

namespace Sys2Proof.Machine

/-- A read of the address just written gives the byte written. -/
@[simp] theorem Memory.read_write_same (m : Memory) (a : Nat) (v : Byte) (h : m.wf = true) :
    (m.write a v).read a = v := by
  suffices H : ∀ (m : Memory) (lo : Nat), m.wfFrom lo = true → (m.write a v).read a = v from H m 0 h
  intro m
  induction m with
  | nil => intro lo _; by_cases hv : v = Memory.unlisted <;> simp [Memory.write, Memory.read, hv]
  | cons c m ih =>
    obtain ⟨k, x⟩ := c
    intro lo hwf
    simp only [Memory.wfFrom, Bool.and_eq_true, decide_eq_true_eq] at hwf
    obtain ⟨⟨_, _⟩, hm⟩ := hwf
    have below : ∀ (m : Memory) (lo : Nat), m.wfFrom lo = true → a < lo → m.read a = Memory.unlisted := by
      intro m
      induction m with
      | nil => intros; rfl
      | cons c m ih =>
        obtain ⟨k, x⟩ := c
        intro lo hwf ha
        simp only [Memory.wfFrom, Bool.and_eq_true, decide_eq_true_eq] at hwf
        have : a ≠ k := by omega
        simp only [Memory.read, this, if_false]
        exact ih (k + 1) hwf.2 (by omega)
    by_cases h1 : a < k
    · by_cases hv : v = Memory.unlisted
      · have : a ≠ k := by omega
        simp only [Memory.write, h1, hv, if_true, Memory.read, this, if_false]
        exact below m (k + 1) hm (by omega)
      · simp [Memory.write, h1, hv, Memory.read]
    · by_cases h2 : a = k
      · subst h2
        by_cases hv : v = Memory.unlisted
        · simp only [Memory.write, lt_irrefl, if_false, if_true, hv]
          exact below m (a + 1) hm (by omega)
        · simp [Memory.write, hv, Memory.read]
      · simp only [Memory.write, h1, h2, if_false, Memory.read]
        exact ih (k + 1) hm

/-- A write leaves every other address alone. -/
@[simp] theorem Memory.read_write_other (m : Memory) (a b : Nat) (v : Byte) (h : b ≠ a) :
    (m.write a v).read b = m.read b := by
  induction m with
  | nil => by_cases hv : v = Memory.unlisted <;> simp [Memory.write, Memory.read, hv, h]
  | cons c m ih =>
    obtain ⟨k, x⟩ := c
    by_cases h1 : a < k
    · by_cases hv : v = Memory.unlisted <;> simp [Memory.write, h1, hv, Memory.read, h]
    · by_cases h2 : a = k
      · subst h2
        by_cases hv : v = Memory.unlisted <;> simp [Memory.write, hv, Memory.read, h]
      · simp only [Memory.write, h1, h2, if_false, Memory.read, ih]

/-- A write keeps the canonical form. -/
theorem Memory.write_wf (m : Memory) (a : Nat) (v : Byte) (h : m.wf = true) : (m.write a v).wf = true := by
  suffices H : ∀ (m : Memory) (lo : Nat), m.wfFrom lo = true → lo ≤ a → (m.write a v).wfFrom lo = true from
    H m 0 h (Nat.zero_le a)
  intro m
  induction m with
  | nil => intro lo _ hlo; by_cases hv : v = Memory.unlisted <;> simp [Memory.write, Memory.wfFrom, hv, hlo]
  | cons c m ih =>
    obtain ⟨k, x⟩ := c
    intro lo hwf hlo
    simp only [Memory.wfFrom, Bool.and_eq_true, decide_eq_true_eq] at hwf
    obtain ⟨⟨hk, hx⟩, hm⟩ := hwf
    have weaken : ∀ (m : Memory) (lo lo' : Nat), lo' ≤ lo → m.wfFrom lo = true → m.wfFrom lo' = true := by
      intro m
      cases m with
      | nil => intros; rfl
      | cons c m =>
        intro lo lo' hl hw
        simp only [Memory.wfFrom, Bool.and_eq_true, decide_eq_true_eq] at hw ⊢
        exact ⟨⟨by omega, hw.1.2⟩, hw.2⟩
    by_cases h1 : a < k
    · by_cases hv : v = Memory.unlisted
      · simp [Memory.write, h1, hv, Memory.wfFrom, hk, hx, hm]
      · have h1' : a + 1 ≤ k := h1
        simp [Memory.write, h1, hv, Memory.wfFrom, h1', hx, hm, hlo]
    · by_cases h2 : a = k
      · subst h2
        by_cases hv : v = Memory.unlisted
        · simp only [Memory.write, lt_irrefl, if_false, if_true, hv]
          exact weaken m (a + 1) lo (by omega) hm
        · simp [Memory.write, hv, Memory.wfFrom, hm, hlo]
      · simp only [Memory.write, h1, h2, if_false, Memory.wfFrom, Bool.and_eq_true, decide_eq_true_eq]
        exact ⟨⟨hk, hx⟩, ih (k + 1) hm (by omega)⟩

/-- Writing bytes one after another keeps the canonical form. -/
theorem Memory.writeAll_wf (bs : List Byte) (m : Memory) (a : Nat) (h : m.wf = true) :
    (m.writeAll a bs).wf = true := by
  induction bs generalizing m a with
  | nil => exact h
  | cons b bs ih => exact ih _ _ (Memory.write_wf m a b h)

/-- The empty memory is canonical. -/
@[simp] theorem Memory.nil_wf : Memory.wf [] = true := rfl

/-- Every address of the empty memory reads as `unlisted`. -/
@[simp] theorem Memory.read_nil (a : Nat) : Memory.read [] a = Memory.unlisted := rfl

/-- A stream value of `n` bits is below `2^n`. -/
theorem Memory.streamValue_lt (m : Memory) (inLen p n : Nat) : m.streamValue inLen p n < 2 ^ n := by
  induction n with
  | zero => simp [Memory.streamValue]
  | succ n ih =>
    simp only [Memory.streamValue, Nat.pow_succ]
    have := Bool.toNat_lt (m.streamBit inLen (p + n))
    omega

/-- The bit of weight `2^i` of a stream value is the stream bit `n - 1 - i` places after its first (00_scope
R7). -/
theorem Memory.testBit_streamValue (m : Memory) (inLen p n i : Nat) :
    (m.streamValue inLen p n).testBit i = (decide (i < n) && m.streamBit inLen (p + (n - 1 - i))) := by
  induction n generalizing i with
  | zero => simp [Memory.streamValue]
  | succ n ih =>
    cases i with
    | zero =>
      simp only [Memory.streamValue]
      cases h : m.streamBit inLen (p + n) <;> simp [Nat.testBit_zero, Nat.add_mod, h]
    | succ i =>
      have h2 : (2 * m.streamValue inLen p n + (m.streamBit inLen (p + n)).toNat) / 2 = m.streamValue inLen p n := by
        have := Bool.toNat_lt (m.streamBit inLen (p + n))
        omega
      simp only [Memory.streamValue, Nat.testBit_succ, h2, ih]
      rw [show n + 1 - 1 - (i + 1) = n - 1 - i by omega]
      simp

/-- Past the end of the input every stream bit is 0 (40_bit_cursor R126). -/
theorem Memory.streamBit_past (m : Memory) (inLen k : Nat) (h : 8 * inLen ≤ k) : m.streamBit inLen k = false := by
  simp [Memory.streamBit, Nat.not_lt.mpr h]

end Sys2Proof.Machine
end

