-- ==== Sys2Proof/Laws/Cursor.lean ====
section
/-!
SUPPORT. What each cursor operation can do, said once: under the invariant of 10_state R22 every operation keeps it,
and PEEK, DROP and READ are the abstract operations of 40_bit_cursor R126 on BITPOS.
-/

namespace Sys2Proof.Machine

/-- A value of bytes is below `2^(8k)`. -/
theorem Memory.value_lt (m : Memory) (a k : Nat) : m.value a k < 2 ^ (8 * k) := by
  induction k with
  | zero => simp [Memory.value]
  | succ k ih =>
    have h1 := (m.read (a + k)).isLt
    have h2 : 2 ^ (8 * (k + 1)) = 2 ^ (8 * k) * 256 := by rw [Nat.mul_add, Nat.pow_add]
    simp only [Memory.value, h2]
    omega

/-- The bits of a value of bytes: the lowest address holds the most significant ones (40_bit_cursor R121). -/
theorem Memory.testBit_value (m : Memory) (a k t : Nat) :
    (m.value a k).testBit t = (decide (t < 8 * k) && (m.read (a + (k - 1 - t / 8))).getLsbD (t % 8)) := by
  induction k generalizing t with
  | zero => simp [Memory.value]
  | succ k ih =>
    have hb := (m.read (a + k)).isLt
    rw [Memory.value, show (256 : Nat) = 2 ^ 8 from rfl, Nat.mul_comm, Nat.testBit_two_pow_mul_add _ hb]
    by_cases h : t < 8
    · have h1 : t / 8 = 0 := by omega
      have h2 : t % 8 = t := by omega
      have h3 : t < 8 * (k + 1) := by omega
      simp [h, h1, h2, h3, BitVec.getLsbD]
    · rw [if_neg h, ih]
      have e1 : (t - 8) / 8 = t / 8 - 1 := by omega
      have e2 : (t - 8) % 8 = t % 8 := by omega
      have e3 : k - 1 - (t / 8 - 1) = k + 1 - 1 - t / 8 := by omega
      have e4 : (t - 8 < 8 * k) = (t < 8 * (k + 1)) := by
        apply propext; omega
      simp only [e1, e2, e3, e4]

/-- The bits of a number in the accumulator, from its top. -/
theorem getMsbD_acc_ofNat (v j : Nat) :
    (BitVec.ofNat 64 v).getMsbD j = (decide (j < 64) && v.testBit (64 - 1 - j)) := by
  simp only [BitVec.getMsbD, BitVec.getLsbD_ofNat]
  by_cases h : j < 64
  · have : 64 - 1 - j < 64 := by omega
    simp [h, this]
  · simp [h]

@[simp] theorem CurRes.bind_ok {α β : Type} (v : α) (c : Cursor) (f : α → Cursor → CurRes β) :
    (CurRes.ok v c).bind f = f v c := rfl

@[simp] theorem CurRes.bind_raise {α β : Type} (e : ErrKind) (c : Cursor) (f : α → Cursor → CurRes β) :
    (CurRes.raise e c).bind f = .raise e c := rfl

/-- The cursor CURSOR_INIT leaves meets the invariant, at stream bit 0 (40_bit_cursor R120). -/
theorem Cursor.init_inv (m : Memory) (w : Word) :
    (Cursor.init w).Inv m ∧ (Cursor.init w).bitpos = 0 ∧ (Cursor.init w).inLen = w.toNat := by
  refine ⟨⟨by simp [Cursor.init], by simp [Cursor.init], by simp [Cursor.init],
    by simp [Cursor.init], ?_⟩, rfl, rfl⟩
  intro i _
  simp [Cursor.init]

/-- BITPOS and the bits held make up what has been pulled in (10_state R22). -/
theorem Cursor.Inv.bitpos_add_valid {m : Memory} {c : Cursor} (h : c.Inv m) :
    c.bitpos + c.valid = 8 * c.pos + c.ghost := by
  have := h.2.2.2.1
  simp only [Cursor.bitpos]
  omega

/-- BITPOS never passes the end of the ghost (10_state R23). -/
theorem Cursor.Inv.bitpos_le_limit {m : Memory} {c : Cursor} (h : c.Inv m) : c.bitpos + c.valid ≤ c.limit := by
  have h1 := h.bitpos_add_valid
  have h2 := h.2.1
  have h3 := h.2.2.1
  simp only [Cursor.limit, Cursor.ghost] at *
  cases he : c.eoi <;> simp_all; omega

/-- REFILL: with room it keeps the invariant, BITPOS and `in_len` and adds at least 8 bits, at most up to 64; it
raises only when the input and the ghost are exhausted (40_bit_cursor R121). -/
theorem Cursor.refill_spec {m : Memory} {c : Cursor} (h : c.Inv m) (hv : c.valid ≤ 32) :
    (∃ c', c.refill m = .ok () c' ∧ c'.Inv m ∧ c'.bitpos = c.bitpos ∧ c'.inLen = c.inLen ∧
      c.valid + 8 ≤ c'.valid ∧ c'.valid ≤ c.valid + 32) ∨
    (c.refill m = .raise .unexpectedEndOfInput c ∧ c.bitpos + c.valid = c.limit) := by
  obtain ⟨h1, h2, h3, h4, h5⟩ := id h
  by_cases hp : c.pos < c.inLen
  · left
    have he : c.eoi = false := by
      cases hc : c.eoi with
      | false => rfl
      | true => have := h3 hc; omega
    have hg : c.ghost = 0 := by simp [Cursor.ghost, he]
    obtain ⟨k, hk, hk1, hk2, hk3⟩ : ∃ k, k = min 4 (c.inLen - c.pos) ∧ 1 ≤ k ∧ k ≤ 4 ∧ c.pos + k ≤ c.inLen :=
      ⟨_, rfl, by omega, by omega, by omega⟩
    have hb := h.bitpos_add_valid
    rw [hg] at hb
    refine ⟨{ c with
      acc := c.acc ||| (BitVec.ofNat 64 (m.value c.pos k) <<< (64 - c.valid - 8 * k))
      valid := c.valid + 8 * k, pos := c.pos + k }, by simp [Cursor.refill, hp, ← hk], ?_, ?_, rfl, ?_, ?_⟩
    · refine ⟨by simp only; omega, by simpa using hk3, by simp [he], ?_, ?_⟩
      · simp only [Cursor.ghost, he] at *; omega
      · intro i hi
        have hbp : ({ c with
            acc := c.acc ||| (BitVec.ofNat 64 (m.value c.pos k) <<< (64 - c.valid - 8 * k))
            valid := c.valid + 8 * k, pos := c.pos + k } : Cursor).bitpos = c.bitpos := by
          simp only [Cursor.bitpos, Cursor.ghost, he]; omega
        rw [hbp]
        simp only [BitVec.getMsbD_or, h5 i hi, BitVec.getMsbD_shiftLeft, getMsbD_acc_ofNat,
          Memory.testBit_value]
        by_cases hiv : i < c.valid
        · have e1 : ¬ (64 - 1 - (i + (64 - c.valid - 8 * k)) < 8 * k) := by omega
          have e2 : i < c.valid + 8 * k := by omega
          simp [hiv, e1, e2]
        · by_cases hik : i < c.valid + 8 * k
          · have e0 : i + (64 - c.valid - 8 * k) < 64 := by omega
            have e1 : 64 - 1 - (i + (64 - c.valid - 8 * k)) < 8 * k := by omega
            obtain ⟨j, rfl⟩ : ∃ j, i = c.valid + j := ⟨i - c.valid, by omega⟩
            have e2 : c.bitpos + (c.valid + j) = 8 * c.pos + j := by omega
            have e3 : 64 - 1 - (c.valid + j + (64 - c.valid - 8 * k)) = 8 * k - 1 - j := by omega
            have e4 : (8 * c.pos + j) / 8 = c.pos + (k - 1 - (8 * k - 1 - j) / 8) := by omega
            have e5 : 8 * c.pos + j < 8 * c.inLen := by omega
            have e6 : (8 * k - 1 - j) % 8 = 8 - 1 - (8 * c.pos + j) % 8 := by omega
            have e7 : (8 * c.pos + j) % 8 < 8 := by omega
            have e8 : 8 * k - 1 - j < 8 * k := by omega
            have e9 : j < 8 * k := by omega
            simp only [hiv, e0, e2, e3, e4, e5, e8, e9, Memory.streamBit, BitVec.getMsbD, e6, e7, decide_true,
              decide_false, Bool.false_and, Bool.true_and, Bool.false_or, Nat.add_lt_add_iff_left]
          · have e0 : ¬ (i + (64 - c.valid - 8 * k) < 64) := by omega
            have e1 : ¬ (i < c.valid) := by omega
            simp [e0, e1, hik]
    · simp only [Cursor.bitpos, Cursor.ghost, he]; omega
    · simp only; omega
    · simp only; omega
  · have hpe : c.pos = c.inLen := by omega
    cases he : c.eoi with
    | false =>
      left
      have hg : c.ghost = 0 := by simp [Cursor.ghost, he]
      have hb := h.bitpos_add_valid
      rw [hg] at hb
      refine ⟨{ c with eoi := true, valid := c.valid + 32 }, by simp [Cursor.refill, hp, he], ?_, ?_, rfl, ?_, ?_⟩
      · refine ⟨by simp only; omega, by simpa using h2, fun _ => hpe, ?_, ?_⟩
        · simp only [Cursor.ghost, if_true, Config.ghostBits]; omega
        · intro i hi
          have hbp : ({ c with eoi := true, valid := c.valid + 32 } : Cursor).bitpos = c.bitpos := by
            simp only [Cursor.bitpos, Cursor.ghost, he, if_true, Config.ghostBits]; simp
          rw [hbp]
          simp only [h5 i hi]
          by_cases hiv : i < c.valid
          · have : i < c.valid + 32 := by omega
            simp [hiv, this]
          · have : m.streamBit c.inLen (c.bitpos + i) = false := Memory.streamBit_past _ _ _ (by omega)
            simp [this]
      · simp only [Cursor.bitpos, Cursor.ghost, he, if_true, Config.ghostBits]; simp
      · simp only; omega
      · simp only; omega
    | true =>
      right
      refine ⟨by simp [Cursor.refill, hp, he], ?_⟩
      rw [h.bitpos_add_valid]
      simp [Cursor.ghost, Cursor.limit, he, hpe]

/-- NEED's loop with enough refills for `n` bits. -/
theorem Cursor.needLoop_spec {m : Memory} {n : Nat} (hn : n ≤ 32) (k : Nat) {c : Cursor} (h : c.Inv m)
    (hk : n ≤ c.valid + 8 * k) :
    (∃ c', Cursor.needLoop m n k c = .ok () c' ∧ c'.Inv m ∧ c'.bitpos = c.bitpos ∧ c'.inLen = c.inLen ∧
      n ≤ c'.valid) ∨
    (∃ c', Cursor.needLoop m n k c = .raise .unexpectedEndOfInput c' ∧ c'.Inv m ∧ c'.bitpos = c.bitpos ∧
      c'.inLen = c.inLen ∧ c.limit < c.bitpos + n) := by
  induction k generalizing c with
  | zero => exact .inl ⟨c, rfl, h, rfl, rfl, by omega⟩
  | succ k ih =>
    by_cases hv : c.valid < n
    · simp only [Cursor.needLoop, hv, if_true]
      rcases Cursor.refill_spec h (by omega) with ⟨c', e, hi, hb, hl, hlo, _⟩ | ⟨e, hb⟩
      · simp only [e, CurRes.bind_ok]
        have hlim : c'.limit = c.limit := by simp [Cursor.limit, hl]
        rcases ih hi (by omega) with ⟨c'', e', a1, a2, a3, a4⟩ | ⟨c'', e', a1, a2, a3, a4⟩
        · exact .inl ⟨c'', e', a1, by omega, by omega, a4⟩
        · exact .inr ⟨c'', e', a1, by omega, by omega, by omega⟩
      · exact .inr ⟨c, by simp [e], h, rfl, rfl, by omega⟩
    · exact .inl ⟨c, by simp [Cursor.needLoop, hv], h, rfl, rfl, by omega⟩

/-- NEED(n): it holds `n` bits afterwards exactly when the input and the ghost have them (40_bit_cursor R122,
R128). -/
theorem Cursor.need_spec {m : Memory} {c : Cursor} (h : c.Inv m) {n : Nat} (hn : n ≤ 32) :
    (c.bitpos + n ≤ c.limit ∧ ∃ c', c.need m n = .ok () c' ∧ c'.Inv m ∧ c'.bitpos = c.bitpos ∧
      c'.inLen = c.inLen ∧ n ≤ c'.valid) ∨
    (c.limit < c.bitpos + n ∧ ∃ c', c.need m n = .raise .unexpectedEndOfInput c' ∧ c'.Inv m ∧
      c'.bitpos = c.bitpos ∧ c'.inLen = c.inLen) := by
  rcases Cursor.needLoop_spec hn 4 h (by omega) with ⟨c', e, a1, a2, a3, a4⟩ | ⟨c', e, a1, a2, a3, a4⟩
  · refine .inl ⟨?_, c', e, a1, a2, a3, a4⟩
    have := a1.bitpos_le_limit
    simp only [Cursor.limit, a3] at *
    omega
  · exact .inr ⟨a4, c', e, a1, a2, a3⟩

/-- The top `n` bits held are the next `n` stream bits (40_bit_cursor R123). -/
theorem Cursor.Inv.top_eq {m : Memory} {c : Cursor} (h : c.Inv m) {n : Nat} (hn : n ≤ c.valid) :
    c.top n = m.streamValue c.inLen c.bitpos n := by
  have h64 : n ≤ 64 := le_trans hn h.1
  refine Nat.eq_of_testBit_eq fun i => ?_
  rw [Memory.testBit_streamValue, Cursor.top]
  by_cases hi : i < n
  · have h5 := h.2.2.2.2 (n - 1 - i) (by omega)
    have e1 : n - 1 - i < c.valid := by omega
    simp only [e1, decide_true, Bool.true_and] at h5
    rw [← h5]
    have e2 : n - 1 - i < 64 := by omega
    have e3 : 64 - n + i = 64 - 1 - (n - 1 - i) := by omega
    simp only [← BitVec.getLsbD.eq_1, BitVec.getLsbD_ushiftRight, BitVec.getMsbD, e2, hi, decide_true, Bool.true_and,
      e3]
  · have e : ¬ (64 - n + i < 64) := by omega
    simp only [← BitVec.getLsbD.eq_1, BitVec.getLsbD_ushiftRight, hi, decide_false, Bool.false_and]
    exact BitVec.getLsbD_of_ge _ _ (by omega)

/-- Dropping `n` bits that are held keeps the invariant and advances BITPOS by `n` (40_bit_cursor R124). -/
theorem Cursor.Inv.shift {m : Memory} {c : Cursor} (h : c.Inv m) {n : Nat} (hn : n ≤ c.valid) :
    ({ c with acc := c.acc <<< n, valid := c.valid - n } : Cursor).Inv m ∧
    ({ c with acc := c.acc <<< n, valid := c.valid - n } : Cursor).bitpos = c.bitpos + n := by
  obtain ⟨h1, h2, h3, h4, h5⟩ := h
  have hb : ({ c with acc := c.acc <<< n, valid := c.valid - n } : Cursor).bitpos = c.bitpos + n := by
    simp only [Cursor.bitpos, Cursor.ghost] at *; omega
  refine ⟨⟨by simp only; omega, h2, h3, by simp only [Cursor.ghost] at *; omega, ?_⟩, hb⟩
  intro i hi
  rw [hb]
  simp only [BitVec.getMsbD_shiftLeft]
  by_cases hin : i + n < 64
  · rw [h5 _ hin, show c.bitpos + n + i = c.bitpos + (i + n) by omega]
    congr 1
    simp only [decide_eq_decide]; omega
  · have e : ¬ (i < c.valid - n) := by omega
    simp only [e, decide_false, Bool.false_and]
    exact BitVec.getMsbD_of_ge _ _ (by omega)

/-- PEEK(n) (40_bit_cursor R123, R126, R128). -/
theorem Cursor.peek_spec {m : Memory} {c : Cursor} (h : c.Inv m) {n : Nat} (hn : n ≤ 32) :
    (c.bitpos + n ≤ c.limit ∧ ∃ c', c.peek m n = .ok (m.streamValue c.inLen c.bitpos n) c' ∧ c'.Inv m ∧
      c'.bitpos = c.bitpos ∧ c'.inLen = c.inLen ∧ n ≤ c'.valid) ∨
    (c.limit < c.bitpos + n ∧ ∃ c', c.peek m n = .raise .unexpectedEndOfInput c' ∧ c'.Inv m ∧
      c'.bitpos = c.bitpos ∧ c'.inLen = c.inLen) := by
  rcases Cursor.need_spec h hn with ⟨hl, c', e, a1, a2, a3, a4⟩ | ⟨hl, c', e, a⟩
  · exact .inl ⟨hl, c', by simp [Cursor.peek, e, a1.top_eq a4, a2, a3], a1, a2, a3, a4⟩
  · exact .inr ⟨hl, c', by simp [Cursor.peek, e], a⟩

/-- DROP(n) (40_bit_cursor R124, R126, R128). -/
theorem Cursor.drop_spec {m : Memory} {c : Cursor} (h : c.Inv m) {n : Nat} (hn : n ≤ 32) :
    (c.bitpos + n ≤ c.limit ∧ ∃ c', c.drop m n = .ok () c' ∧ c'.Inv m ∧ c'.bitpos = c.bitpos + n ∧
      c'.inLen = c.inLen) ∨
    (c.limit < c.bitpos + n ∧ ∃ c', c.drop m n = .raise .unexpectedEndOfInput c' ∧ c'.Inv m ∧
      c'.bitpos = c.bitpos ∧ c'.inLen = c.inLen) := by
  rcases Cursor.need_spec h hn with ⟨hl, c', e, a1, a2, a3, a4⟩ | ⟨hl, c', e, a⟩
  · obtain ⟨b1, b2⟩ := a1.shift a4
    exact .inl ⟨hl, _, by simp only [Cursor.drop, e, CurRes.bind_ok], b1, by omega, a3⟩
  · exact .inr ⟨hl, c', by simp [Cursor.drop, e], a⟩

/-- READ(n) (40_bit_cursor R125, R126, R128). -/
theorem Cursor.read_spec {m : Memory} {c : Cursor} (h : c.Inv m) {n : Nat} (hn : n ≤ 32) :
    (c.bitpos + n ≤ c.limit ∧ ∃ c', c.read m n = .ok (m.streamValue c.inLen c.bitpos n) c' ∧ c'.Inv m ∧
      c'.bitpos = c.bitpos + n ∧ c'.inLen = c.inLen) ∨
    (c.limit < c.bitpos + n ∧ ∃ c', c.read m n = .raise .unexpectedEndOfInput c' ∧ c'.Inv m ∧
      c'.bitpos = c.bitpos ∧ c'.inLen = c.inLen) := by
  rcases Cursor.peek_spec h hn with ⟨hl, c', e, a1, a2, a3, _⟩ | ⟨hl, c', e, a⟩
  · have hlim : c'.limit = c.limit := by simp [Cursor.limit, a3]
    rcases Cursor.drop_spec a1 hn with ⟨_, c'', e', b1, b2, b3⟩ | ⟨hx, _⟩
    · exact .inl ⟨hl, c'', by simp [Cursor.read, e, e'], b1, by omega, by omega⟩
    · omega
  · exact .inr ⟨hl, c', by simp [Cursor.read, e], a⟩

/-- The next bits as the fetch reads them: the stream's where it has them (40_bit_cursor R126). -/
theorem Cursor.look_spec {m : Memory} {c : Cursor} (h : c.Inv m) {n : Nat} (hn : n ≤ 32)
    (hl : c.bitpos + n ≤ c.limit) :
    (c.look m n).1 = m.streamValue c.inLen c.bitpos n ∧ (c.look m n).2.Inv m ∧
    (c.look m n).2.bitpos = c.bitpos + n ∧ (c.look m n).2.inLen = c.inLen := by
  rcases Cursor.read_spec h hn with ⟨_, c', e, a⟩ | ⟨hx, _⟩
  · simp only [Cursor.look, e]; exact ⟨trivial, a⟩
  · omega

end Sys2Proof.Machine
end

