-- ==== Sys2Proof/Laws/Encode.lean ====
section
/-!
SUPPORT. Bit strings and their values: the two directions of the encoding, and the bits of a stream.
-/

namespace Sys2Proof

/-- The value of a bit string with a prefix already read. -/
theorem bitsToNat_foldl (bits : List Bool) (a : Nat) :
    bits.foldl (fun v b => 2 * v + b.toNat) a = a * 2 ^ bits.length + bitsToNat bits := by
  induction bits generalizing a with
  | nil => simp [bitsToNat]
  | cons b bits ih =>
    simp only [List.foldl_cons, List.length_cons, bitsToNat]
    rw [ih, ih (2 * 0 + b.toNat), Nat.pow_succ]
    ring

/-- The first bit is the most significant (00_scope R7). -/
theorem bitsToNat_cons (b : Bool) (bits : List Bool) :
    bitsToNat (b :: bits) = b.toNat * 2 ^ bits.length + bitsToNat bits := by
  have := bitsToNat_foldl bits (2 * 0 + b.toNat)
  simpa [bitsToNat] using this

/-- A bit string's value is below `2^` its length. -/
theorem bitsToNat_lt (bits : List Bool) : bitsToNat bits < 2 ^ bits.length := by
  induction bits with
  | nil => simp [bitsToNat]
  | cons b bits ih =>
    rw [bitsToNat_cons, List.length_cons, Nat.pow_succ]
    cases b <;> simp <;> omega

@[simp] theorem natToBits_length (w v : Nat) : (natToBits w v).length = w := by
  induction w with
  | zero => rfl
  | succ w ih => simp [natToBits, ih]

/-- The value of the `w`-bit string of `v`. -/
theorem bitsToNat_natToBits (w v : Nat) : bitsToNat (natToBits w v) = v % 2 ^ w := by
  induction w with
  | zero => simp [natToBits, bitsToNat, Nat.mod_one]
  | succ w ih =>
    rw [natToBits, bitsToNat_cons, natToBits_length, ih, Nat.mod_pow_succ, Nat.testBit_eq_decide_div_mod_eq]
    rcases Nat.mod_two_eq_zero_or_one (v / 2 ^ w) with h | h <;> simp [h]
    omega

/-- The string of a string's value is the string. -/
theorem natToBits_bitsToNat (bits : List Bool) : natToBits bits.length (bitsToNat bits) = bits := by
  have key : ∀ w v a, natToBits w (a * 2 ^ w + v) = natToBits w v := by
    intro w
    induction w with
    | zero => intros; rfl
    | succ w ih =>
      intro v a
      have e : a * 2 ^ (w + 1) + v = (2 * a) * 2 ^ w + v := by rw [Nat.pow_succ]; ring
      have e2 : (a * 2 ^ (w + 1) + v).testBit w = v.testBit w := by
        have h : (a * 2 ^ (w + 1) + v) / 2 ^ w = 2 * a + v / 2 ^ w := by
          rw [show a * 2 ^ (w + 1) + v = 2 ^ w * (2 * a) + v by rw [Nat.pow_succ]; ring]
          exact Nat.mul_add_div (Nat.two_pow_pos w) _ _
        simp only [Nat.testBit_eq_decide_div_mod_eq, h]
        congr 2; omega
      rw [natToBits, natToBits, e2, e, ih]
  induction bits with
  | nil => rfl
  | cons b bits ih =>
    rw [List.length_cons, natToBits, bitsToNat_cons, key, ih]
    congr 1
    have h := bitsToNat_lt bits
    rw [Nat.mul_comm, Nat.testBit_two_pow_mul_add _ h]
    cases b <;> simp

/-- The value of the stream's bits is the stream's value (00_scope R7). -/
theorem bitsToNat_streamBits (m : Machine.Memory) (inLen p n : Nat) :
    bitsToNat (m.streamBits inLen p n) = m.streamValue inLen p n := by
  induction n with
  | zero => rfl
  | succ n ih =>
    have e : m.streamBits inLen p (n + 1) = m.streamBits inLen p n ++ [m.streamBit inLen (p + n)] := by
      simp [Machine.Memory.streamBits, List.range_succ]
    rw [e]
    have : bitsToNat (m.streamBits inLen p n ++ [m.streamBit inLen (p + n)]) =
        2 * bitsToNat (m.streamBits inLen p n) + (m.streamBit inLen (p + n)).toNat := by
      simp [bitsToNat, List.foldl_append]
    rw [this, ih]; rfl

@[simp] theorem streamBits_length (m : Machine.Memory) (inLen p n : Nat) : (m.streamBits inLen p n).length = n := by
  simp [Machine.Memory.streamBits]

end Sys2Proof
end

