-- ==== Sys2Proof/Laws/Huffman.lean ====
section
/-!
SUPPORT. What the builder's operations can do, said once: ADD_SYMBOL, BUILD's variables in closed form, the hash
table's slots, and the table BUILD returns.
-/

namespace Sys2Proof.Machine

/-! ## ADD_SYMBOL -/

/-- `holds` as membership. -/
theorem Builder.holds_iff (b : Builder) (x : Nat) : b.holds x = true ↔ ∃ l ∈ b.lists, x ∈ l := by
  simp [Builder.holds]

/-- A list of the builder is one of its lists, or empty past the 33rd. -/
theorem Builder.list_mem (b : Builder) (L : Nat) : b.list L ∈ b.lists ∨ b.list L = [] := by
  simp only [Builder.list, List.getD_eq_getElem?_getD]
  cases h : b.lists[L]? with
  | none => exact .inr rfl
  | some l => exact .inl (by simpa using List.mem_of_getElem? h)

/-- A list appended to at one length, read at any (42_table_builder R161). -/
theorem Builder.list_modify (b : Builder) (L : Nat) (x : List Nat) (h : L < b.lists.length) (j : Nat) :
    (Builder.mk (b.lists.modify L (· ++ x))).list j = if j = L then b.list L ++ x else b.list j := by
  simp only [Builder.list, List.getD_eq_getElem?_getD, List.getElem?_modify]
  by_cases hj : j = L
  · subst hj; simp [h]
  · have : ¬ L = j := fun e => hj e.symm
    simp [hj, this]

/-- The members of the lists after an append. -/
theorem Builder.mem_modify {b : Builder} {L y : Nat} {x : List Nat} (hL : L < b.lists.length) :
    (∃ l ∈ b.lists.modify L (· ++ x), y ∈ l) ↔ (∃ l ∈ b.lists, y ∈ l) ∨ y ∈ x := by
  constructor
  · rintro ⟨l, hl, hy⟩
    obtain ⟨j, hj⟩ := List.mem_iff_getElem?.mp hl
    rw [List.getElem?_modify] at hj
    cases hg : b.lists[j]? with
    | none => simp [hg] at hj
    | some l' =>
      simp only [hg, Option.map_eq_map, Option.map_some, Option.some.injEq] at hj
      subst hj
      have hm := List.mem_of_getElem? hg
      split at hy
      · rcases List.mem_append.mp hy with h | h
        · exact .inl ⟨_, hm, h⟩
        · exact .inr h
      · exact .inl ⟨_, hm, hy⟩
  · have hmem : ∀ j l', b.lists[j]? = some l' →
        (if L = j then l' ++ x else l') ∈ b.lists.modify L (· ++ x) := by
      intro j l' hg
      refine List.mem_iff_getElem?.mpr ⟨j, ?_⟩
      rw [List.getElem?_modify]
      simp only [hg, Option.map_eq_map, Option.map_some]
    rintro (⟨l, hl, hy⟩ | hy)
    · obtain ⟨j, hj⟩ := List.mem_iff_getElem?.mp hl
      refine ⟨_, hmem j l hj, ?_⟩
      split
      · exact List.mem_append.mpr (.inl hy)
      · exact hy
    · refine ⟨_, hmem L b.lists[L] (List.getElem?_eq_getElem hL), ?_⟩
      simp [hy]

/-- ADD_SYMBOL that succeeds (42_table_builder R161). -/
theorem Builder.addSymbol_ok {b : Builder} {x : Int} {L : Nat} (h1 : L ≤ 32) (h2 : 0 ≤ x) (h3 : x < 285)
    (h4 : ∀ l ∈ b.lists, x.toNat ∉ l) :
    b.addSymbol x L = .ok ⟨b.lists.modify L (· ++ [x.toNat])⟩ := by
  have e1 : ¬ Config.maxCodeLen < L := by simp; omega
  have e2 : ¬ (x < 0 ∨ (Config.maxSymbol : Int) ≤ x) := by simp; omega
  have e3 : b.holds x.toNat = false := by
    rw [Bool.eq_false_iff, ne_eq, Builder.holds_iff]
    rintro ⟨l, hl, hx⟩
    exact h4 l hl hx
  simp only [Builder.addSymbol, e1, e2, e3, if_false, Bool.false_eq_true]

/-- Everything ADD_SYMBOL can do (42_table_builder R161, R163). -/
theorem Builder.addSymbol_cases (b : Builder) (x : Int) (L : Nat) :
    (32 < L ∧ b.addSymbol x L = .raise .invalidCodeLength) ∨
    (L ≤ 32 ∧ (x < 0 ∨ 285 ≤ x) ∧ b.addSymbol x L = .raise .invalidSymbol) ∨
    (L ≤ 32 ∧ 0 ≤ x ∧ x < 285 ∧ (∃ l ∈ b.lists, x.toNat ∈ l) ∧ b.addSymbol x L = .duplicate) ∨
    (L ≤ 32 ∧ 0 ≤ x ∧ x < 285 ∧ (∀ l ∈ b.lists, x.toNat ∉ l) ∧
      b.addSymbol x L = .ok ⟨b.lists.modify L (· ++ [x.toNat])⟩) := by
  by_cases h1 : 32 < L
  · exact .inl ⟨h1, by simp [Builder.addSymbol, h1]⟩
  by_cases h2 : x < 0 ∨ 285 ≤ x
  · exact .inr (.inl ⟨by omega, h2, by simp [Builder.addSymbol, h1, h2]⟩)
  by_cases h3 : ∃ l ∈ b.lists, x.toNat ∈ l
  · have := (Builder.holds_iff b x.toNat).mpr h3
    exact .inr (.inr (.inl ⟨by omega, by omega, by omega, h3, by simp [Builder.addSymbol, h1, h2, this]⟩))
  · have h4 : ∀ l ∈ b.lists, x.toNat ∉ l := fun l hl hx => h3 ⟨l, hl, hx⟩
    exact .inr (.inr (.inr ⟨by omega, by omega, by omega, h4, Builder.addSymbol_ok (by omega) (by omega) (by omega) h4⟩))

/-- The builder stays sound under ADD_SYMBOL. -/
theorem Builder.Ok.add {b : Builder} (h : b.Ok) {x L : Nat} (hx : x < 285) :
    (Builder.mk (b.lists.modify L (· ++ [x]))).Ok := by
  refine ⟨by simpa using h.1, fun l hl y hy => ?_⟩
  obtain ⟨j, hj⟩ := List.mem_iff_getElem?.mp hl
  rw [List.getElem?_modify] at hj
  cases hg : b.lists[j]? with
  | none => simp [hg] at hj
  | some l' =>
    simp only [hg, Option.map_eq_map, Option.map_some, Option.some.injEq] at hj
    subst hj
    have hm := List.mem_of_getElem? hg
    split at hy
    · rcases List.mem_append.mp hy with h' | h'
      · exact h.2 _ hm y h'
      · simp at h'; omega
    · exact h.2 _ hm y hy

/-- A cleared builder is sound and its lists are empty (42_table_builder R160). -/
theorem Builder.cleared_ok : Builder.cleared.Ok := by
  refine ⟨by simp [Builder.cleared], fun l hl x hx => ?_⟩
  simp only [Builder.cleared, List.mem_replicate] at hl
  simp [hl.2] at hx

@[simp] theorem Builder.cleared_list (L : Nat) : Builder.cleared.list L = [] := by
  simp only [Builder.cleared, Builder.list, List.getD_eq_getElem?_getD, List.getElem?_replicate]
  split <;> rfl

/-! ## BUILD's variables -/

/-- One length more of the Kraft sum (42_table_builder R164). -/
theorem Builder.kraft_succ (b : Builder) (n : Nat) :
    b.kraft (n + 1) = b.kraft n + b.count (n + 1) * 2 ^ (32 - (n + 1)) := by
  rw [Builder.kraft, Nat.mul_comm]

/-- The Kraft sum grows with the length (42_table_builder R164). -/
theorem Builder.kraft_mono (b : Builder) {m n : Nat} (h : m ≤ n) : b.kraft m ≤ b.kraft n := by
  induction n with
  | zero => simp [Nat.le_zero.mp h]
  | succ n ih =>
    rcases Nat.eq_or_lt_of_le h with rfl | h
    · exact le_refl _
    · exact le_trans (ih (by omega)) (by rw [Builder.kraft_succ]; omega)

/-- The first code of length `n + 1`, left-aligned, is the Kraft sum up to `n` (42_table_builder R165, R166). -/
theorem Builder.firstCode_shift (b : Builder) {n : Nat} (h : n ≤ 32) :
    b.firstCode n * 2 ^ (32 - n) = 2 * b.kraft n := by
  induction n with
  | zero => simp [Builder.firstCode, Builder.kraft]
  | succ n ih =>
    have e : 2 ^ (32 - n) = 2 ^ (32 - (n + 1)) * 2 := by rw [← Nat.pow_succ]; congr 1; omega
    have ih' := ih (by omega)
    simp only [Builder.firstCode, Builder.kraft_succ, Nat.shiftLeft_eq, Nat.pow_one]
    rw [e, ← Nat.mul_assoc] at ih'
    have e2 : (b.firstCode n + b.count (n + 1)) * 2 * 2 ^ (32 - (n + 1)) =
        b.firstCode n * 2 ^ (32 - (n + 1)) * 2 + 2 * (b.count (n + 1) * 2 ^ (32 - (n + 1))) := by ring
    rw [e2, ih']
    ring

/-- The codes of length `n + 1`, left-aligned: they begin at the Kraft sum up to `n` and end at the next. -/
theorem Builder.firstCode_mul (b : Builder) {n : Nat} (h : n < 32) :
    b.firstCode n * 2 ^ (32 - (n + 1)) = b.kraft n := by
  have h1 := b.firstCode_shift (n := n) (by omega)
  have e : 2 ^ (32 - n) = 2 ^ (32 - (n + 1)) * 2 := by rw [← Nat.pow_succ]; congr 1; omega
  rw [e, ← Nat.mul_assoc] at h1
  omega

/-- BUILD's inner loop, but for the hash table (42_table_builder R165, R166). -/
theorem BuildVars.addCodes_eq (v : BuildVars) (L : Nat) (ss : List Nat) :
    (v.addCodes L ss).syms = v.syms ++ ss ∧ (v.addCodes L ss).code = v.code + ss.length ∧
    (v.addCodes L ss).ends = v.ends ∧ (v.addCodes L ss).thr = v.thr := by
  induction ss generalizing v with
  | nil => simp [BuildVars.addCodes]
  | cons x ss ih =>
    obtain ⟨a, b, c, d⟩ := ih
      { v with
        syms := v.syms ++ [x]
        hash := if L ≤ Config.hashBits then fillSlots v.hash (v.code <<< (8 - L)) (2 ^ (8 - L)) ⟨x, L⟩ else v.hash
        code := v.code + 1 }
    simp only [BuildVars.addCodes]
    refine ⟨by rw [a]; simp, by rw [b]; simp; omega, c, d⟩

/-- BUILD's variables after length `n`, but for the hash table (42_table_builder R165, R166). -/
theorem Builder.buildVars_eq (b : Builder) (n : Nat) :
    (b.buildVars n).code = b.firstCode n ∧
    (b.buildVars n).syms = (List.range n).flatMap (fun j => b.list (j + 1)) ∧
    (b.buildVars n).ends =
      (List.range (n + 1)).map (fun L => ((List.range L).flatMap fun j => b.list (j + 1)).length) ∧
    (n ≤ 32 → (b.buildVars n).thr = (List.range (n + 1)).map b.kraft) := by
  induction n with
  | zero => exact ⟨rfl, rfl, rfl, fun _ => rfl⟩
  | succ n ih =>
    obtain ⟨i1, i2, i3, i4⟩ := ih
    obtain ⟨a1, a2, a3, a4⟩ := BuildVars.addCodes_eq (b.buildVars n) (n + 1) (b.list (n + 1))
    have hsyms : ((b.buildVars n).addCodes (n + 1) (b.list (n + 1))).syms =
        (List.range (n + 1)).flatMap (fun j => b.list (j + 1)) := by
      rw [a1, i2, List.range_succ, List.flatMap_append]; simp
    simp only [Builder.buildVars, BuildVars.addLength]
    refine ⟨?_, hsyms, ?_, fun hn => ?_⟩
    · rw [a2, i1]; rfl
    · rw [a3, i3, hsyms, List.range_succ (n := n + 1), List.map_append]; rfl
    · rw [a4, i4 (by omega), List.range_succ (n := n + 1), List.map_append]
      simp only [List.map_cons, List.map_nil, a2, i1, Nat.shiftLeft_eq, Builder.kraft_succ]
      rw [Nat.add_mul, b.firstCode_mul (by omega)]
      rfl

/-- The thresholds of BUILD's table are the Kraft sums (42_table_builder R166). -/
theorem Builder.table_thr (b : Builder) {L : Nat} (h : L ≤ 32) : b.table.thr.getD L 0 = b.kraft L := by
  have h' : L < 33 := by omega
  simp [Builder.table, (b.buildVars_eq 32).2.2.2 (by omega), List.getD_eq_getElem?_getD, h']

/-- The offsets of BUILD's table count the symbols of at most a length (42_table_builder R166). -/
theorem Builder.table_ends (b : Builder) {L : Nat} (h : L ≤ 32) :
    b.table.ends.getD L 0 = ((List.range L).flatMap fun j => b.list (j + 1)).length := by
  have h' : L < 33 := by omega
  simp [Builder.table, (b.buildVars_eq 32).2.2.1, List.getD_eq_getElem?_getD, h']

/-- The symbols of BUILD's table, by length and then in add order (42_table_builder R166). -/
theorem Builder.table_syms (b : Builder) : b.table.syms = (List.range 32).flatMap (fun j => b.list (j + 1)) :=
  (b.buildVars_eq 32).2.1

/-- The `i`-th symbol of length `n + 1` stands after all symbols of shorter codes (42_table_builder R166). -/
theorem Builder.table_syms_at (b : Builder) {n i : Nat} (hn : n < 32) (hi : i < (b.list (n + 1)).length) :
    b.table.syms[((List.range n).flatMap fun j => b.list (j + 1)).length + i]? = (b.list (n + 1))[i]? := by
  have e : List.range 32 = List.range n ++ ([n] ++ (List.range (32 - (n + 1))).map (n + 1 + ·)) := by
    rw [← List.append_assoc, ← List.range_succ, ← List.range_add]
    congr 1; omega
  rw [Builder.table_syms, e, List.flatMap_append, List.flatMap_append,
    List.getElem?_append_right (by omega), Nat.add_sub_cancel_left]
  simp [List.getElem?_append_left hi]

/-! ## The hash table -/

/-- A fill within the table's bounds. -/
theorem fillSlots_get {hash : List (Option HashSlot)} {lo k : Nat} {slot : HashSlot} (h : lo + k ≤ hash.length) :
    (fillSlots hash lo k slot).length = hash.length ∧
    ∀ i, (fillSlots hash lo k slot)[i]? = if lo ≤ i ∧ i < lo + k then some (some slot) else hash[i]? := by
  refine ⟨by simp [fillSlots]; omega, fun i => ?_⟩
  simp only [fillSlots, List.append_assoc]
  by_cases h1 : i < lo
  · rw [List.getElem?_append_left (by simp; omega), List.getElem?_take]
    have : ¬ (lo ≤ i ∧ i < lo + k) := by omega
    simp [h1, this]
  · rw [List.getElem?_append_right (by simp; omega)]
    have e : (hash.take lo).length = lo := by simp; omega
    rw [e]
    by_cases h2 : i < lo + k
    · rw [List.getElem?_append_left (by simp; omega)]
      have : lo ≤ i ∧ i < lo + k := by omega
      have e2 : i - lo < k := by omega
      simp [this, e2]
    · rw [List.getElem?_append_right (by simp; omega)]
      have : ¬ (lo ≤ i ∧ i < lo + k) := by omega
      simp only [List.length_replicate, List.getElem?_drop, this, if_false]
      congr 1; omega

/-- BUILD's inner loop on the hash table, for codes of `L <= 8` bits that fit (42_table_builder R167). -/
theorem BuildVars.addCodes_hash {v : BuildVars} {L : Nat} (ss : List Nat) (hL : L ≤ 8) (hlen : v.hash.length = 256)
    (hfit : (v.code + ss.length) * 2 ^ (8 - L) ≤ 256) :
    (v.addCodes L ss).hash.length = 256 ∧ ∀ h, h < 256 →
      (v.addCodes L ss).hash[h]? =
        if v.code ≤ h / 2 ^ (8 - L) ∧ h / 2 ^ (8 - L) < v.code + ss.length then
          (ss[h / 2 ^ (8 - L) - v.code]?).map fun x => some ⟨x, L⟩
        else v.hash[h]? := by
  induction ss generalizing v with
  | nil => 
    refine ⟨hlen, fun h _ => ?_⟩
    have : ¬ (v.code ≤ h / 2 ^ (8 - L) ∧ h / 2 ^ (8 - L) < v.code + ([] : List Nat).length) := by simp
    simp only [this, if_false, BuildVars.addCodes]
  | cons x ss ih =>
    have hp : 0 < 2 ^ (8 - L) := Nat.two_pow_pos _
    have hx : (v.code + 1) * 2 ^ (8 - L) ≤ 256 :=
      le_trans (Nat.mul_le_mul_right _ (by simp)) hfit
    have hsh : v.code <<< (8 - L) + 2 ^ (8 - L) = (v.code + 1) * 2 ^ (8 - L) := by
      rw [Nat.shiftLeft_eq]; ring
    obtain ⟨f1, f2⟩ := fillSlots_get (hash := v.hash) (lo := v.code <<< (8 - L)) (k := 2 ^ (8 - L)) (slot := ⟨x, L⟩)
      (by omega)
    obtain ⟨i1, i2⟩ := ih (v := { v with
        syms := v.syms ++ [x]
        hash := fillSlots v.hash (v.code <<< (8 - L)) (2 ^ (8 - L)) ⟨x, L⟩
        code := v.code + 1 }) (by simp only; omega)
      (by simp only; rw [show v.code + 1 + ss.length = v.code + (x :: ss).length by simp; omega]; exact hfit)
    have hL' : L ≤ Config.hashBits := hL
    simp only [BuildVars.addCodes, hL', if_true]
    refine ⟨i1, fun h hh => ?_⟩
    rw [i2 h hh]
    simp only [f2, List.length_cons]
    have key : (v.code <<< (8 - L) ≤ h ∧ h < v.code <<< (8 - L) + 2 ^ (8 - L)) ↔ h / 2 ^ (8 - L) = v.code := by
      rw [hsh, Nat.shiftLeft_eq, Nat.div_eq_iff hp]
      have : (v.code + 1) * 2 ^ (8 - L) = v.code * 2 ^ (8 - L) + 2 ^ (8 - L) := by ring
      omega
    generalize h / 2 ^ (8 - L) = q at key
    by_cases c1 : q = v.code
    · have a1 : ¬ (v.code + 1 ≤ q ∧ q < v.code + 1 + ss.length) := by omega
      have a2 : v.code ≤ q ∧ q < v.code + (ss.length + 1) := by omega
      simp only [a1, if_false, key.mpr c1, a2, and_self, if_true]
      simp [c1]
    · have a0 : ¬ (v.code <<< (8 - L) ≤ h ∧ h < v.code <<< (8 - L) + 2 ^ (8 - L)) := fun t => c1 (key.mp t)
      simp only [a0, if_false]
      by_cases c2 : v.code + 1 ≤ q ∧ q < v.code + 1 + ss.length
      · have a2 : v.code ≤ q ∧ q < v.code + (ss.length + 1) := by omega
        simp only [c2, and_self, if_true, a2]
        rw [show q - v.code = (q - (v.code + 1)) + 1 by omega]
        simp
      · have a2 : ¬ (v.code ≤ q ∧ q < v.code + (ss.length + 1)) := by omega
        simp only [c2, a2, if_false]

/-- Codes of more than 8 bits set no slot (42_table_builder R167). -/
theorem BuildVars.addCodes_hash_long (v : BuildVars) {L : Nat} (ss : List Nat) (hL : 8 < L) :
    (v.addCodes L ss).hash = v.hash := by
  have hL' : ¬ L ≤ Config.hashBits := by simp; omega
  induction ss generalizing v with
  | nil => rfl
  | cons x ss ih => simp only [BuildVars.addCodes, hL', if_false]; rw [ih]

/-- A code of `L <= 8` bits at the head of slot `h`: where the slot stands against the Kraft sums. -/
theorem Builder.code_bounds {b : Builder} {L i h : Nat} (h1 : 1 ≤ L) (h8 : L ≤ 8) (hi : i < (b.list L).length)
    (hc : h / 2 ^ (8 - L) = b.code L i) : b.kraft (L - 1) ≤ h * 2 ^ 24 ∧ (h + 1) * 2 ^ 24 ≤ b.kraft L := by
  obtain ⟨n, rfl⟩ : ∃ n, L = n + 1 := ⟨L - 1, by omega⟩
  have hp : 0 < 2 ^ (8 - (n + 1)) := Nat.two_pow_pos _
  rw [Nat.div_eq_iff hp] at hc
  have hk := b.firstCode_mul (n := n) (by omega)
  have e : 2 ^ (32 - (n + 1)) = 2 ^ (8 - (n + 1)) * 2 ^ 24 := by rw [← Nat.pow_add]; congr 1; omega
  simp only [Builder.code, Nat.add_sub_cancel] at hc ⊢
  have hi' : i + 1 ≤ b.count (n + 1) := hi
  rw [e, ← Nat.mul_assoc] at hk
  rw [Builder.kraft_succ]
  rw [e, ← Nat.mul_assoc, ← hk, ← Nat.add_mul, ← Nat.add_mul]
  have e2 : (b.firstCode n + i + 1) * 2 ^ (8 - (n + 1)) ≤ (b.firstCode n + b.count (n + 1)) * 2 ^ (8 - (n + 1)) :=
    Nat.mul_le_mul_right _ (by omega)
  have e3 : (b.firstCode n + i + 1) * 2 ^ (8 - (n + 1)) =
      (b.firstCode n + i) * 2 ^ (8 - (n + 1)) + 2 ^ (8 - (n + 1)) := by ring
  have e4 : b.firstCode n * 2 ^ (8 - (n + 1)) ≤ (b.firstCode n + i) * 2 ^ (8 - (n + 1)) :=
    Nat.mul_le_mul_right _ (by omega)
  exact ⟨Nat.mul_le_mul_right _ (by omega), Nat.mul_le_mul_right _ (by omega)⟩

/-- The slots after the lengths `1 .. n`, `n <= 8`, of codes that fit: a slot is present exactly where its index
begins with a code of such a length (42_table_builder R167; 10_state R30 (e)). -/
theorem Builder.buildVars_hash {b : Builder} {n : Nat} (hn : n ≤ 8) (hk : b.kraft n ≤ 2 ^ 32) :
    (b.buildVars n).hash.length = 256 ∧ ∀ h e, h < 256 → ((b.buildVars n).hash[h]? = some (some e) ↔
      ∃ L i, 1 ≤ L ∧ L ≤ n ∧ (b.list L)[i]? = some e.sym ∧ e.len = L ∧ h / 2 ^ (8 - L) = b.code L i) := by
  induction n with
  | zero =>
    have e0 : (b.buildVars 0).hash = List.replicate 256 none := rfl
    rw [e0]
    refine ⟨List.length_replicate, fun h e hh => ?_⟩
    rw [List.getElem?_replicate, if_pos hh]
    constructor
    · intro h; cases h
    · rintro ⟨L, i, a, b, _⟩; omega
  | succ n ih =>
    obtain ⟨ih1, ih2⟩ := ih (by omega) (le_trans (b.kraft_mono (by omega)) hk)
    have hcode := (b.buildVars_eq n).1
    have hf := b.firstCode_mul (n := n) (by omega)
    have e24 : 2 ^ (32 - (n + 1)) = 2 ^ (8 - (n + 1)) * 2 ^ 24 := by rw [← Nat.pow_add]; congr 1; omega
    have hfit : ((b.buildVars n).code + (b.list (n + 1)).length) * 2 ^ (8 - (n + 1)) ≤ 256 := by
      have h1 : ((b.buildVars n).code + (b.list (n + 1)).length) * 2 ^ (8 - (n + 1)) * 2 ^ 24 ≤ 256 * 2 ^ 24 := by
        rw [Nat.mul_assoc, ← e24, hcode, Nat.add_mul, hf]
        rw [Builder.kraft_succ] at hk
        exact hk
      exact Nat.le_of_mul_le_mul_right h1 (by norm_num)
    obtain ⟨a1, a2⟩ := BuildVars.addCodes_hash (v := b.buildVars n) (b.list (n + 1)) hn ih1 hfit
    simp only [Builder.buildVars, BuildVars.addLength]
    refine ⟨a1, fun h e hh => ?_⟩
    rw [a2 h hh, hcode]
    by_cases hin : b.firstCode n ≤ h / 2 ^ (8 - (n + 1)) ∧ h / 2 ^ (8 - (n + 1)) < b.firstCode n + (b.list (n + 1)).length
    · rw [if_pos hin]
      constructor
      · intro hx
        obtain ⟨x, hx1, hx2⟩ := Option.map_eq_some_iff.mp hx
        simp only [Option.some.injEq] at hx2
        subst hx2
        exact ⟨n + 1, _, by omega, by omega, hx1, rfl, by simp only [Builder.code, Nat.add_sub_cancel]; omega⟩
      · rintro ⟨L, i, l1, l2, hs, hl, hc⟩
        rcases Nat.eq_or_lt_of_le l2 with rfl | l2
        · simp only [Builder.code, Nat.add_sub_cancel] at hc
          rw [hc, Nat.add_sub_cancel_left, hs, ← hl]
          rfl
        · have hi : i < (b.list L).length := (List.getElem?_eq_some_iff.mp hs).1
          have := (Builder.code_bounds l1 (by omega) hi hc).2
          have hm := b.kraft_mono (m := L) (n := n) (by omega)
          have hge : b.firstCode n * 2 ^ (8 - (n + 1)) ≤ h := by
            have := Nat.div_mul_le_self h (2 ^ (8 - (n + 1)))
            exact le_trans (Nat.mul_le_mul_right _ hin.1) this
          have : b.kraft n ≤ h * 2 ^ 24 := by
            rw [← hf, e24, ← Nat.mul_assoc]; exact Nat.mul_le_mul_right _ hge
          omega
    · rw [if_neg hin, ih2 h e hh]
      constructor
      · rintro ⟨L, i, l1, l2, r⟩; exact ⟨L, i, l1, by omega, r⟩
      · rintro ⟨L, i, l1, l2, hs, hl, hc⟩
        rcases Nat.eq_or_lt_of_le l2 with rfl | l2
        · have hi : i < (b.list (n + 1)).length := (List.getElem?_eq_some_iff.mp hs).1
          simp only [Builder.code, Nat.add_sub_cancel] at hc
          omega
        · exact ⟨L, i, l1, by omega, hs, hl, hc⟩

/-- Lengths above 8 leave the slots as length 8 left them. -/
theorem Builder.buildVars_hash_long (b : Builder) {n : Nat} (h : 8 ≤ n) :
    (b.buildVars n).hash = (b.buildVars 8).hash := by
  induction n, h using Nat.le_induction with
  | base => rfl
  | succ n hn ih =>
    rw [← ih]
    exact BuildVars.addCodes_hash_long _ _ (by omega)

/-- The hash table of the table BUILD makes of codes that fit (42_table_builder R167; 10_state R30 (e)). -/
theorem Builder.table_hash {b : Builder} (hk : b.kraft 32 ≤ 2 ^ 32) :
    b.table.hash.length = 256 ∧ ∀ h e, h < 256 → (b.table.hash[h]? = some (some e) ↔
      ∃ L i, 1 ≤ L ∧ L ≤ 8 ∧ (b.list L)[i]? = some e.sym ∧ e.len = L ∧ h / 2 ^ (8 - L) = b.code L i) := by
  have e : b.table.hash = (b.buildVars 32).hash := by unfold Builder.table; rfl
  rw [e, b.buildVars_hash_long (by omega)]
  exact Builder.buildVars_hash (le_refl _) (le_trans (b.kraft_mono (by omega)) hk)

/-! ## BUILD -/

/-- What BUILD answers (42_table_builder R164, R169). -/
theorem Builder.build_eq_some {b : Builder} {T : Table} : b.build = some T ↔ b.kraft 32 ≤ 2 ^ 32 ∧ T = b.table := by
  simp only [Builder.build]
  split
  · simp only [Option.some.injEq]
    exact ⟨fun h => ⟨‹_›, h.symm⟩, fun h => h.2.symm⟩
  · simp only [reduceCtorEq, false_iff, not_and]
    exact fun h => absurd h ‹_›

/-- Where BUILD raises (42_table_builder R169). -/
theorem Builder.build_eq_none {b : Builder} : b.build = none ↔ 2 ^ 32 < b.kraft 32 := by
  simp only [Builder.build]
  split
  · simp only [reduceCtorEq, false_iff]; omega
  · simp only [true_iff]; omega

/-- The table of a sound builder is sound (10_state R28). -/
theorem Builder.Ok.table {b : Builder} (h : b.Ok) (hk : b.kraft 32 ≤ 2 ^ 32) : b.table.Ok := by
  have hl : ∀ L, ∀ x ∈ b.list L, x < 285 := by
    intro L x hx
    rcases b.list_mem L with hm | hm
    · exact h.2 _ hm x hx
    · simp [hm] at hx
  refine ⟨fun x hx => ?_, fun e he => ?_⟩
  · rw [Builder.table_syms, List.mem_flatMap] at hx
    obtain ⟨j, _, hx⟩ := hx
    exact hl _ x hx
  · obtain ⟨i, hi⟩ := List.mem_iff_getElem?.mp he
    obtain ⟨h1, h2⟩ := Builder.table_hash hk
    have hlt : i < 256 := by rw [← h1]; exact (List.getElem?_eq_some_iff.mp hi).1
    obtain ⟨L, k, a1, a2, a3, a4, _⟩ := (h2 i e hlt).mp hi
    exact ⟨hl L _ (List.mem_of_getElem? a3), by omega, by omega⟩

/-- The table is marked empty exactly where no symbol has a length of 1 to 32 (42_table_builder R168). -/
theorem Builder.table_empty_iff (b : Builder) :
    b.table.empty = true ↔ ∀ L, 1 ≤ L → L ≤ 32 → b.list L = [] := by
  have e : b.table.empty = decide (b.table.syms.length = 0) := rfl
  rw [e, decide_eq_true_eq, List.length_eq_zero_iff, Builder.table_syms, List.flatMap_eq_nil_iff]
  constructor
  · intro h L h1 h2
    have := h (L - 1) (List.mem_range.mpr (by omega))
    rwa [show L - 1 + 1 = L by omega] at this
  · intro h j hj
    have := List.mem_range.mp hj
    exact h (j + 1) (by omega) (by omega)

/-- The table of a cleared builder (42_table_builder R168). -/
theorem Builder.cleared_table : Builder.cleared.table = Table.emptyTable := by decide +kernel

end Sys2Proof.Machine
end

