-- ==== Sys2Proof/Laws/State.lean ====
section
/-!
SUPPORT. One lemma per field per update of the state, and how results pass through `bind` and `outcome`.
-/

namespace Sys2Proof.Machine

@[simp] theorem State.takeError_argInLen (s : State) (e : ErrKind) : (s.takeError e).argInLen = s.argInLen := rfl
@[simp] theorem State.takeError_argOutHint (s : State) (e : ErrKind) : (s.takeError e).argOutHint = s.argOutHint := rfl
@[simp] theorem State.takeError_argOutPresent (s : State) (e : ErrKind) : (s.takeError e).argOutPresent = s.argOutPresent := rfl
@[simp] theorem State.takeError_status (s : State) (e : ErrKind) : (s.takeError e).status = .error := rfl
@[simp] theorem State.takeError_err (s : State) (e : ErrKind) : (s.takeError e).err = some e := rfl
@[simp] theorem State.takeError_outLen (s : State) (e : ErrKind) : (s.takeError e).outLen = 0 := rfl
@[simp] theorem State.takeError_softEof (s : State) (e : ErrKind) : (s.takeError e).softEof = false := rfl
@[simp] theorem State.takeError_statusDeclared (s : State) (e : ErrKind) : (s.takeError e).statusDeclared = s.statusDeclared := rfl
@[simp] theorem State.takeError_statusTarget (s : State) (e : ErrKind) : (s.takeError e).statusTarget = s.statusTarget := rfl
@[simp] theorem State.takeError_phase (s : State) (e : ErrKind) : (s.takeError e).phase = if s.phase = .resetInit then .failed else .idle := rfl
@[simp] theorem State.takeError_bc (s : State) (e : ErrKind) : (s.takeError e).bc = s.bc := rfl
@[simp] theorem State.takeError_declared (s : State) (e : ErrKind) : (s.takeError e).declared = s.declared := rfl
@[simp] theorem State.takeError_target (s : State) (e : ErrKind) : (s.takeError e).target = s.target := rfl
@[simp] theorem State.takeError_outPos (s : State) (e : ErrKind) : (s.takeError e).outPos = s.outPos := rfl
@[simp] theorem State.takeError_wsb (s : State) (e : ErrKind) : (s.takeError e).wsb = s.wsb := rfl
@[simp] theorem State.takeError_codesLeft (s : State) (e : ErrKind) : (s.takeError e).codesLeft = s.codesLeft := rfl
@[simp] theorem State.takeError_tpN (s : State) (e : ErrKind) : (s.takeError e).tpN = s.tpN := rfl
@[simp] theorem State.takeError_tpRem (s : State) (e : ErrKind) : (s.takeError e).tpRem = s.tpRem := rfl
@[simp] theorem State.takeError_cpSym (s : State) (e : ErrKind) : (s.takeError e).cpSym = s.cpSym := rfl
@[simp] theorem State.takeError_cpLen (s : State) (e : ErrKind) : (s.takeError e).cpLen = s.cpLen := rfl
@[simp] theorem State.takeError_cpDist (s : State) (e : ErrKind) : (s.takeError e).cpDist = s.cpDist := rfl
@[simp] theorem State.takeError_symT (s : State) (e : ErrKind) : (s.takeError e).symT = s.symT := rfl
@[simp] theorem State.takeError_copyT (s : State) (e : ErrKind) : (s.takeError e).copyT = s.copyT := rfl
@[simp] theorem State.takeError_bootT (s : State) (e : ErrKind) : (s.takeError e).bootT = s.bootT := rfl
@[simp] theorem State.takeError_builder (s : State) (e : ErrKind) : (s.takeError e).builder = s.builder := rfl
@[simp] theorem State.takeError_inMem (s : State) (e : ErrKind) : (s.takeError e).inMem = s.inMem := rfl
@[simp] theorem State.takeError_outMem (s : State) (e : ErrKind) : (s.takeError e).outMem = s.outMem := rfl
@[simp] theorem State.takeError_bootDict (s : State) (e : ErrKind) : (s.takeError e).bootDict = s.bootDict := rfl
@[simp] theorem State.takeError_length (s : State) (e : ErrKind) : (s.takeError e).length = s.length := rfl
@[simp] theorem State.takeError_distance (s : State) (e : ErrKind) : (s.takeError e).distance = s.distance := rfl
@[simp] theorem State.takeError_seq (s : State) (e : ErrKind) : (s.takeError e).seq = s.seq := rfl
@[simp] theorem State.takeError_ret (s : State) (e : ErrKind) : (s.takeError e).ret = s.ret := rfl
@[simp] theorem State.takeError_host (s : State) (e : ErrKind) : (s.takeError e).host = s.host := rfl

@[simp] theorem State.softStop_argInLen (s : State) : s.softStop.argInLen = s.argInLen := rfl
@[simp] theorem State.softStop_argOutHint (s : State) : s.softStop.argOutHint = s.argOutHint := rfl
@[simp] theorem State.softStop_argOutPresent (s : State) : s.softStop.argOutPresent = s.argOutPresent := rfl
@[simp] theorem State.softStop_status (s : State) : s.softStop.status = .done := rfl
@[simp] theorem State.softStop_err (s : State) : s.softStop.err = s.err := rfl
@[simp] theorem State.softStop_outLen (s : State) : s.softStop.outLen = BitVec.ofNat 32 s.outPos := rfl
@[simp] theorem State.softStop_softEof (s : State) : s.softStop.softEof = true := rfl
@[simp] theorem State.softStop_statusDeclared (s : State) : s.softStop.statusDeclared = s.statusDeclared := rfl
@[simp] theorem State.softStop_statusTarget (s : State) : s.softStop.statusTarget = s.statusTarget := rfl
@[simp] theorem State.softStop_phase (s : State) : s.softStop.phase = .idle := rfl
@[simp] theorem State.softStop_bc (s : State) : s.softStop.bc = s.bc := rfl
@[simp] theorem State.softStop_declared (s : State) : s.softStop.declared = s.declared := rfl
@[simp] theorem State.softStop_target (s : State) : s.softStop.target = s.target := rfl
@[simp] theorem State.softStop_outPos (s : State) : s.softStop.outPos = s.outPos := rfl
@[simp] theorem State.softStop_wsb (s : State) : s.softStop.wsb = s.wsb := rfl
@[simp] theorem State.softStop_codesLeft (s : State) : s.softStop.codesLeft = s.codesLeft := rfl
@[simp] theorem State.softStop_tpN (s : State) : s.softStop.tpN = s.tpN := rfl
@[simp] theorem State.softStop_tpRem (s : State) : s.softStop.tpRem = s.tpRem := rfl
@[simp] theorem State.softStop_cpSym (s : State) : s.softStop.cpSym = s.cpSym := rfl
@[simp] theorem State.softStop_cpLen (s : State) : s.softStop.cpLen = s.cpLen := rfl
@[simp] theorem State.softStop_cpDist (s : State) : s.softStop.cpDist = s.cpDist := rfl
@[simp] theorem State.softStop_symT (s : State) : s.softStop.symT = s.symT := rfl
@[simp] theorem State.softStop_copyT (s : State) : s.softStop.copyT = s.copyT := rfl
@[simp] theorem State.softStop_bootT (s : State) : s.softStop.bootT = s.bootT := rfl
@[simp] theorem State.softStop_builder (s : State) : s.softStop.builder = s.builder := rfl
@[simp] theorem State.softStop_inMem (s : State) : s.softStop.inMem = s.inMem := rfl
@[simp] theorem State.softStop_outMem (s : State) : s.softStop.outMem = s.outMem := rfl
@[simp] theorem State.softStop_bootDict (s : State) : s.softStop.bootDict = s.bootDict := rfl
@[simp] theorem State.softStop_length (s : State) : s.softStop.length = s.length := rfl
@[simp] theorem State.softStop_distance (s : State) : s.softStop.distance = s.distance := rfl
@[simp] theorem State.softStop_seq (s : State) : s.softStop.seq = s.seq := rfl
@[simp] theorem State.softStop_ret (s : State) : s.softStop.ret = s.ret := rfl
@[simp] theorem State.softStop_host (s : State) : s.softStop.host = s.host := rfl

@[simp] theorem State.finish_argInLen (s : State) : s.finish.argInLen = s.argInLen := rfl
@[simp] theorem State.finish_argOutHint (s : State) : s.finish.argOutHint = s.argOutHint := rfl
@[simp] theorem State.finish_argOutPresent (s : State) : s.finish.argOutPresent = s.argOutPresent := rfl
@[simp] theorem State.finish_status (s : State) : s.finish.status = .done := rfl
@[simp] theorem State.finish_err (s : State) : s.finish.err = s.err := rfl
@[simp] theorem State.finish_outLen (s : State) : s.finish.outLen = BitVec.ofNat 32 s.outPos := rfl
@[simp] theorem State.finish_softEof (s : State) : s.finish.softEof = false := rfl
@[simp] theorem State.finish_statusDeclared (s : State) : s.finish.statusDeclared = s.statusDeclared := rfl
@[simp] theorem State.finish_statusTarget (s : State) : s.finish.statusTarget = s.statusTarget := rfl
@[simp] theorem State.finish_phase (s : State) : s.finish.phase = .idle := rfl
@[simp] theorem State.finish_bc (s : State) : s.finish.bc = s.bc := rfl
@[simp] theorem State.finish_declared (s : State) : s.finish.declared = s.declared := rfl
@[simp] theorem State.finish_target (s : State) : s.finish.target = s.target := rfl
@[simp] theorem State.finish_outPos (s : State) : s.finish.outPos = s.outPos := rfl
@[simp] theorem State.finish_wsb (s : State) : s.finish.wsb = s.wsb := rfl
@[simp] theorem State.finish_codesLeft (s : State) : s.finish.codesLeft = s.codesLeft := rfl
@[simp] theorem State.finish_tpN (s : State) : s.finish.tpN = s.tpN := rfl
@[simp] theorem State.finish_tpRem (s : State) : s.finish.tpRem = s.tpRem := rfl
@[simp] theorem State.finish_cpSym (s : State) : s.finish.cpSym = s.cpSym := rfl
@[simp] theorem State.finish_cpLen (s : State) : s.finish.cpLen = s.cpLen := rfl
@[simp] theorem State.finish_cpDist (s : State) : s.finish.cpDist = s.cpDist := rfl
@[simp] theorem State.finish_symT (s : State) : s.finish.symT = s.symT := rfl
@[simp] theorem State.finish_copyT (s : State) : s.finish.copyT = s.copyT := rfl
@[simp] theorem State.finish_bootT (s : State) : s.finish.bootT = s.bootT := rfl
@[simp] theorem State.finish_builder (s : State) : s.finish.builder = s.builder := rfl
@[simp] theorem State.finish_inMem (s : State) : s.finish.inMem = s.inMem := rfl
@[simp] theorem State.finish_outMem (s : State) : s.finish.outMem = s.outMem := rfl
@[simp] theorem State.finish_bootDict (s : State) : s.finish.bootDict = s.bootDict := rfl
@[simp] theorem State.finish_length (s : State) : s.finish.length = s.length := rfl
@[simp] theorem State.finish_distance (s : State) : s.finish.distance = s.distance := rfl
@[simp] theorem State.finish_seq (s : State) : s.finish.seq = s.seq := rfl
@[simp] theorem State.finish_ret (s : State) : s.finish.ret = s.ret := rfl
@[simp] theorem State.finish_host (s : State) : s.finish.host = s.host := rfl

@[simp] theorem State.clearForStart_argInLen (s : State) : s.clearForStart.argInLen = s.argInLen := rfl
@[simp] theorem State.clearForStart_argOutHint (s : State) : s.clearForStart.argOutHint = s.argOutHint := rfl
@[simp] theorem State.clearForStart_argOutPresent (s : State) : s.clearForStart.argOutPresent = s.argOutPresent := rfl
@[simp] theorem State.clearForStart_status (s : State) : s.clearForStart.status = .busy := rfl
@[simp] theorem State.clearForStart_err (s : State) : s.clearForStart.err = none := rfl
@[simp] theorem State.clearForStart_outLen (s : State) : s.clearForStart.outLen = 0 := rfl
@[simp] theorem State.clearForStart_softEof (s : State) : s.clearForStart.softEof = false := rfl
@[simp] theorem State.clearForStart_statusDeclared (s : State) : s.clearForStart.statusDeclared = 0 := rfl
@[simp] theorem State.clearForStart_statusTarget (s : State) : s.clearForStart.statusTarget = 0 := rfl
@[simp] theorem State.clearForStart_phase (s : State) : s.clearForStart.phase = s.phase := rfl
@[simp] theorem State.clearForStart_bc (s : State) : s.clearForStart.bc = s.bc := rfl
@[simp] theorem State.clearForStart_declared (s : State) : s.clearForStart.declared = s.declared := rfl
@[simp] theorem State.clearForStart_target (s : State) : s.clearForStart.target = s.target := rfl
@[simp] theorem State.clearForStart_outPos (s : State) : s.clearForStart.outPos = s.outPos := rfl
@[simp] theorem State.clearForStart_wsb (s : State) : s.clearForStart.wsb = s.wsb := rfl
@[simp] theorem State.clearForStart_codesLeft (s : State) : s.clearForStart.codesLeft = s.codesLeft := rfl
@[simp] theorem State.clearForStart_tpN (s : State) : s.clearForStart.tpN = s.tpN := rfl
@[simp] theorem State.clearForStart_tpRem (s : State) : s.clearForStart.tpRem = s.tpRem := rfl
@[simp] theorem State.clearForStart_cpSym (s : State) : s.clearForStart.cpSym = s.cpSym := rfl
@[simp] theorem State.clearForStart_cpLen (s : State) : s.clearForStart.cpLen = s.cpLen := rfl
@[simp] theorem State.clearForStart_cpDist (s : State) : s.clearForStart.cpDist = s.cpDist := rfl
@[simp] theorem State.clearForStart_symT (s : State) : s.clearForStart.symT = s.symT := rfl
@[simp] theorem State.clearForStart_copyT (s : State) : s.clearForStart.copyT = s.copyT := rfl
@[simp] theorem State.clearForStart_bootT (s : State) : s.clearForStart.bootT = s.bootT := rfl
@[simp] theorem State.clearForStart_builder (s : State) : s.clearForStart.builder = s.builder := rfl
@[simp] theorem State.clearForStart_inMem (s : State) : s.clearForStart.inMem = s.inMem := rfl
@[simp] theorem State.clearForStart_outMem (s : State) : s.clearForStart.outMem = s.outMem := rfl
@[simp] theorem State.clearForStart_bootDict (s : State) : s.clearForStart.bootDict = s.bootDict := rfl
@[simp] theorem State.clearForStart_length (s : State) : s.clearForStart.length = s.length := rfl
@[simp] theorem State.clearForStart_distance (s : State) : s.clearForStart.distance = s.distance := rfl
@[simp] theorem State.clearForStart_seq (s : State) : s.clearForStart.seq = s.seq := rfl
@[simp] theorem State.clearForStart_ret (s : State) : s.clearForStart.ret = s.ret := rfl
@[simp] theorem State.clearForStart_host (s : State) : s.clearForStart.host = s.host := rfl

@[simp] theorem State.clearBuilder_argInLen (s : State) : s.clearBuilder.argInLen = s.argInLen := rfl
@[simp] theorem State.clearBuilder_argOutHint (s : State) : s.clearBuilder.argOutHint = s.argOutHint := rfl
@[simp] theorem State.clearBuilder_argOutPresent (s : State) : s.clearBuilder.argOutPresent = s.argOutPresent := rfl
@[simp] theorem State.clearBuilder_status (s : State) : s.clearBuilder.status = s.status := rfl
@[simp] theorem State.clearBuilder_err (s : State) : s.clearBuilder.err = s.err := rfl
@[simp] theorem State.clearBuilder_outLen (s : State) : s.clearBuilder.outLen = s.outLen := rfl
@[simp] theorem State.clearBuilder_softEof (s : State) : s.clearBuilder.softEof = s.softEof := rfl
@[simp] theorem State.clearBuilder_statusDeclared (s : State) : s.clearBuilder.statusDeclared = s.statusDeclared := rfl
@[simp] theorem State.clearBuilder_statusTarget (s : State) : s.clearBuilder.statusTarget = s.statusTarget := rfl
@[simp] theorem State.clearBuilder_phase (s : State) : s.clearBuilder.phase = s.phase := rfl
@[simp] theorem State.clearBuilder_bc (s : State) : s.clearBuilder.bc = s.bc := rfl
@[simp] theorem State.clearBuilder_declared (s : State) : s.clearBuilder.declared = s.declared := rfl
@[simp] theorem State.clearBuilder_target (s : State) : s.clearBuilder.target = s.target := rfl
@[simp] theorem State.clearBuilder_outPos (s : State) : s.clearBuilder.outPos = s.outPos := rfl
@[simp] theorem State.clearBuilder_wsb (s : State) : s.clearBuilder.wsb = s.wsb := rfl
@[simp] theorem State.clearBuilder_codesLeft (s : State) : s.clearBuilder.codesLeft = s.codesLeft := rfl
@[simp] theorem State.clearBuilder_tpN (s : State) : s.clearBuilder.tpN = s.tpN := rfl
@[simp] theorem State.clearBuilder_tpRem (s : State) : s.clearBuilder.tpRem = s.tpRem := rfl
@[simp] theorem State.clearBuilder_cpSym (s : State) : s.clearBuilder.cpSym = s.cpSym := rfl
@[simp] theorem State.clearBuilder_cpLen (s : State) : s.clearBuilder.cpLen = s.cpLen := rfl
@[simp] theorem State.clearBuilder_cpDist (s : State) : s.clearBuilder.cpDist = s.cpDist := rfl
@[simp] theorem State.clearBuilder_symT (s : State) : s.clearBuilder.symT = s.symT := rfl
@[simp] theorem State.clearBuilder_copyT (s : State) : s.clearBuilder.copyT = s.copyT := rfl
@[simp] theorem State.clearBuilder_bootT (s : State) : s.clearBuilder.bootT = s.bootT := rfl
@[simp] theorem State.clearBuilder_builder (s : State) : s.clearBuilder.builder = Builder.cleared := rfl
@[simp] theorem State.clearBuilder_inMem (s : State) : s.clearBuilder.inMem = s.inMem := rfl
@[simp] theorem State.clearBuilder_outMem (s : State) : s.clearBuilder.outMem = s.outMem := rfl
@[simp] theorem State.clearBuilder_bootDict (s : State) : s.clearBuilder.bootDict = s.bootDict := rfl
@[simp] theorem State.clearBuilder_length (s : State) : s.clearBuilder.length = s.length := rfl
@[simp] theorem State.clearBuilder_distance (s : State) : s.clearBuilder.distance = s.distance := rfl
@[simp] theorem State.clearBuilder_seq (s : State) : s.clearBuilder.seq = s.seq := rfl
@[simp] theorem State.clearBuilder_ret (s : State) : s.clearBuilder.ret = s.ret := rfl
@[simp] theorem State.clearBuilder_host (s : State) : s.clearBuilder.host = s.host := rfl

@[simp] theorem State.skipRun_argInLen (s : State) (rep : Nat) : (s.skipRun rep).argInLen = s.argInLen := rfl
@[simp] theorem State.skipRun_argOutHint (s : State) (rep : Nat) : (s.skipRun rep).argOutHint = s.argOutHint := rfl
@[simp] theorem State.skipRun_argOutPresent (s : State) (rep : Nat) : (s.skipRun rep).argOutPresent = s.argOutPresent := rfl
@[simp] theorem State.skipRun_status (s : State) (rep : Nat) : (s.skipRun rep).status = s.status := rfl
@[simp] theorem State.skipRun_err (s : State) (rep : Nat) : (s.skipRun rep).err = s.err := rfl
@[simp] theorem State.skipRun_outLen (s : State) (rep : Nat) : (s.skipRun rep).outLen = s.outLen := rfl
@[simp] theorem State.skipRun_softEof (s : State) (rep : Nat) : (s.skipRun rep).softEof = s.softEof := rfl
@[simp] theorem State.skipRun_statusDeclared (s : State) (rep : Nat) : (s.skipRun rep).statusDeclared = s.statusDeclared := rfl
@[simp] theorem State.skipRun_statusTarget (s : State) (rep : Nat) : (s.skipRun rep).statusTarget = s.statusTarget := rfl
@[simp] theorem State.skipRun_phase (s : State) (rep : Nat) : (s.skipRun rep).phase = s.phase := rfl
@[simp] theorem State.skipRun_bc (s : State) (rep : Nat) : (s.skipRun rep).bc = s.bc := rfl
@[simp] theorem State.skipRun_declared (s : State) (rep : Nat) : (s.skipRun rep).declared = s.declared := rfl
@[simp] theorem State.skipRun_target (s : State) (rep : Nat) : (s.skipRun rep).target = s.target := rfl
@[simp] theorem State.skipRun_outPos (s : State) (rep : Nat) : (s.skipRun rep).outPos = s.outPos := rfl
@[simp] theorem State.skipRun_wsb (s : State) (rep : Nat) : (s.skipRun rep).wsb = s.wsb := rfl
@[simp] theorem State.skipRun_codesLeft (s : State) (rep : Nat) : (s.skipRun rep).codesLeft = s.codesLeft := rfl
@[simp] theorem State.skipRun_tpN (s : State) (rep : Nat) : (s.skipRun rep).tpN = s.tpN := rfl
@[simp] theorem State.skipRun_tpRem (s : State) (rep : Nat) : (s.skipRun rep).tpRem = s.tpRem - rep := rfl
@[simp] theorem State.skipRun_cpSym (s : State) (rep : Nat) : (s.skipRun rep).cpSym = s.cpSym := rfl
@[simp] theorem State.skipRun_cpLen (s : State) (rep : Nat) : (s.skipRun rep).cpLen = s.cpLen := rfl
@[simp] theorem State.skipRun_cpDist (s : State) (rep : Nat) : (s.skipRun rep).cpDist = s.cpDist := rfl
@[simp] theorem State.skipRun_symT (s : State) (rep : Nat) : (s.skipRun rep).symT = s.symT := rfl
@[simp] theorem State.skipRun_copyT (s : State) (rep : Nat) : (s.skipRun rep).copyT = s.copyT := rfl
@[simp] theorem State.skipRun_bootT (s : State) (rep : Nat) : (s.skipRun rep).bootT = s.bootT := rfl
@[simp] theorem State.skipRun_builder (s : State) (rep : Nat) : (s.skipRun rep).builder = s.builder := rfl
@[simp] theorem State.skipRun_inMem (s : State) (rep : Nat) : (s.skipRun rep).inMem = s.inMem := rfl
@[simp] theorem State.skipRun_outMem (s : State) (rep : Nat) : (s.skipRun rep).outMem = s.outMem := rfl
@[simp] theorem State.skipRun_bootDict (s : State) (rep : Nat) : (s.skipRun rep).bootDict = s.bootDict := rfl
@[simp] theorem State.skipRun_length (s : State) (rep : Nat) : (s.skipRun rep).length = s.length := rfl
@[simp] theorem State.skipRun_distance (s : State) (rep : Nat) : (s.skipRun rep).distance = s.distance := rfl
@[simp] theorem State.skipRun_seq (s : State) (rep : Nat) : (s.skipRun rep).seq = s.seq := rfl
@[simp] theorem State.skipRun_ret (s : State) (rep : Nat) : (s.skipRun rep).ret = s.ret := rfl
@[simp] theorem State.skipRun_host (s : State) (rep : Nat) : (s.skipRun rep).host = s.host := rfl

@[simp] theorem State.setLength_argInLen (s : State) (l : Nat) : (s.setLength l).argInLen = s.argInLen := rfl
@[simp] theorem State.setLength_argOutHint (s : State) (l : Nat) : (s.setLength l).argOutHint = s.argOutHint := rfl
@[simp] theorem State.setLength_argOutPresent (s : State) (l : Nat) : (s.setLength l).argOutPresent = s.argOutPresent := rfl
@[simp] theorem State.setLength_status (s : State) (l : Nat) : (s.setLength l).status = s.status := rfl
@[simp] theorem State.setLength_err (s : State) (l : Nat) : (s.setLength l).err = s.err := rfl
@[simp] theorem State.setLength_outLen (s : State) (l : Nat) : (s.setLength l).outLen = s.outLen := rfl
@[simp] theorem State.setLength_softEof (s : State) (l : Nat) : (s.setLength l).softEof = s.softEof := rfl
@[simp] theorem State.setLength_statusDeclared (s : State) (l : Nat) : (s.setLength l).statusDeclared = s.statusDeclared := rfl
@[simp] theorem State.setLength_statusTarget (s : State) (l : Nat) : (s.setLength l).statusTarget = s.statusTarget := rfl
@[simp] theorem State.setLength_phase (s : State) (l : Nat) : (s.setLength l).phase = .copyDist := rfl
@[simp] theorem State.setLength_bc (s : State) (l : Nat) : (s.setLength l).bc = s.bc := rfl
@[simp] theorem State.setLength_declared (s : State) (l : Nat) : (s.setLength l).declared = s.declared := rfl
@[simp] theorem State.setLength_target (s : State) (l : Nat) : (s.setLength l).target = s.target := rfl
@[simp] theorem State.setLength_outPos (s : State) (l : Nat) : (s.setLength l).outPos = s.outPos := rfl
@[simp] theorem State.setLength_wsb (s : State) (l : Nat) : (s.setLength l).wsb = s.wsb := rfl
@[simp] theorem State.setLength_codesLeft (s : State) (l : Nat) : (s.setLength l).codesLeft = s.codesLeft := rfl
@[simp] theorem State.setLength_tpN (s : State) (l : Nat) : (s.setLength l).tpN = s.tpN := rfl
@[simp] theorem State.setLength_tpRem (s : State) (l : Nat) : (s.setLength l).tpRem = s.tpRem := rfl
@[simp] theorem State.setLength_cpSym (s : State) (l : Nat) : (s.setLength l).cpSym = s.cpSym := rfl
@[simp] theorem State.setLength_cpLen (s : State) (l : Nat) : (s.setLength l).cpLen = l + s.wsb := rfl
@[simp] theorem State.setLength_cpDist (s : State) (l : Nat) : (s.setLength l).cpDist = s.cpDist := rfl
@[simp] theorem State.setLength_symT (s : State) (l : Nat) : (s.setLength l).symT = s.symT := rfl
@[simp] theorem State.setLength_copyT (s : State) (l : Nat) : (s.setLength l).copyT = s.copyT := rfl
@[simp] theorem State.setLength_bootT (s : State) (l : Nat) : (s.setLength l).bootT = s.bootT := rfl
@[simp] theorem State.setLength_builder (s : State) (l : Nat) : (s.setLength l).builder = s.builder := rfl
@[simp] theorem State.setLength_inMem (s : State) (l : Nat) : (s.setLength l).inMem = s.inMem := rfl
@[simp] theorem State.setLength_outMem (s : State) (l : Nat) : (s.setLength l).outMem = s.outMem := rfl
@[simp] theorem State.setLength_bootDict (s : State) (l : Nat) : (s.setLength l).bootDict = s.bootDict := rfl
@[simp] theorem State.setLength_length (s : State) (l : Nat) : (s.setLength l).length = l := rfl
@[simp] theorem State.setLength_distance (s : State) (l : Nat) : (s.setLength l).distance = s.distance := rfl
@[simp] theorem State.setLength_seq (s : State) (l : Nat) : (s.setLength l).seq = .start := rfl
@[simp] theorem State.setLength_ret (s : State) (l : Nat) : (s.setLength l).ret = s.ret := rfl
@[simp] theorem State.setLength_host (s : State) (l : Nat) : (s.setLength l).host = s.host := rfl

@[simp] theorem State.awaitLenExtra_argInLen (s : State) (b : Nat) (n : Fin 5) : (s.awaitLenExtra b n).argInLen = s.argInLen := rfl
@[simp] theorem State.awaitLenExtra_argOutHint (s : State) (b : Nat) (n : Fin 5) : (s.awaitLenExtra b n).argOutHint = s.argOutHint := rfl
@[simp] theorem State.awaitLenExtra_argOutPresent (s : State) (b : Nat) (n : Fin 5) : (s.awaitLenExtra b n).argOutPresent = s.argOutPresent := rfl
@[simp] theorem State.awaitLenExtra_status (s : State) (b : Nat) (n : Fin 5) : (s.awaitLenExtra b n).status = s.status := rfl
@[simp] theorem State.awaitLenExtra_err (s : State) (b : Nat) (n : Fin 5) : (s.awaitLenExtra b n).err = s.err := rfl
@[simp] theorem State.awaitLenExtra_outLen (s : State) (b : Nat) (n : Fin 5) : (s.awaitLenExtra b n).outLen = s.outLen := rfl
@[simp] theorem State.awaitLenExtra_softEof (s : State) (b : Nat) (n : Fin 5) : (s.awaitLenExtra b n).softEof = s.softEof := rfl
@[simp] theorem State.awaitLenExtra_statusDeclared (s : State) (b : Nat) (n : Fin 5) : (s.awaitLenExtra b n).statusDeclared = s.statusDeclared := rfl
@[simp] theorem State.awaitLenExtra_statusTarget (s : State) (b : Nat) (n : Fin 5) : (s.awaitLenExtra b n).statusTarget = s.statusTarget := rfl
@[simp] theorem State.awaitLenExtra_phase (s : State) (b : Nat) (n : Fin 5) : (s.awaitLenExtra b n).phase = s.phase := rfl
@[simp] theorem State.awaitLenExtra_bc (s : State) (b : Nat) (n : Fin 5) : (s.awaitLenExtra b n).bc = s.bc := rfl
@[simp] theorem State.awaitLenExtra_declared (s : State) (b : Nat) (n : Fin 5) : (s.awaitLenExtra b n).declared = s.declared := rfl
@[simp] theorem State.awaitLenExtra_target (s : State) (b : Nat) (n : Fin 5) : (s.awaitLenExtra b n).target = s.target := rfl
@[simp] theorem State.awaitLenExtra_outPos (s : State) (b : Nat) (n : Fin 5) : (s.awaitLenExtra b n).outPos = s.outPos := rfl
@[simp] theorem State.awaitLenExtra_wsb (s : State) (b : Nat) (n : Fin 5) : (s.awaitLenExtra b n).wsb = s.wsb := rfl
@[simp] theorem State.awaitLenExtra_codesLeft (s : State) (b : Nat) (n : Fin 5) : (s.awaitLenExtra b n).codesLeft = s.codesLeft := rfl
@[simp] theorem State.awaitLenExtra_tpN (s : State) (b : Nat) (n : Fin 5) : (s.awaitLenExtra b n).tpN = s.tpN := rfl
@[simp] theorem State.awaitLenExtra_tpRem (s : State) (b : Nat) (n : Fin 5) : (s.awaitLenExtra b n).tpRem = s.tpRem := rfl
@[simp] theorem State.awaitLenExtra_cpSym (s : State) (b : Nat) (n : Fin 5) : (s.awaitLenExtra b n).cpSym = s.cpSym := rfl
@[simp] theorem State.awaitLenExtra_cpLen (s : State) (b : Nat) (n : Fin 5) : (s.awaitLenExtra b n).cpLen = s.cpLen := rfl
@[simp] theorem State.awaitLenExtra_cpDist (s : State) (b : Nat) (n : Fin 5) : (s.awaitLenExtra b n).cpDist = s.cpDist := rfl
@[simp] theorem State.awaitLenExtra_symT (s : State) (b : Nat) (n : Fin 5) : (s.awaitLenExtra b n).symT = s.symT := rfl
@[simp] theorem State.awaitLenExtra_copyT (s : State) (b : Nat) (n : Fin 5) : (s.awaitLenExtra b n).copyT = s.copyT := rfl
@[simp] theorem State.awaitLenExtra_bootT (s : State) (b : Nat) (n : Fin 5) : (s.awaitLenExtra b n).bootT = s.bootT := rfl
@[simp] theorem State.awaitLenExtra_builder (s : State) (b : Nat) (n : Fin 5) : (s.awaitLenExtra b n).builder = s.builder := rfl
@[simp] theorem State.awaitLenExtra_inMem (s : State) (b : Nat) (n : Fin 5) : (s.awaitLenExtra b n).inMem = s.inMem := rfl
@[simp] theorem State.awaitLenExtra_outMem (s : State) (b : Nat) (n : Fin 5) : (s.awaitLenExtra b n).outMem = s.outMem := rfl
@[simp] theorem State.awaitLenExtra_bootDict (s : State) (b : Nat) (n : Fin 5) : (s.awaitLenExtra b n).bootDict = s.bootDict := rfl
@[simp] theorem State.awaitLenExtra_length (s : State) (b : Nat) (n : Fin 5) : (s.awaitLenExtra b n).length = b := rfl
@[simp] theorem State.awaitLenExtra_distance (s : State) (b : Nat) (n : Fin 5) : (s.awaitLenExtra b n).distance = s.distance := rfl
@[simp] theorem State.awaitLenExtra_seq (s : State) (b : Nat) (n : Fin 5) : (s.awaitLenExtra b n).seq = .lenExtra n := rfl
@[simp] theorem State.awaitLenExtra_ret (s : State) (b : Nat) (n : Fin 5) : (s.awaitLenExtra b n).ret = s.ret := rfl
@[simp] theorem State.awaitLenExtra_host (s : State) (b : Nat) (n : Fin 5) : (s.awaitLenExtra b n).host = s.host := rfl

@[simp] theorem State.awaitDistExtra_argInLen (s : State) (b : Nat) (n : Fin 15) : (s.awaitDistExtra b n).argInLen = s.argInLen := rfl
@[simp] theorem State.awaitDistExtra_argOutHint (s : State) (b : Nat) (n : Fin 15) : (s.awaitDistExtra b n).argOutHint = s.argOutHint := rfl
@[simp] theorem State.awaitDistExtra_argOutPresent (s : State) (b : Nat) (n : Fin 15) : (s.awaitDistExtra b n).argOutPresent = s.argOutPresent := rfl
@[simp] theorem State.awaitDistExtra_status (s : State) (b : Nat) (n : Fin 15) : (s.awaitDistExtra b n).status = s.status := rfl
@[simp] theorem State.awaitDistExtra_err (s : State) (b : Nat) (n : Fin 15) : (s.awaitDistExtra b n).err = s.err := rfl
@[simp] theorem State.awaitDistExtra_outLen (s : State) (b : Nat) (n : Fin 15) : (s.awaitDistExtra b n).outLen = s.outLen := rfl
@[simp] theorem State.awaitDistExtra_softEof (s : State) (b : Nat) (n : Fin 15) : (s.awaitDistExtra b n).softEof = s.softEof := rfl
@[simp] theorem State.awaitDistExtra_statusDeclared (s : State) (b : Nat) (n : Fin 15) : (s.awaitDistExtra b n).statusDeclared = s.statusDeclared := rfl
@[simp] theorem State.awaitDistExtra_statusTarget (s : State) (b : Nat) (n : Fin 15) : (s.awaitDistExtra b n).statusTarget = s.statusTarget := rfl
@[simp] theorem State.awaitDistExtra_phase (s : State) (b : Nat) (n : Fin 15) : (s.awaitDistExtra b n).phase = s.phase := rfl
@[simp] theorem State.awaitDistExtra_bc (s : State) (b : Nat) (n : Fin 15) : (s.awaitDistExtra b n).bc = s.bc := rfl
@[simp] theorem State.awaitDistExtra_declared (s : State) (b : Nat) (n : Fin 15) : (s.awaitDistExtra b n).declared = s.declared := rfl
@[simp] theorem State.awaitDistExtra_target (s : State) (b : Nat) (n : Fin 15) : (s.awaitDistExtra b n).target = s.target := rfl
@[simp] theorem State.awaitDistExtra_outPos (s : State) (b : Nat) (n : Fin 15) : (s.awaitDistExtra b n).outPos = s.outPos := rfl
@[simp] theorem State.awaitDistExtra_wsb (s : State) (b : Nat) (n : Fin 15) : (s.awaitDistExtra b n).wsb = s.wsb := rfl
@[simp] theorem State.awaitDistExtra_codesLeft (s : State) (b : Nat) (n : Fin 15) : (s.awaitDistExtra b n).codesLeft = s.codesLeft := rfl
@[simp] theorem State.awaitDistExtra_tpN (s : State) (b : Nat) (n : Fin 15) : (s.awaitDistExtra b n).tpN = s.tpN := rfl
@[simp] theorem State.awaitDistExtra_tpRem (s : State) (b : Nat) (n : Fin 15) : (s.awaitDistExtra b n).tpRem = s.tpRem := rfl
@[simp] theorem State.awaitDistExtra_cpSym (s : State) (b : Nat) (n : Fin 15) : (s.awaitDistExtra b n).cpSym = s.cpSym := rfl
@[simp] theorem State.awaitDistExtra_cpLen (s : State) (b : Nat) (n : Fin 15) : (s.awaitDistExtra b n).cpLen = s.cpLen := rfl
@[simp] theorem State.awaitDistExtra_cpDist (s : State) (b : Nat) (n : Fin 15) : (s.awaitDistExtra b n).cpDist = s.cpDist := rfl
@[simp] theorem State.awaitDistExtra_symT (s : State) (b : Nat) (n : Fin 15) : (s.awaitDistExtra b n).symT = s.symT := rfl
@[simp] theorem State.awaitDistExtra_copyT (s : State) (b : Nat) (n : Fin 15) : (s.awaitDistExtra b n).copyT = s.copyT := rfl
@[simp] theorem State.awaitDistExtra_bootT (s : State) (b : Nat) (n : Fin 15) : (s.awaitDistExtra b n).bootT = s.bootT := rfl
@[simp] theorem State.awaitDistExtra_builder (s : State) (b : Nat) (n : Fin 15) : (s.awaitDistExtra b n).builder = s.builder := rfl
@[simp] theorem State.awaitDistExtra_inMem (s : State) (b : Nat) (n : Fin 15) : (s.awaitDistExtra b n).inMem = s.inMem := rfl
@[simp] theorem State.awaitDistExtra_outMem (s : State) (b : Nat) (n : Fin 15) : (s.awaitDistExtra b n).outMem = s.outMem := rfl
@[simp] theorem State.awaitDistExtra_bootDict (s : State) (b : Nat) (n : Fin 15) : (s.awaitDistExtra b n).bootDict = s.bootDict := rfl
@[simp] theorem State.awaitDistExtra_length (s : State) (b : Nat) (n : Fin 15) : (s.awaitDistExtra b n).length = s.length := rfl
@[simp] theorem State.awaitDistExtra_distance (s : State) (b : Nat) (n : Fin 15) : (s.awaitDistExtra b n).distance = b := rfl
@[simp] theorem State.awaitDistExtra_seq (s : State) (b : Nat) (n : Fin 15) : (s.awaitDistExtra b n).seq = .distExtra n := rfl
@[simp] theorem State.awaitDistExtra_ret (s : State) (b : Nat) (n : Fin 15) : (s.awaitDistExtra b n).ret = s.ret := rfl
@[simp] theorem State.awaitDistExtra_host (s : State) (b : Nat) (n : Fin 15) : (s.awaitDistExtra b n).host = s.host := rfl

@[simp] theorem State.setTable_argInLen (s : State) (t : TableId) (x : Table) : (s.setTable t x).argInLen = s.argInLen := by
  cases t <;> rfl
@[simp] theorem State.setTable_argOutHint (s : State) (t : TableId) (x : Table) : (s.setTable t x).argOutHint = s.argOutHint := by
  cases t <;> rfl
@[simp] theorem State.setTable_argOutPresent (s : State) (t : TableId) (x : Table) : (s.setTable t x).argOutPresent = s.argOutPresent := by
  cases t <;> rfl
@[simp] theorem State.setTable_status (s : State) (t : TableId) (x : Table) : (s.setTable t x).status = s.status := by
  cases t <;> rfl
@[simp] theorem State.setTable_err (s : State) (t : TableId) (x : Table) : (s.setTable t x).err = s.err := by
  cases t <;> rfl
@[simp] theorem State.setTable_outLen (s : State) (t : TableId) (x : Table) : (s.setTable t x).outLen = s.outLen := by
  cases t <;> rfl
@[simp] theorem State.setTable_softEof (s : State) (t : TableId) (x : Table) : (s.setTable t x).softEof = s.softEof := by
  cases t <;> rfl
@[simp] theorem State.setTable_statusDeclared (s : State) (t : TableId) (x : Table) : (s.setTable t x).statusDeclared = s.statusDeclared := by
  cases t <;> rfl
@[simp] theorem State.setTable_statusTarget (s : State) (t : TableId) (x : Table) : (s.setTable t x).statusTarget = s.statusTarget := by
  cases t <;> rfl
@[simp] theorem State.setTable_phase (s : State) (t : TableId) (x : Table) : (s.setTable t x).phase = s.phase := by
  cases t <;> rfl
@[simp] theorem State.setTable_bc (s : State) (t : TableId) (x : Table) : (s.setTable t x).bc = s.bc := by
  cases t <;> rfl
@[simp] theorem State.setTable_declared (s : State) (t : TableId) (x : Table) : (s.setTable t x).declared = s.declared := by
  cases t <;> rfl
@[simp] theorem State.setTable_target (s : State) (t : TableId) (x : Table) : (s.setTable t x).target = s.target := by
  cases t <;> rfl
@[simp] theorem State.setTable_outPos (s : State) (t : TableId) (x : Table) : (s.setTable t x).outPos = s.outPos := by
  cases t <;> rfl
@[simp] theorem State.setTable_wsb (s : State) (t : TableId) (x : Table) : (s.setTable t x).wsb = s.wsb := by
  cases t <;> rfl
@[simp] theorem State.setTable_codesLeft (s : State) (t : TableId) (x : Table) : (s.setTable t x).codesLeft = s.codesLeft := by
  cases t <;> rfl
@[simp] theorem State.setTable_tpN (s : State) (t : TableId) (x : Table) : (s.setTable t x).tpN = s.tpN := by
  cases t <;> rfl
@[simp] theorem State.setTable_tpRem (s : State) (t : TableId) (x : Table) : (s.setTable t x).tpRem = s.tpRem := by
  cases t <;> rfl
@[simp] theorem State.setTable_cpSym (s : State) (t : TableId) (x : Table) : (s.setTable t x).cpSym = s.cpSym := by
  cases t <;> rfl
@[simp] theorem State.setTable_cpLen (s : State) (t : TableId) (x : Table) : (s.setTable t x).cpLen = s.cpLen := by
  cases t <;> rfl
@[simp] theorem State.setTable_cpDist (s : State) (t : TableId) (x : Table) : (s.setTable t x).cpDist = s.cpDist := by
  cases t <;> rfl
@[simp] theorem State.setTable_builder (s : State) (t : TableId) (x : Table) : (s.setTable t x).builder = s.builder := by
  cases t <;> rfl
@[simp] theorem State.setTable_inMem (s : State) (t : TableId) (x : Table) : (s.setTable t x).inMem = s.inMem := by
  cases t <;> rfl
@[simp] theorem State.setTable_outMem (s : State) (t : TableId) (x : Table) : (s.setTable t x).outMem = s.outMem := by
  cases t <;> rfl
@[simp] theorem State.setTable_bootDict (s : State) (t : TableId) (x : Table) : (s.setTable t x).bootDict = s.bootDict := by
  cases t <;> rfl
@[simp] theorem State.setTable_length (s : State) (t : TableId) (x : Table) : (s.setTable t x).length = s.length := by
  cases t <;> rfl
@[simp] theorem State.setTable_distance (s : State) (t : TableId) (x : Table) : (s.setTable t x).distance = s.distance := by
  cases t <;> rfl
@[simp] theorem State.setTable_seq (s : State) (t : TableId) (x : Table) : (s.setTable t x).seq = s.seq := by
  cases t <;> rfl
@[simp] theorem State.setTable_ret (s : State) (t : TableId) (x : Table) : (s.setTable t x).ret = s.ret := by
  cases t <;> rfl
@[simp] theorem State.setTable_host (s : State) (t : TableId) (x : Table) : (s.setTable t x).host = s.host := by
  cases t <;> rfl

@[simp] theorem State.setTable_symT_eq (s : State) (x : Table) : s.setTable .symT x = { s with symT := x } := rfl
@[simp] theorem State.setTable_copyT_eq (s : State) (x : Table) : s.setTable .copyT x = { s with copyT := x } := rfl
@[simp] theorem State.setTable_bootT_eq (s : State) (x : Table) : s.setTable .bootT x = { s with bootT := x } := rfl
@[simp] theorem State.table_setTable (s : State) (t : TableId) (x : Table) : (s.setTable t x).table t = x := by
  cases t <;> rfl
@[simp] theorem State.table_symT (s : State) : s.table .symT = s.symT := rfl
@[simp] theorem State.table_copyT (s : State) : s.table .copyT = s.copyT := rfl
@[simp] theorem State.table_bootT (s : State) : s.table .bootT = s.bootT := rfl
@[simp] theorem WorkTable.id_symT : WorkTable.symT.id = .symT := rfl
@[simp] theorem WorkTable.id_copyT : WorkTable.copyT.id = .copyT := rfl

@[simp] theorem Res.bind_ok {α β : Type} (v : α) (s : State) (f : α → State → Res β) :
    (Res.ok v s).bind f = f v s := rfl

@[simp] theorem Res.bind_raise {α β : Type} (e : ErrKind) (s : State) (f : α → State → Res β) :
    (Res.raise e s).bind f = .raise e s := rfl

@[simp] theorem Res.bind_fault {α β : Type} (x : Fault) (f : α → State → Res β) :
    (Res.fault x).bind f = .fault x := rfl

@[simp] theorem Res.bind_refused {α β : Type} (x : Refusal) (f : α → State → Res β) :
    (Res.refused x).bind f = .refused x := rfl

@[simp] theorem Res.outcome_ok {α : Type} (v : α) (s : State) :
    (Res.ok v s).outcome = .next s := rfl

@[simp] theorem Res.outcome_raise {α : Type} (e : ErrKind) (s : State) :
    (Res.raise e s : Res α).outcome = .next (s.takeError e) := rfl

@[simp] theorem Res.outcome_fault {α : Type} (x : Fault) :
    (Res.fault x : Res α).outcome = .fault x := rfl

@[simp] theorem Res.outcome_refused {α : Type} (x : Refusal) :
    (Res.refused x : Res α).outcome = .refused x := rfl

@[simp] theorem Res.keep_ok (v : Nat) (s : State) :
    (Res.ok v s).keep = .ok () { s with ret := v } := rfl

@[simp] theorem Res.keep_raise (e : ErrKind) (s : State) :
    (Res.raise e s).keep = .raise e s := rfl

@[simp] theorem Res.keep_fault (x : Fault) :
    (Res.fault x).keep = .fault x := rfl

@[simp] theorem Res.keep_refused (x : Refusal) :
    (Res.refused x).keep = .refused x := rfl

@[simp] theorem State.withCursor_ok {α : Type} (s : State) (v : α) (c : Cursor) :
    s.withCursor (.ok v c) = .ok v { s with bc := c } := rfl

@[simp] theorem State.withCursor_raise {α : Type} (s : State) (e : ErrKind) (c : Cursor) :
    s.withCursor (.raise e c : CurRes α) = .raise e { s with bc := c } := rfl

end Sys2Proof.Machine
end

