-- ==== Sys2Proof/Laws/Ops.lean ====
section
/-!
SUPPORT. What each shared operation of the machine can do, said once: the cursor's operations on the state, DECODE,
the writes of OUT and the copy loop.
-/

namespace Sys2Proof.Machine

/-! ## The cursor's operations on the state -/

/-- NEED(n) on the machine (40_bit_cursor R122, R128). -/
theorem State.need_spec {s : State} (h : s.bc.Inv s.inMem) {n : Nat} (hn : n ≤ 32) :
    (s.bc.bitpos + n ≤ s.bc.limit ∧ ∃ c, s.need n = .ok () { s with bc := c } ∧ c.Inv s.inMem ∧
      c.bitpos = s.bc.bitpos ∧ c.inLen = s.bc.inLen ∧ n ≤ c.valid) ∨
    (s.bc.limit < s.bc.bitpos + n ∧ ∃ c, s.need n = .raise .unexpectedEndOfInput { s with bc := c } ∧
      c.Inv s.inMem ∧ c.bitpos = s.bc.bitpos ∧ c.inLen = s.bc.inLen) := by
  rcases Cursor.need_spec h hn with ⟨hl, c, e, a⟩ | ⟨hl, c, e, a⟩
  · exact .inl ⟨hl, c, by simp [State.need, e], a⟩
  · exact .inr ⟨hl, c, by simp [State.need, e], a⟩

/-- DROP(n) on the machine (40_bit_cursor R124, R128). -/
theorem State.drop_spec {s : State} (h : s.bc.Inv s.inMem) {n : Nat} (hn : n ≤ 32) :
    (s.bc.bitpos + n ≤ s.bc.limit ∧ ∃ c, s.drop n = .ok () { s with bc := c } ∧ c.Inv s.inMem ∧
      c.bitpos = s.bc.bitpos + n ∧ c.inLen = s.bc.inLen) ∨
    (s.bc.limit < s.bc.bitpos + n ∧ ∃ c, s.drop n = .raise .unexpectedEndOfInput { s with bc := c } ∧
      c.Inv s.inMem ∧ c.bitpos = s.bc.bitpos ∧ c.inLen = s.bc.inLen) := by
  rcases Cursor.drop_spec h hn with ⟨hl, c, e, a⟩ | ⟨hl, c, e, a⟩
  · exact .inl ⟨hl, c, by simp [State.drop, e], a⟩
  · exact .inr ⟨hl, c, by simp [State.drop, e], a⟩

/-- READ(n) on the machine (40_bit_cursor R125, R128). -/
theorem State.read_spec {s : State} (h : s.bc.Inv s.inMem) {n : Nat} (hn : n ≤ 32) :
    (s.bc.bitpos + n ≤ s.bc.limit ∧
      ∃ c, s.read n = .ok (s.inMem.streamValue s.bc.inLen s.bc.bitpos n) { s with bc := c } ∧ c.Inv s.inMem ∧
      c.bitpos = s.bc.bitpos + n ∧ c.inLen = s.bc.inLen) ∨
    (s.bc.limit < s.bc.bitpos + n ∧ ∃ c, s.read n = .raise .unexpectedEndOfInput { s with bc := c } ∧
      c.Inv s.inMem ∧ c.bitpos = s.bc.bitpos ∧ c.inLen = s.bc.inLen) := by
  rcases Cursor.read_spec h hn with ⟨hl, c, e, a⟩ | ⟨hl, c, e, a⟩
  · exact .inl ⟨hl, c, by simp [State.read, e], a⟩
  · exact .inr ⟨hl, c, by simp [State.read, e], a⟩

/-- The next bits as the fetch reads them, whether the stream has them or not: the cursor keeps its invariant. -/
theorem Cursor.look_keeps {m : Memory} {c : Cursor} (h : c.Inv m) {n : Nat} (hn : n ≤ 32) :
    (c.look m n).2.Inv m ∧ (c.look m n).2.inLen = c.inLen := by
  rcases Cursor.read_spec h hn with ⟨_, c', e, a⟩ | ⟨_, c', e, a⟩ <;> simp only [Cursor.look, e] <;>
    exact ⟨a.1, a.2.2⟩

/-! ## DECODE -/

/-- The slot of a table in which every slot is sound. -/
theorem Table.Ok.slot {t : Table} (h : t.Ok) {i : Nat} {e : HashSlot} (he : t.slot i = some e) :
    e.sym < 285 ∧ 1 ≤ e.len ∧ e.len ≤ 8 := by
  refine h.2 e ?_
  simp only [Table.slot, List.getD_eq_getElem?_getD] at he
  cases hg : t.hash[i]? with
  | none => simp [hg] at he
  | some x => simp only [hg, Option.getD_some] at he; subst he; exact List.mem_of_getElem? hg

/-- The slow path's symbol is a symbol (41_huffman_table R143; 10_state R28). -/
theorem Table.Ok.slowSym {t : Table} (h : t.Ok) (w L : Nat) : t.slowSym w L < 285 := by
  simp only [Table.slowSym, List.getD_eq_getElem?_getD]
  cases hg : t.syms[t.ends[L]?.getD 0 - 1 - (t.thr[L]?.getD 0 - 1 - w) >>> (32 - L)]? with
  | none => simp
  | some x => simpa using h.1 x (List.mem_of_getElem? hg)

/-- The length found is one searched, its threshold is above `w`, and no smaller one's is (41_huffman_table R143). -/
theorem Table.findLen_some {t : Table} {w L k x : Nat} (h : t.findLen w L k = some x) :
    L ≤ x ∧ x < L + k ∧ w < t.thr.getD x 0 ∧ ∀ j, L ≤ j → j < x → t.thr.getD j 0 ≤ w := by
  induction k generalizing L with
  | zero => simp [Table.findLen] at h
  | succ k ih =>
    simp only [Table.findLen] at h
    split at h
    · cases h; exact ⟨le_refl _, by omega, ‹_›, fun j a b => by omega⟩
    · obtain ⟨a, b, c, d⟩ := ih h
      refine ⟨by omega, by omega, c, fun j hj hx => ?_⟩
      rcases Nat.eq_or_lt_of_le hj with rfl | hj
      · omega
      · exact d j hj hx

/-- No length is found exactly where no threshold searched is above `w` (41_huffman_table R144). -/
theorem Table.findLen_none {t : Table} {w L k : Nat} :
    t.findLen w L k = none ↔ ∀ j, L ≤ j → j < L + k → t.thr.getD j 0 ≤ w := by
  induction k generalizing L with
  | zero => simp [Table.findLen]; omega
  | succ k ih =>
    simp only [Table.findLen]
    split
    · simp only [reduceCtorEq, false_iff, not_forall]
      exact ⟨L, le_refl _, by omega, by omega⟩
    · rw [ih]
      refine ⟨fun h j hj hk => ?_, fun h j hj hk => h j (by omega) (by omega)⟩
      rcases Nat.eq_or_lt_of_le hj with rfl | hj
      · omega
      · exact h j hj (by omega)

/-- The least length whose threshold is above `w` is the one found. -/
theorem Table.findLen_eq {t : Table} {w L k x : Nat} (h1 : L ≤ x) (h2 : x < L + k) (h3 : w < t.thr.getD x 0)
    (h4 : ∀ j, L ≤ j → j < x → t.thr.getD j 0 ≤ w) : t.findLen w L k = some x := by
  cases h : t.findLen w L k with
  | none => have := Table.findLen_none.mp h x h1 h2; omega
  | some y =>
    obtain ⟨a, b, c, d⟩ := Table.findLen_some h
    rcases Nat.lt_trichotomy x y with hlt | rfl | hlt
    · have := d x h1 hlt; omega
    · rfl
    · have := h4 y a hlt; omega

/-- DECODE of a hash slot that is present (41_huffman_table R142). -/
theorem Table.decode_fast {m : Memory} {t : Table} {c : Cursor} {e : HashSlot} (hc : c.Inv m)
    (he : t.empty = false) (hl : c.bitpos + 8 ≤ c.limit) (hs : t.slot (m.streamValue c.inLen c.bitpos 8) = some e)
    (h8 : e.len ≤ 8) :
    ∃ c', t.decode m c = .ok e.sym c' ∧ c'.Inv m ∧ c'.inLen = c.inLen ∧ c'.bitpos = c.bitpos + e.len := by
  rcases Cursor.peek_spec hc (n := 8) (by omega) with ⟨_, c1, e1, i1, b1, l1, _⟩ | ⟨hx, _⟩
  · have hlim : c1.limit = c.limit := by simp [Cursor.limit, l1]
    rcases Cursor.drop_spec i1 (n := e.len) (by omega) with ⟨_, c2, e2, i2, b2, l2⟩ | ⟨hx, _⟩
    · exact ⟨c2, by simp [Table.decode, he, e1, hs, e2], i2, by omega, by omega⟩
    · omega
  · omega

/-- DECODE by thresholds, where the hash slot is absent (41_huffman_table R143). -/
theorem Table.decode_slow {m : Memory} {t : Table} {c : Cursor} {L : Nat} (hc : c.Inv m) (he : t.empty = false)
    (hl : c.bitpos + 32 ≤ c.limit) (hs : t.slot (m.streamValue c.inLen c.bitpos 8) = none)
    (hL : t.findLen (m.streamValue c.inLen c.bitpos 32) 1 32 = some L) :
    ∃ c', t.decode m c = .ok (t.slowSym (m.streamValue c.inLen c.bitpos 32) L) c' ∧ c'.Inv m ∧
      c'.inLen = c.inLen ∧ c'.bitpos = c.bitpos + L := by
  have hL' := Table.findLen_some hL
  rcases Cursor.peek_spec hc (n := 8) (by omega) with ⟨_, c1, e1, i1, b1, l1, _⟩ | ⟨hx, _⟩
  · have hlim : c1.limit = c.limit := by simp [Cursor.limit, l1]
    rcases Cursor.peek_spec i1 (n := 32) (by omega) with ⟨_, c2, e2, i2, b2, l2, _⟩ | ⟨hx, _⟩
    · have hlim2 : c2.limit = c.limit := by simp [Cursor.limit, l1, l2]
      rcases Cursor.drop_spec i2 (n := L) (by omega) with ⟨_, c3, e3, i3, b3, l3⟩ | ⟨hx, _⟩
      · refine ⟨c3, ?_, i3, by omega, by omega⟩
        simp only [b1, l1] at e2
        simp [Table.decode, Table.decodeSlow, he, e1, hs, e2, hL, e3]
      · omega
    · omega
  · omega

/-- Everything DECODE can do with a sound table: it yields a symbol and consumes at least one bit, or it raises and
consumes nothing (41_huffman_table R140 to R145). -/
theorem Table.decode_spec {m : Memory} {t : Table} {c : Cursor} (ht : t.Ok) (hc : c.Inv m) :
    (∃ v c', t.decode m c = .ok v c' ∧ t.empty = false ∧ v < 285 ∧ c'.Inv m ∧ c'.inLen = c.inLen ∧
      c.bitpos < c'.bitpos) ∨
    (∃ e c', t.decode m c = .raise e c' ∧ c'.Inv m ∧ c'.inLen = c.inLen ∧ c'.bitpos = c.bitpos ∧
      (e = .emptyTable ∧ t.empty = true ∨
        t.empty = false ∧ (e = .unexpectedEndOfInput ∨ e = .codeNotFound))) := by
  cases he : t.empty with
  | true => exact .inr ⟨_, c, by simp [Table.decode, he], hc, rfl, rfl, .inl ⟨rfl, rfl⟩⟩
  | false =>
    rcases Cursor.peek_spec hc (n := 8) (by omega) with ⟨hl, c1, e1, i1, b1, l1, _⟩ | ⟨_, c1, e1, i1, b1, l1⟩
    · cases hs : t.slot (m.streamValue c.inLen c.bitpos 8) with
      | some e =>
        obtain ⟨a1, a2, a3⟩ := ht.slot hs
        obtain ⟨c', h1, h2, h3, h4⟩ := Table.decode_fast hc he hl hs a3
        exact .inl ⟨_, c', h1, rfl, a1, h2, h3, by omega⟩
      | none =>
        rcases Cursor.peek_spec i1 (n := 32) (by omega) with ⟨hl2, c2, e2, i2, b2, l2, _⟩ | ⟨_, c2, e2, i2, b2, l2⟩
        · have hlim : c1.limit = c.limit := by simp [Cursor.limit, l1]
          cases hf : t.findLen (m.streamValue c.inLen c.bitpos 32) 1 32 with
          | some L =>
            obtain ⟨c', h1, h2, h3, h4⟩ := Table.decode_slow hc he (by omega) hs hf
            have := Table.findLen_some hf
            exact .inl ⟨_, c', h1, rfl, ht.slowSym _ _, h2, h3, by omega⟩
          | none =>
            simp only [b1, l1] at e2
            exact .inr ⟨_, c2, by simp [Table.decode, Table.decodeSlow, he, e1, hs, e2, hf], i2, by omega, by omega,
              .inr ⟨rfl, .inr rfl⟩⟩
        · exact .inr ⟨_, c2, by simp [Table.decode, Table.decodeSlow, he, e1, hs, e2], i2, by omega, by omega,
            .inr ⟨rfl, .inl rfl⟩⟩
    · exact .inr ⟨_, c1, by simp [Table.decode, he, e1], i1, l1, b1, .inr ⟨rfl, .inl rfl⟩⟩

/-! ## OUT -/

/-- One byte written with room (45_block_decoder R220). -/
theorem State.emit_room {s : State} (b : Byte) (h : s.outPos < s.target) :
    s.emit b = .ok () { s with outMem := s.outMem.write s.outPos b, outPos := s.outPos + 1 } := by
  simp [State.emit, h]

/-- The copy loop from a position it may copy from: it writes `min(i, target - out_pos)` bytes, each the one `cp_dist`
before it, and nothing else (46_copy_instructions R272 to R274). -/
theorem State.copyLoop_spec (i : Nat) {s : State} (hwf : s.outMem.wf = true) (h1 : 1 ≤ s.cpDist)
    (h2 : s.cpDist ≤ s.outPos) (h3 : s.outPos ≤ s.target) :
    ∃ m, s.copyLoop i = .ok () { s with outMem := m, outPos := s.outPos + min i (s.target - s.outPos) } ∧
      m.wf = true ∧ (∀ a, (a < s.outPos ∨ s.outPos + min i (s.target - s.outPos) ≤ a) → m.read a = s.outMem.read a) ∧
      ∀ j, j < min i (s.target - s.outPos) → m.read (s.outPos + j) = m.read (s.outPos + j - s.cpDist) := by
  induction i generalizing s with
  | zero => exact ⟨s.outMem, by simp [State.copyLoop], hwf, fun _ _ => rfl, fun j hj => by omega⟩
  | succ i ih =>
    by_cases hr : s.outPos < s.target
    · have hd : ¬ s.outPos < s.cpDist := by omega
      obtain ⟨m, e, w, k1, k2⟩ :=
        ih (s := { s with
            outMem := s.outMem.write s.outPos (s.outMem.read (s.outPos - s.cpDist)), outPos := s.outPos + 1 })
          (Memory.write_wf _ _ _ hwf) h1 (by simp only; omega) (by simp only; omega)
      simp only at e k1 k2
      have hk : s.outPos + 1 + min i (s.target - (s.outPos + 1)) = s.outPos + min (i + 1) (s.target - s.outPos) := by
        omega
      rw [hk] at e k1
      refine ⟨m, by simp [State.copyLoop, hr, hd, State.emit_room, e], w, fun a ha => ?_, fun j hj => ?_⟩
      · rw [k1 a (by omega), Memory.read_write_other _ _ _ _ (by omega)]
      · cases j with
        | zero =>
          have e1 : m.read s.outPos = s.outMem.read (s.outPos - s.cpDist) := by
            rw [k1 _ (by omega), Memory.read_write_same _ _ _ hwf]
          have e2 : m.read (s.outPos - s.cpDist) = s.outMem.read (s.outPos - s.cpDist) := by
            rw [k1 _ (by omega), Memory.read_write_other _ _ _ _ (by omega)]
          simpa [e2] using e1
        | succ j =>
          have := k2 j (by omega)
          rw [show s.outPos + 1 + j = s.outPos + (j + 1) by omega] at this
          exact this
    · have : min (i + 1) (s.target - s.outPos) = 0 := by omega
      exact ⟨s.outMem, by simp [State.copyLoop, hr, this], hwf, fun _ _ => rfl, fun j hj => by omega⟩

end Sys2Proof.Machine
end

