-- ==== Sys2Proof/Laws/Parse.lean ====
section
/-!
SUPPORT. What the table parse and the bootstrap build can do, said once: ADD_SYMBOL on the machine, assigning runs, and
a dictionary added pair by pair.
-/

namespace Sys2Proof.Machine

/-- The builder's symbols are all above `r`. -/
def Builder.Above (b : Builder) (r : Int) : Prop := ∀ l ∈ b.lists, ∀ x ∈ l, r < (x : Int)

theorem Builder.Above.not_mem {b : Builder} {r : Int} (h : b.Above r) (hr : 0 ≤ r) :
    ∀ l ∈ b.lists, r.toNat ∉ l := fun l hl hx => by have := h l hl _ hx; omega

theorem Builder.Above.modify {b : Builder} {r : Int} {L : Nat} (h : b.Above r) (hr : 0 ≤ r) :
    (Builder.mk (b.lists.modify L (· ++ [r.toNat]))).Above (r - 1) := by
  intro l hl y hy
  by_cases hL : L < b.lists.length
  · rcases (Builder.mem_modify (b := b) (y := y) (x := [r.toNat]) hL).mp ⟨l, hl, hy⟩ with ⟨l', hl', hy'⟩ | hy'
    · have := h l' hl' y hy'; omega
    · simp at hy'; omega
  · simp only [List.modify_eq_self (Nat.le_of_not_lt hL)] at hl
    have := h l hl y hy; omega

/-- Everything ADD_SYMBOL can do on the machine (42_table_builder R161 to R163). -/
theorem State.addSymbol_cases (s : State) (x : Int) (L : Nat) :
    (∃ e, s.addSymbol x L = .raise e s ∧ (e = .invalidCodeLength ∧ 32 < L ∨ e = .invalidSymbol)) ∨
    ((∃ l ∈ s.builder.lists, x.toNat ∈ l) ∧ 0 ≤ x ∧ s.addSymbol x L = .refused .duplicateSymbol) ∨
    (0 ≤ x ∧ x < 285 ∧
      s.addSymbol x L = .ok () { s with builder := ⟨s.builder.lists.modify L (· ++ [x.toNat])⟩ }) := by
  rcases s.builder.addSymbol_cases x L with ⟨h, e⟩ | ⟨_, _, e⟩ | ⟨_, h0, _, h, e⟩ | ⟨_, h0, h1, _, e⟩
  · exact .inl ⟨_, by simp only [State.addSymbol, e], .inl ⟨rfl, h⟩⟩
  · exact .inl ⟨_, by simp only [State.addSymbol, e], .inr rfl⟩
  · exact .inr (.inl ⟨h, h0, by simp only [State.addSymbol, e]⟩)
  · exact .inr (.inr ⟨h0, h1, by simp only [State.addSymbol, e]⟩)

/-- Everything an assigning run can do (44_table_parsing R196, R197): only the builder and `tp_rem` change. -/
theorem State.assignRun_cases (len rep : Nat) (s : State) :
    (∃ b, s.assignRun len rep = .ok () { s with builder := b, tpRem := s.tpRem - rep } ∧
      (s.builder.Ok → b.Ok) ∧ (s.builder.Above s.tpRem → b.Above (s.tpRem - rep))) ∨
    (∃ e b r, s.assignRun len rep = .raise e { s with builder := b, tpRem := r } ∧
      (s.builder.Ok → b.Ok) ∧ s.tpRem - rep ≤ r ∧ r ≤ s.tpRem ∧
      (e = .invalidCodeLength ∧ 32 < len ∨ e = .invalidSymbol)) ∨
    (s.assignRun len rep = .refused .duplicateSymbol ∧ ¬ s.builder.Above s.tpRem) := by
  induction rep generalizing s with
  | zero => exact .inl ⟨s.builder, by simp [State.assignRun], id, by simp⟩
  | succ rep ih =>
    rcases s.addSymbol_cases s.tpRem len with ⟨e, h, he⟩ | ⟨h, h0, e⟩ | ⟨h0, h1, e⟩
    · exact .inr (.inl ⟨e, s.builder, s.tpRem, by simp [State.assignRun, h], id, by omega, le_refl _, he⟩)
    · refine .inr (.inr ⟨by simp [State.assignRun, e], fun ha => ?_⟩)
      obtain ⟨l, hl, hx⟩ := h
      exact ha.not_mem h0 l hl hx
    · have hstep : s.assignRun len (rep + 1) = State.assignRun len rep { s with
          builder := ⟨s.builder.lists.modify len (· ++ [s.tpRem.toNat])⟩, tpRem := s.tpRem - 1 } := by
        simp [State.assignRun, e]
      rw [hstep]
      have hcast : s.tpRem - 1 - (rep : Int) = s.tpRem - ((rep + 1 : Nat) : Int) := by omega
      rcases ih { s with builder := ⟨s.builder.lists.modify len (· ++ [s.tpRem.toNat])⟩, tpRem := s.tpRem - 1 } with
        ⟨b, e', h1', h2'⟩ | ⟨e', b, r, h1', h2', h3', h4', h5'⟩ | ⟨e', h1'⟩
      · rw [hcast] at e' h2'
        exact .inl ⟨b, e', fun hb => h1' (hb.add (by omega)), fun ha => h2' (ha.modify h0)⟩
      · simp only at h3' h4'
        exact .inr (.inl ⟨e', b, r, h1', fun hb => h2' (hb.add (by omega)), by omega, by omega, h5'⟩)
      · exact .inr (.inr ⟨e', fun ha => h1' (ha.modify h0)⟩)

/-- An assigning run with slots enough (44_table_parsing R196). -/
theorem State.assignRun_ok {s : State} {len : Nat} (rep : Nat) (hlen : len ≤ 32) (h33 : s.builder.lists.length = 33)
    (hr : s.tpRem ≤ 284) (hrep : (rep : Int) ≤ s.tpRem + 1) (ha : s.builder.Above s.tpRem) :
    ∃ b, s.assignRun len rep = .ok () { s with builder := b, tpRem := s.tpRem - rep } ∧ b.lists.length = 33 ∧
      b.list len = s.builder.list len ++ (List.range rep).map (fun (i : Nat) => (s.tpRem - (i : Int)).toNat) ∧
      (∀ L, L ≠ len → b.list L = s.builder.list L) ∧ b.Above (s.tpRem - rep) := by
  induction rep generalizing s with
  | zero => exact ⟨s.builder, by simp [State.assignRun], h33, by simp, fun _ _ => rfl, by simpa using ha⟩
  | succ rep ih =>
    have h0 : 0 ≤ s.tpRem := by omega
    have e := Builder.addSymbol_ok (b := s.builder) (x := s.tpRem) hlen h0 (by omega) (ha.not_mem h0)
    have hlt : len < s.builder.lists.length := by omega
    obtain ⟨b, e', a1, a2, a3, a4⟩ := ih
      (s := { s with builder := ⟨s.builder.lists.modify len (· ++ [s.tpRem.toNat])⟩, tpRem := s.tpRem - 1 })
      (by simpa using h33) (by simp only; omega) (by simp only; omega) (ha.modify h0)
    have hcast : s.tpRem - 1 - (rep : Int) = s.tpRem - ((rep + 1 : Nat) : Int) := by omega
    simp only [hcast] at e' a4
    refine ⟨b, ?_, a1, ?_, fun L hL => ?_, a4⟩
    · rw [← e']; simp only [State.assignRun, State.addSymbol, e, Res.bind_ok]
    · rw [a2, Builder.list_modify _ _ _ hlt, if_pos rfl, List.range_succ_eq_map, List.map_cons, List.map_map]
      simp only [List.append_assoc, List.cons_append, List.nil_append, Nat.cast_zero, Int.sub_zero]
      congr 2
      refine List.map_congr_left fun i _ => ?_
      simp only [Function.comp, Nat.succ_eq_add_one]
      congr 1; push_cast; ring
    · rw [a3 L hL, Builder.list_modify _ _ _ hlt, if_neg hL]

/-- An assigning run that overruns slot 0 (44_table_parsing R197). -/
theorem State.assignRun_overrun {s : State} {len : Nat} (rep : Nat) (hlen : len ≤ 32)
    (h33 : s.builder.lists.length = 33) (h0 : -1 ≤ s.tpRem) (hr : s.tpRem ≤ 284) (hrep : s.tpRem + 1 < (rep : Int))
    (ha : s.builder.Above s.tpRem) :
    ∃ b, s.assignRun len rep = .raise .invalidSymbol { s with builder := b, tpRem := -1 } ∧ b.lists.length = 33 ∧
      b.list len = s.builder.list len ++
        (List.range (s.tpRem + 1).toNat).map (fun (i : Nat) => (s.tpRem - (i : Int)).toNat) ∧
      ∀ L, L ≠ len → b.list L = s.builder.list L := by
  induction rep generalizing s with
  | zero => omega
  | succ rep ih =>
    by_cases hneg : s.tpRem = -1
    · refine ⟨s.builder, ?_, h33, by simp [hneg], fun _ _ => rfl⟩
      have : s.builder.addSymbol s.tpRem len = .raise .invalidSymbol := by
        have e1 : ¬ Config.maxCodeLen < len := by simp; omega
        simp only [Builder.addSymbol, e1, if_false, hneg]
        rfl
      have hs : ({ s with builder := s.builder, tpRem := -1 } : State) = s := by rw [← hneg]
      simp only [State.assignRun, State.addSymbol, this, Res.bind_raise, hs]
    · have e := Builder.addSymbol_ok (b := s.builder) (x := s.tpRem) hlen (by omega) (by omega)
        (ha.not_mem (by omega))
      have hlt : len < s.builder.lists.length := by omega
      obtain ⟨b, e', a1, a2, a3⟩ := ih
        (s := { s with builder := ⟨s.builder.lists.modify len (· ++ [s.tpRem.toNat])⟩, tpRem := s.tpRem - 1 })
        (by simpa using h33) (by simp only; omega) (by simp only; omega) (by simp only; push_cast at hrep; omega)
        (ha.modify (by omega))
      refine ⟨b, ?_, a1, ?_, fun L hL => ?_⟩
      · rw [← e']; simp only [State.assignRun, State.addSymbol, e, Res.bind_ok]
      · rw [a2, Builder.list_modify _ _ _ hlt, if_pos rfl]
        simp only
        obtain ⟨k, hk⟩ : ∃ k : Nat, s.tpRem = k := ⟨s.tpRem.toNat, by omega⟩
        have e1 : (s.tpRem - 1 + 1).toNat = k := by omega
        have e2 : (s.tpRem + 1).toNat = k + 1 := by omega
        rw [e1, e2, List.range_succ_eq_map, List.map_cons, List.map_map]
        simp only [List.append_assoc, List.cons_append, List.nil_append, Nat.cast_zero, Int.sub_zero]
        congr 2
        refine List.map_congr_left fun i _ => ?_
        simp only [Function.comp, Nat.succ_eq_add_one]
        congr 1; push_cast; ring
      · rw [a3 L hL, Builder.list_modify _ _ _ hlt, if_neg hL]

/-! ## A dictionary, pair by pair -/

/-- Good pairs added one after another (43_bootstrap_dictionary R180, R181): whatever pairs follow, they are added to
the builder in which each list is extended, in order, by the symbols of its length. -/
theorem Builder.addAll_good (d : List (Int × Nat)) {b : Builder} (h33 : b.lists.length = 33)
    (hd : ∀ p ∈ d, p.2 ≤ 32 ∧ 0 ≤ p.1 ∧ p.1 < 285) (hn : (d.map Prod.fst).Nodup)
    (hf : ∀ p ∈ d, ∀ l ∈ b.lists, p.1.toNat ∉ l) :
    ∃ b' : Builder, b'.lists.length = 33 ∧ (∀ d', b.addAll (d ++ d') = b'.addAll d') ∧
      (∀ L, b'.list L = b.list L ++ (d.filter fun p => p.2 = L).map fun p => p.1.toNat) ∧
      (∀ y, (∃ l ∈ b'.lists, y ∈ l) ↔ (∃ l ∈ b.lists, y ∈ l) ∨ ∃ p ∈ d, p.1.toNat = y) ∧ (b.Ok → b'.Ok) := by
  induction d generalizing b with
  | nil => exact ⟨b, h33, fun _ => rfl, by simp, by simp, id⟩
  | cons p d ih =>
    obtain ⟨x, L⟩ := p
    obtain ⟨p1, p2, p3⟩ := hd (x, L) List.mem_cons_self
    simp only at p1 p2 p3
    simp only [List.map_cons, List.nodup_cons, List.mem_map, not_exists, not_and] at hn
    have e := Builder.addSymbol_ok (b := b) p1 p2 p3 (hf (x, L) List.mem_cons_self)
    have hlt : L < b.lists.length := by omega
    obtain ⟨b', a1, a2, a3, a4, a5⟩ := ih (b := ⟨b.lists.modify L (· ++ [x.toNat])⟩) (by simpa using h33)
      (fun q hq => hd q (List.mem_cons_of_mem _ hq)) hn.2 (fun q hq l hl hx => by
        rcases (Builder.mem_modify hlt).mp ⟨l, hl, hx⟩ with ⟨l', hl', hx'⟩ | hx'
        · exact hf q (List.mem_cons_of_mem _ hq) l' hl' hx'
        · simp only [List.mem_singleton] at hx'
          have := (hd q (List.mem_cons_of_mem _ hq)).2.1
          exact hn.1 q hq (by omega))
    refine ⟨b', a1, fun d' => ?_, fun j => ?_, fun y => ?_, fun hb => a5 (hb.add (by omega))⟩
    · rw [← a2 d', List.cons_append]; simp only [Builder.addAll, e]
    · rw [a3 j, Builder.list_modify _ _ _ hlt]
      by_cases hj : j = L
      · subst hj; simp
      · have : ¬ L = j := fun t => hj t.symm
        simp [hj, this]
    · rw [a4 y]
      rw [Builder.mem_modify hlt, List.mem_singleton]
      constructor
      · rintro ((h | h) | ⟨p, hp, h⟩)
        · exact .inl h
        · exact .inr ⟨(x, L), List.mem_cons_self, h.symm⟩
        · exact .inr ⟨p, List.mem_cons_of_mem _ hp, h⟩
      · rintro (h | ⟨p, hp, h⟩)
        · exact .inl (.inl h)
        · rcases List.mem_cons.mp hp with rfl | hp
          · exact .inl (.inr h.symm)
          · exact .inr ⟨p, hp, h⟩

/-- The Kraft sum of a builder made from a dictionary is the sum over its pairs (42_table_builder R164, R169). -/
theorem Builder.kraft_of_pairs {b : Builder} {d : List (Int × Nat)} {f : Int × Nat → Nat}
    (h : ∀ L, b.list L = (d.filter fun p => p.2 = L).map f) (hd : ∀ p ∈ d, p.2 ≤ 32) :
    b.kraft 32 = ((d.filter fun p => p.2 ≠ 0).map fun p => 2 ^ (32 - p.2)).sum := by
  have H : ∀ n, b.kraft n = ((d.filter fun p => p.2 ≠ 0 ∧ p.2 ≤ n).map fun p => 2 ^ (32 - p.2)).sum := by
    intro n
    induction n with
    | zero =>
      have : (d.filter fun p => decide (p.2 ≠ 0 ∧ p.2 ≤ 0)) = [] := by
        rw [List.filter_eq_nil_iff]; intro p _; simp only [decide_eq_true_eq]; omega
      simp only [this]; rfl
    | succ n ih =>
      simp only [Builder.kraft_succ, ih, Builder.count, h, List.length_map]
      clear ih h hd
      induction d with
      | nil => simp
      | cons p d ihd =>
        simp only [ne_eq] at ihd
        have e1 : decide (¬p.2 = 0 ∧ p.2 ≤ n + 1) = (decide (¬p.2 = 0 ∧ p.2 ≤ n) || decide (p.2 = n + 1)) := by
          rw [← Bool.decide_or, decide_eq_decide]; omega
        simp only [List.filter_cons, ne_eq, e1]
        by_cases c1 : ¬p.2 = 0 ∧ p.2 ≤ n
        · have c3 : ¬ p.2 = n + 1 := by omega
          simp only [decide_eq_true c1, decide_eq_false c3, Bool.true_or, if_true, Bool.false_eq_true, if_false,
            List.map_cons, List.sum_cons]
          omega
        · by_cases c3 : p.2 = n + 1
          · simp only [decide_eq_false c1, decide_eq_true c3, Bool.or_true, if_true, Bool.false_eq_true, if_false,
              List.map_cons, List.sum_cons, List.length_cons, Nat.add_mul, Nat.one_mul]
            rw [c3]; omega
          · simp only [decide_eq_false c1, decide_eq_false c3, Bool.or_false, Bool.false_eq_true, if_false]
            exact ihd
  rw [H 32]
  congr 2
  refine List.filter_congr fun p hp => ?_
  have := hd p hp
  simp only [decide_eq_decide]; omega

/-- Everything INIT_BOOT's build can do: BOOT_T's table and any builder frozen by an error are sound (42_table_builder
R161 to R169). -/
theorem Builder.addAll_cases (d : List (Int × Nat)) {b : Builder} (hb : b.Ok) :
    (∃ t, b.addAll d = .ok t ∧ t.Ok) ∨
    (∃ e b', b.addAll d = .raise e b' ∧ b'.Ok ∧
      (e = .invalidCodeLength ∨ e = .invalidSymbol ∨ e = .oversubscribedTable)) ∨
    b.addAll d = .duplicate := by
  induction d generalizing b with
  | nil =>
    cases h : b.build with
    | none => exact .inr (.inl ⟨_, b, by rw [Builder.addAll, Builder.bootBuild, h], hb, .inr (.inr rfl)⟩)
    | some t =>
      obtain ⟨hk, rfl⟩ := Builder.build_eq_some.mp h
      exact .inl ⟨_, by rw [Builder.addAll, Builder.bootBuild, h], hb.table hk⟩
  | cons p d ih =>
    obtain ⟨x, L⟩ := p
    rcases b.addSymbol_cases x L with ⟨_, e⟩ | ⟨_, _, e⟩ | ⟨_, _, _, _, e⟩ | ⟨_, h0, h1, _, e⟩ <;>
      rw [Builder.addAll, e]
    · exact .inr (.inl ⟨_, b, rfl, hb, .inl rfl⟩)
    · exact .inr (.inl ⟨_, b, rfl, hb, .inr (.inl rfl)⟩)
    · exact .inr (.inr rfl)
    · exact ih (hb.add (by omega))

/-- INIT_BOOT's build with any dictionary. -/
theorem initBoot_cases (d : List (Int × Nat)) :
    (∃ t, initBoot d = .ok t ∧ t.Ok) ∨
    (∃ e b, initBoot d = .raise e b ∧ b.Ok ∧
      (e = .invalidCodeLength ∨ e = .invalidSymbol ∨ e = .oversubscribedTable)) ∨
    initBoot d = .duplicate := Builder.addAll_cases d Builder.cleared_ok

end Sys2Proof.Machine
end

