-- ==== Sys2Proof/Laws/Step.lean ====
section
/-!
SUPPORT. Everything an engine step can do, said once: `Effect s t` lists the next states `t` of a state `s` with no host
action due, and `step_effect` says that the list is complete. Runs of several steps.
-/

namespace Sys2Proof.Machine

/-! ## Runs -/

theorem core_run_next (M : Host.Core) {a : Nat} {s t : M.State} (h : M.step s = .next t) :
    M.run (a + 1) s = M.run a t := by simp only [Host.Core.run, h]

theorem core_run_fault (M : Host.Core) {a : Nat} {s : M.State} {r : M.Fault} (h : M.step s = .fault r) :
    M.run (a + 1) s = .fault r := by simp only [Host.Core.run, h]

theorem core_run_refused (M : Host.Core) {a : Nat} {s : M.State} {r : M.Refusal} (h : M.step s = .refused r) :
    M.run (a + 1) s = .refused r := by simp only [Host.Core.run, h]

/-- A run whose first step answers a next state. -/
theorem run_next {a : Nat} {s t : State} (h : step s = .next t) :
    Sys2Proof.core.run (a + 1) s = Sys2Proof.core.run a t := core_run_next Sys2Proof.core h

/-- One step as a run. -/
theorem run_one {s t : State} (h : step s = .next t) : Sys2Proof.core.run 1 s = .next t := by
  rw [run_next h]; rfl

/-- One run after another. -/
theorem run_add (a b : Nat) {s u t : State} (h1 : Sys2Proof.core.run a s = .next u)
    (h2 : Sys2Proof.core.run b u = .next t) : Sys2Proof.core.run (a + b) s = .next t := by
  induction a generalizing s with
  | zero => simp only [Host.Core.run] at h1; cases h1; simpa using h2
  | succ a ih =>
    rw [show a + 1 + b = (a + b) + 1 by omega]
    cases hs : step s with
    | next s' => rw [run_next hs] at h1 ⊢; exact ih h1
    | fault r => rw [core_run_fault Sys2Proof.core hs] at h1; cases h1
    | refused r => rw [core_run_refused Sys2Proof.core hs] at h1; cases h1

/-! ## The cursor and DECODE, from any state -/

/-- What is known of a cursor after reads of IN: under the invariant it keeps it, and BITPOS has not gone back. -/
def Cursor.To (m : Memory) (c c' : Cursor) : Prop :=
  c.Inv m → c'.Inv m ∧ c'.inLen = c.inLen ∧ c.bitpos ≤ c'.bitpos

theorem Cursor.To.refl (m : Memory) (c : Cursor) : Cursor.To m c c := fun h => ⟨h, rfl, le_refl _⟩

theorem Cursor.To.trans {m : Memory} {a b c : Cursor} (h1 : Cursor.To m a b) (h2 : Cursor.To m b c) : Cursor.To m a c := by
  intro h
  obtain ⟨i1, l1, b1⟩ := h1 h
  obtain ⟨i2, l2, b2⟩ := h2 i1
  exact ⟨i2, by omega, by omega⟩

/-- Any NEED raises UnexpectedEndOfInput or nothing. -/
theorem Cursor.needLoop_raise {m : Memory} {n : Nat} (k : Nat) {c c' : Cursor} {e : ErrKind}
    (h : Cursor.needLoop m n k c = .raise e c') : e = .unexpectedEndOfInput := by
  induction k generalizing c with
  | zero => cases h
  | succ k ih =>
    simp only [Cursor.needLoop] at h
    split at h
    · cases hr : c.refill m with
      | ok v c1 => rw [hr] at h; exact ih h
      | raise e1 c1 =>
        rw [hr] at h
        simp only [CurRes.bind_raise, CurRes.raise.injEq] at h
        have : e1 = .unexpectedEndOfInput := by
          simp only [Cursor.refill] at hr
          split at hr
          · cases hr
          · split at hr <;> cases hr; rfl
        rw [← h.1, this]
    · cases h

theorem Cursor.need_any (m : Memory) {n : Nat} (hn : n ≤ 32) (c : Cursor) :
    (∃ c', c.need m n = .ok () c' ∧ Cursor.To m c c') ∨
    (∃ c', c.need m n = .raise .unexpectedEndOfInput c' ∧ Cursor.To m c c') := by
  cases h : c.need m n with
  | ok v c' =>
    refine .inl ⟨c', rfl, fun hi => ?_⟩
    rcases Cursor.need_spec hi hn with ⟨_, c1, e, a1, a2, a3, _⟩ | ⟨_, c1, e, _⟩
    · rw [h] at e; cases e; exact ⟨a1, a3, by omega⟩
    · rw [h] at e; cases e
  | raise e c' =>
    obtain rfl := Cursor.needLoop_raise 4 h
    refine .inr ⟨c', rfl, fun hi => ?_⟩
    rcases Cursor.need_spec hi hn with ⟨_, c1, e, _⟩ | ⟨_, c1, e, a1, a2, a3⟩
    · rw [h] at e; cases e
    · rw [h] at e; cases e; exact ⟨a1, a3, by omega⟩

theorem Cursor.drop_any (m : Memory) {n : Nat} (hn : n ≤ 32) (c : Cursor) :
    (∃ c', c.drop m n = .ok () c' ∧ Cursor.To m c c') ∨
    (∃ c', c.drop m n = .raise .unexpectedEndOfInput c' ∧ Cursor.To m c c') := by
  cases h : c.drop m n with
  | ok v c' =>
    refine .inl ⟨c', rfl, fun hi => ?_⟩
    rcases Cursor.drop_spec hi hn with ⟨_, c1, e, a1, a2, a3⟩ | ⟨_, c1, e, _⟩
    · rw [h] at e; cases e; exact ⟨a1, a3, by omega⟩
    · rw [h] at e; cases e
  | raise e c' =>
    have he : e = .unexpectedEndOfInput := by
      simp only [Cursor.drop] at h
      cases hn : c.need m n with
      | ok v c1 => rw [hn] at h; cases h
      | raise e1 c1 => rw [hn] at h; cases h; exact Cursor.needLoop_raise 4 hn
    subst he
    refine .inr ⟨c', rfl, fun hi => ?_⟩
    rcases Cursor.drop_spec hi hn with ⟨_, c1, e, _⟩ | ⟨_, c1, e, a1, a2, a3⟩
    · rw [h] at e; cases e
    · rw [h] at e; cases e; exact ⟨a1, a3, by omega⟩

theorem Cursor.peek_any (m : Memory) {n : Nat} (hn : n ≤ 32) (c : Cursor) :
    (∃ v c', c.peek m n = .ok v c' ∧ Cursor.To m c c') ∨
    (∃ c', c.peek m n = .raise .unexpectedEndOfInput c' ∧ Cursor.To m c c') := by
  rcases Cursor.need_any m hn c with ⟨c', e, h⟩ | ⟨c', e, h⟩
  · exact .inl ⟨c'.top n, c', by simp [Cursor.peek, e], h⟩
  · exact .inr ⟨c', by simp [Cursor.peek, e], h⟩

theorem Cursor.read_any (m : Memory) {n : Nat} (hn : n ≤ 32) (c : Cursor) :
    (∃ v c', c.read m n = .ok v c' ∧ Cursor.To m c c') ∨
    (∃ c', c.read m n = .raise .unexpectedEndOfInput c' ∧ Cursor.To m c c') := by
  rcases Cursor.peek_any m hn c with ⟨v, c', e, h⟩ | ⟨c', e, h⟩
  · rcases Cursor.drop_any m hn c' with ⟨c2, e2, h2⟩ | ⟨c2, e2, h2⟩
    · exact .inl ⟨v, c2, by simp [Cursor.read, e, e2], h.trans h2⟩
    · exact .inr ⟨c2, by simp [Cursor.read, e, e2], h.trans h2⟩
  · exact .inr ⟨c', by simp [Cursor.read, e], h⟩

theorem State.drop_any (s : State) {n : Nat} (hn : n ≤ 32) :
    (∃ c, s.drop n = .ok () { s with bc := c } ∧ Cursor.To s.inMem s.bc c) ∨
    (∃ c, s.drop n = .raise .unexpectedEndOfInput { s with bc := c } ∧ Cursor.To s.inMem s.bc c) := by
  rcases Cursor.drop_any s.inMem hn s.bc with ⟨c, e, h⟩ | ⟨c, e, h⟩
  · exact .inl ⟨c, by simp [State.drop, e], h⟩
  · exact .inr ⟨c, by simp [State.drop, e], h⟩

theorem State.read_any (s : State) {n : Nat} (hn : n ≤ 32) :
    (∃ v c, s.read n = .ok v { s with bc := c } ∧ Cursor.To s.inMem s.bc c) ∨
    (∃ c, s.read n = .raise .unexpectedEndOfInput { s with bc := c } ∧ Cursor.To s.inMem s.bc c) := by
  rcases Cursor.read_any s.inMem hn s.bc with ⟨v, c, e, h⟩ | ⟨c, e, h⟩
  · exact .inl ⟨v, c, by simp [State.read, e], h⟩
  · exact .inr ⟨c, by simp [State.read, e], h⟩

/-- The errors DECODE raises (41_huffman_table R141, R144, R145). -/
theorem Table.decode_raise {m : Memory} {t : Table} {c c' : Cursor} {e : ErrKind} (h : t.decode m c = .raise e c') :
    e = .emptyTable ∧ t.empty = true ∨ e = .unexpectedEndOfInput ∨ e = .codeNotFound := by
  have hneed : ∀ n c1 c2 e', Cursor.need m n c1 = .raise e' c2 → e' = .unexpectedEndOfInput :=
    fun n c1 c2 e' hh => Cursor.needLoop_raise 4 hh
  have hpeek : ∀ n c1 c2 e', Cursor.peek m n c1 = .raise e' c2 → e' = .unexpectedEndOfInput := by
    intro n c1 c2 e' hh
    simp only [Cursor.peek] at hh
    cases hn : c1.need m n with
    | ok v c3 => rw [hn] at hh; cases hh
    | raise e1 c3 => rw [hn] at hh; cases hh; exact hneed _ _ _ _ hn
  have hdrop : ∀ n c1 c2 e', Cursor.drop m n c1 = .raise e' c2 → e' = .unexpectedEndOfInput := by
    intro n c1 c2 e' hh
    simp only [Cursor.drop] at hh
    cases hn : c1.need m n with
    | ok v c3 => rw [hn] at hh; cases hh
    | raise e1 c3 => rw [hn] at hh; cases hh; exact hneed _ _ _ _ hn
  simp only [Table.decode] at h
  split at h
  · cases h; exact .inl ⟨rfl, ‹_›⟩
  · refine .inr ?_
    cases h1 : c.peek m 8 with
    | raise e1 c1 => rw [h1] at h; cases h; exact .inl (hpeek _ _ _ _ h1)
    | ok v c1 =>
      rw [h1] at h
      simp only [CurRes.bind_ok] at h
      split at h
      · rename_i sl _
        cases h2 : c1.drop m sl.len with
        | ok w c2 => rw [h2] at h; cases h
        | raise e2 c2 => rw [h2] at h; cases h; exact .inl (hdrop _ _ _ _ h2)
      · simp only [Table.decodeSlow] at h
        cases h2 : c1.peek m 32 with
        | raise e2 c2 => rw [h2] at h; cases h; exact .inl (hpeek _ _ _ _ h2)
        | ok w c2 =>
          rw [h2] at h
          simp only [CurRes.bind_ok] at h
          split at h
          · cases h; exact .inr rfl
          · rename_i L _
            cases h3 : c2.drop m L with
            | ok w c3 => rw [h3] at h; cases h
            | raise e3 c3 => rw [h3] at h; cases h; exact .inl (hdrop _ _ _ _ h3)

/-- A symbol DECODE yields from a sound table, and the cursor after it. -/
theorem Table.Ok.decode_ok {m : Memory} {t : Table} {c c' : Cursor} {v : Nat} (ht : t.Ok)
    (h : t.decode m c = .ok v c') :
    v < 285 ∧ t.empty = false ∧ (c.Inv m → c'.Inv m ∧ c'.inLen = c.inLen ∧ c.bitpos < c'.bitpos) := by
  have hemp : t.empty = false := by
    cases he : t.empty with
    | false => rfl
    | true => simp [Table.decode, he] at h
  refine ⟨?_, hemp, fun hc => ?_⟩
  · simp only [Table.decode, hemp, Bool.false_eq_true, if_false] at h
    cases h1 : c.peek m 8 with
    | raise e1 c1 => rw [h1] at h; cases h
    | ok v1 c1 =>
      rw [h1] at h
      simp only [CurRes.bind_ok] at h
      split at h
      · rename_i sl hs
        cases h2 : c1.drop m sl.len with
        | ok w c2 => rw [h2] at h; cases h; exact (ht.slot hs).1
        | raise e2 c2 => rw [h2] at h; cases h
      · simp only [Table.decodeSlow] at h
        cases h2 : c1.peek m 32 with
        | raise e2 c2 => rw [h2] at h; cases h
        | ok w c2 =>
          rw [h2] at h
          simp only [CurRes.bind_ok] at h
          split at h
          · cases h
          · rename_i L _
            cases h3 : c2.drop m L with
            | ok w c3 => rw [h3] at h; cases h; exact ht.slowSym _ _
            | raise e3 c3 => rw [h3] at h; cases h
  · rcases Table.decode_spec ht hc with ⟨v1, c1, e, _, _, a1, a2, a3⟩ | ⟨e1, c1, e, _⟩
    · rw [h] at e; cases e; exact ⟨a1, a2, a3⟩
    · rw [h] at e; cases e

/-- The cursor where DECODE of a sound table raises. -/
theorem Table.Ok.decode_raise_to {m : Memory} {t : Table} {c c' : Cursor} {e : ErrKind} (ht : t.Ok)
    (h : t.decode m c = .raise e c') : Cursor.To m c c' := by
  intro hc
  rcases Table.decode_spec ht hc with ⟨v1, c1, e1, _⟩ | ⟨e1, c1, e2, a1, a2, a3, _⟩
  · rw [h] at e1; cases e1
  · rw [h] at e2; cases e2; exact ⟨a1, a2, by omega⟩

/-! ## The copy loop, from any state -/

/-- A copy loop that ends: it writes the bytes from `out_pos` to the new `out_pos`, which stays within `target`. -/
theorem State.copyLoop_any (i : Nat) (s : State) :
    s.copyLoop i = .fault .outputRead ∧ s.outPos < s.cpDist ∨
    ∃ m p, s.copyLoop i = .ok () { s with outMem := m, outPos := p } ∧ (s.outMem.wf = true → m.wf = true) ∧
      s.outPos ≤ p ∧ (p ≤ s.target ∨ p = s.outPos) ∧ ∀ a, (a < s.outPos ∨ p ≤ a) → m.read a = s.outMem.read a := by
  induction i generalizing s with
  | zero => exact .inr ⟨s.outMem, s.outPos, rfl, id, le_refl _, .inr rfl, fun _ _ => rfl⟩
  | succ i ih =>
    simp only [State.copyLoop]
    by_cases h1 : s.outPos < s.target
    · by_cases h2 : s.outPos < s.cpDist
      · exact .inl ⟨by simp [h1, h2], h2⟩
      · simp only [h1, h2, if_true, if_false, State.emit_room _ h1, Res.bind_ok]
        rcases ih { s with
            outMem := s.outMem.write s.outPos (s.outMem.read (s.outPos - s.cpDist)), outPos := s.outPos + 1 } with
          ⟨_, h⟩ | ⟨m, p, e, w, l1, l2, l3⟩
        · simp only at h; omega
        · simp only at w l1 l2 l3
          refine .inr ⟨m, p, e, fun hw => w (Memory.write_wf _ _ _ hw), by omega, by omega, fun a ha => ?_⟩
          rw [l3 a (by omega), Memory.read_write_other _ _ _ _ (by omega)]
    · simp only [h1, if_false]
      exact .inr ⟨s.outMem, s.outPos, rfl, id, le_refl _, .inr rfl, fun _ _ => rfl⟩

/-! ## Everything an engine step can do -/

/-- The state in which a SYM_T symbol's row runs: freshly decoded, or already in `cp_sym`. -/
def SymbolReady (s u : State) (v : Nat) : Prop :=
  (s.phase = .symbol ∧ ∃ c, s.symT.decode s.inMem s.bc = .ok v c ∧
    u = { s with
      codesLeft := s.codesLeft - 1, bc := c, cpSym := v
      phase := if v < Config.litLimit then .literal else .copyLen, seq := .start }) ∨
  ((s.phase = .literal ∨ s.phase = .copyLen) ∧ v = s.cpSym ∧ u = s)

/-- The state `u` in which an engine step of `s` takes the error `e`: what `u` shares with `s`, and what its changed
registers can be. -/
structure Fails (s : State) (e : ErrKind) (u : State) : Prop where
  inMem : u.inMem = s.inMem
  outMem : u.outMem = s.outMem
  args : u.argInLen = s.argInLen ∧ u.argOutHint = s.argOutHint ∧ u.argOutPresent = s.argOutPresent
  frame : u.bootDict = s.bootDict ∧ u.host = s.host ∧ u.statusDeclared = s.statusDeclared ∧
    u.statusTarget = s.statusTarget ∧ u.target = s.target ∧ u.outPos = s.outPos ∧ u.length = s.length ∧
    u.cpLen = s.cpLen ∧ u.ret = s.ret
  tables : u.symT = s.symT ∧ u.copyT = s.copyT ∧ u.bootT = s.bootT
  phase : u.phase = .resetInit ↔ s.phase = .resetInit
  builder : s.builder.Ok → u.builder.Ok
  cursor : s.TablesInv → Cursor.To s.inMem s.bc u.bc
  declared : u.declared = s.declared ∨ u.declared < 2 ^ 32
  wsb : u.wsb = s.wsb ∨ u.wsb ≤ 16
  codesLeft : u.codesLeft ≤ s.codesLeft
  tpN : u.tpN = s.tpN ∨ u.tpN ≤ 65535
  tpRem : u.tpRem = s.tpRem ∨ -9 ≤ u.tpRem ∧ u.tpRem ≤ s.tpRem
  cpSym : u.cpSym = s.cpSym ∨ (s.TablesInv → u.cpSym ≤ 284)
  distance : u.distance = s.distance ∧ u.cpDist = s.cpDist ∨
    u.cpDist = u.distance + 1 ∧ (u.distance ≤ 3 ∨ ∃ x < 2 ^ 15, u.distance = s.distance ||| x)
  seq : u.seq = .clear → s.seq = .clear ∧ u.tpN = s.tpN
  error : e ≠ .allocationFailure ∧ (e = .invalidCodeLength → s.phase = .resetInit) ∧
    (e = .invalidLengthCode → s.TablesInv → 285 ≤ s.cpSym) ∧
    (e = .emptyTable → (s.phase = .parseSym ∨ s.phase = .parseCopy) ∨ s.phase = .symbol ∧ s.symT.empty = true ∨
      s.phase = .copyDist ∧ s.copyT.empty = true)

/-- The next states of a state with no host action due (45_block_decoder R225). -/
inductive Effect (s : State) : State → Prop where
  /-- IDLE and FAILED wait. -/
  | wait (h : s.phase = .idle ∨ s.phase = .failed) : Effect s s
  /-- INIT_BOOT in RESET_INIT. -/
  | booted (T : Table) (h : s.phase = .resetInit) (hT : T.Ok) :
    Effect s { s with bootT := T, builder := Builder.cleared, phase := .idle }
  /-- A hard error is taken. -/
  | raised (e : ErrKind) (u : State) (h : Fails s e u) : Effect s (u.takeError e)
  /-- CURSOR_INIT. -/
  | checked (h : s.phase = .check) :
    Effect s { s with outPos := 0, phase := .header, bc := Cursor.init s.argInLen }
  /-- HDR. -/
  | header (h : s.phase = .header) (c : Cursor) (hc : Cursor.To s.inMem s.bc c) (size : Word) :
    Effect s { s with
      bc := c, declared := size.toNat, statusDeclared := size, target := targetOf size.toNat s.argOutHint
      statusTarget := BitVec.ofNat 32 (targetOf size.toNat s.argOutHint), phase := .blockTest }
  /-- The block loop goes on. -/
  | blockMore (h : s.phase = .blockTest) (hp : s.outPos < s.target) :
    Effect s { s with phase := .parseSym, seq := .start }
  /-- The output is full. -/
  | blockDone (h : s.phase = .blockTest) (hp : s.target ≤ s.outPos) : Effect s s.finish
  /-- COUNT. -/
  | counted (h : s.phase = .parseSym ∨ s.phase = .parseCopy) (c : Cursor) (hc : Cursor.To s.inMem s.bc c) (n : Nat)
    (hn : n ≤ 285) : Effect s { s with bc := c, tpN := n, seq := .clear }
  /-- CLEAR. -/
  | cleared (h : s.phase = .parseSym ∨ s.phase = .parseCopy) (hq : s.seq = .clear) :
    Effect s { s with tpRem := (s.tpN : Int) - 1, seq := .runs, builder := Builder.cleared }
  /-- RUN_SKIP. -/
  | skipped (h : s.phase = .parseSym ∨ s.phase = .parseCopy) (hq : s.seq = .runs) (h0 : 0 ≤ s.tpRem) (v : Nat)
    (c : Cursor) (hd : s.bootT.decode s.inMem s.bc = .ok v c) (rep : Nat) (h1 : 1 ≤ rep) (h9 : rep ≤ 9) :
    Effect s { s with bc := c, tpRem := s.tpRem - rep }
  /-- RUN_ASSIGN. -/
  | assigned (h : s.phase = .parseSym ∨ s.phase = .parseCopy) (hq : s.seq = .runs) (h0 : 0 ≤ s.tpRem) (v : Nat)
    (c : Cursor) (hd : s.bootT.decode s.inMem s.bc = .ok v c) (rep : Nat) (h1 : 1 ≤ rep) (h9 : rep ≤ 9) (b : Builder)
    (hb : s.builder.Ok → b.Ok) (ha : s.builder.Above s.tpRem → b.Above (s.tpRem - rep)) :
    Effect s { s with bc := c, builder := b, tpRem := s.tpRem - rep }
  /-- BUILD. -/
  | built (t : WorkTable) (h : s.phase = .parseSym ∧ t = .symT ∨ s.phase = .parseCopy ∧ t = .copyT)
    (hq : s.seq = .runs) (h0 : s.tpRem < 0) (hk : s.builder.kraft 32 ≤ 2 ^ 32) :
    Effect s { s.setTable t.id s.builder.table with seq := .result }
  /-- A table without a code: the soft stop. -/
  | tableEmpty (h : s.phase = .parseSym ∨ s.phase = .parseCopy) (hq : s.seq = .result) : Effect s s.softStop
  /-- A table with a code. -/
  | tableDone (after : Phase)
    (h : s.phase = .parseSym ∧ after = .parseCopy ∧ s.symT.empty = false ∨
      s.phase = .parseCopy ∧ after = .blockParams ∧ s.copyT.empty = false)
    (hq : s.seq = .result) : Effect s { s with phase := after, seq := .start }
  /-- PARAMS. -/
  | params (h : s.phase = .blockParams) (c : Cursor) (hc : Cursor.To s.inMem s.bc c) (sv m : BitVec 4) :
    Effect s { s with bc := c, wsb := sv.toNat + 1, codesLeft := (m.toNat + 1) * 4096, phase := .codeTest }
  /-- The code loop goes on. -/
  | codeMore (h : s.phase = .codeTest) (h1 : 0 < s.codesLeft) (h2 : s.outPos < s.target) :
    Effect s { s with phase := .symbol }
  /-- The code loop ends. -/
  | codeDone (h : s.phase = .codeTest) : Effect s { s with phase := .blockTest }
  /-- LIT. -/
  | lit (u : State) (v : Nat) (h : SymbolReady s u v) (hv : v < 256) (hp : u.outPos < u.target) :
    Effect s { u with
      outMem := u.outMem.write u.outPos (BitVec.ofNat 8 v), outPos := u.outPos + 1, phase := .codeTest }
  /-- LEN_Q0, LEN_Q1, LEN_MAX. -/
  | lenDone (u : State) (v : Nat) (h : SymbolReady s u v) (hv : 256 ≤ v) (L : Nat) (hL : L ≤ 255) :
    Effect s (u.setLength L)
  /-- LEN_Q2 to LEN_Q6. -/
  | lenBase (u : State) (v : Nat) (h : SymbolReady s u v) (hv : 256 ≤ v) (B : Nat) (hB : B ≤ 224) (n : Fin 5) :
    Effect s (u.awaitLenExtra B n)
  /-- LEN_EXTRA_1 to LEN_EXTRA_5. -/
  | lenExtra (h : s.phase = .copyLen) (n : Fin 5) (hq : s.seq = .lenExtra n) (c : Cursor)
    (hc : Cursor.To s.inMem s.bc c) (x : Nat) (hx : x < 2 ^ (n.val + 1)) :
    Effect s (State.setLength (s.length ||| x) { s with bc := c })
  /-- DIST_Q0, DIST_Q1. -/
  | distDone (h : s.phase = .copyDist) (v : Nat) (c : Cursor) (hd : s.copyT.decode s.inMem s.bc = .ok v c) (D : Nat)
    (hD : D ≤ 3) (hr : D + 1 ≤ s.outPos) :
    Effect s { s with bc := c, distance := D, cpDist := D + 1, phase := .copyRun, seq := .start }
  /-- DIST_Q2 to DIST_Q16. -/
  | distBase (h : s.phase = .copyDist) (v : Nat) (c : Cursor) (hd : s.copyT.decode s.inMem s.bc = .ok v c) (B : Nat)
    (hB : B ≤ 98304) (n : Fin 15) : Effect s (State.awaitDistExtra B n { s with bc := c })
  /-- DIST_EXTRA_1 to DIST_EXTRA_15. -/
  | distExtra (h : s.phase = .copyDist) (n : Fin 15) (hq : s.seq = .distExtra n) (c : Cursor)
    (hc : Cursor.To s.inMem s.bc c) (x : Nat) (hx : x < 2 ^ (n.val + 1)) (hr : (s.distance ||| x) + 1 ≤ s.outPos) :
    Effect s { s with
      bc := c, distance := s.distance ||| x, cpDist := (s.distance ||| x) + 1, phase := .copyRun, seq := .start }
  /-- COPY_RUN. -/
  | copied (h : s.phase = .copyRun) (m : Memory) (p : Nat) (hw : s.outMem.wf = true → m.wf = true)
    (h1 : s.outPos ≤ p) (h2 : p ≤ s.target ∨ p = s.outPos)
    (h3 : ∀ a, (a < s.outPos ∨ p ≤ a) → m.read a = s.outMem.read a) :
    Effect s { s with outMem := m, outPos := p, phase := .codeTest }

/-- An error after which only the cursor may have moved. -/
theorem Fails.cursor_only {s : State} {e : ErrKind} {c : Cursor} (hc : s.TablesInv → Cursor.To s.inMem s.bc c)
    (h1 : e ≠ .allocationFailure) (h2 : e ≠ .invalidCodeLength) (h3 : e ≠ .invalidLengthCode)
    (h4 : e = .emptyTable → (s.phase = .parseSym ∨ s.phase = .parseCopy) ∨ s.phase = .symbol ∧ s.symT.empty = true ∨
      s.phase = .copyDist ∧ s.copyT.empty = true) : Fails s e { s with bc := c } where
  inMem := rfl
  outMem := rfl
  args := ⟨rfl, rfl, rfl⟩
  frame := ⟨rfl, rfl, rfl, rfl, rfl, rfl, rfl, rfl, rfl⟩
  tables := ⟨rfl, rfl, rfl⟩
  phase := Iff.rfl
  builder := id
  cursor := hc
  declared := .inl rfl
  wsb := .inl rfl
  codesLeft := le_refl _
  tpN := .inl rfl
  tpRem := .inl rfl
  cpSym := .inl rfl
  distance := .inl ⟨rfl, rfl⟩
  seq := fun h => ⟨h, rfl⟩
  error := ⟨h1, fun h => absurd h h2, fun h => absurd h h3, h4⟩

/-- A run code's instruction (44_table_parsing R194). -/
theorem exec_decodeRun {v : Nat} (h : v < 285) (s : State) :
    exec (decodeRun (BitVec.ofNat 9 v)) s = (s.run v).outcome := by
  have k : ∀ v : Fin 285, decodeRun (BitVec.ofNat 9 v.val) =
      if v.val % 32 = 0 then .runSkip (BitVec.ofNat 4 (v.val / 32))
      else .runAssign (BitVec.ofNat 4 (v.val / 32)) (BitVec.ofNat 5 (v.val % 32)) := by decide +kernel
  rw [k ⟨v, h⟩]
  have e1 : v / 32 % 16 = v / 32 := by omega
  simp only
  split
  · simp [exec, execRunSkip, State.run, runCount, *]
  · simp [exec, execRunAssign, State.run, runCount, *]

/-- A SYM_T symbol's instruction: what it does in the state `u` it runs in (45_block_decoder R220; 46_copy_instructions
R241 to R249). -/
theorem exec_symbol {v : Nat} (h : v < 512) (u : State) :
    (v < 256 ∧ exec (decodeSymRow (BitVec.ofNat 9 v)) u = execLit (BitVec.ofNat 8 v) u) ∨
    (256 ≤ v ∧ ∃ L, L ≤ 255 ∧ exec (decodeSymRow (BitVec.ofNat 9 v)) u = .next (u.setLength L)) ∨
    (256 ≤ v ∧ ∃ B n, B ≤ 224 ∧ exec (decodeSymRow (BitVec.ofNat 9 v)) u = .next (u.awaitLenExtra B n)) ∨
    (285 ≤ v ∧ exec (decodeSymRow (BitVec.ofNat 9 v)) u = .next (u.takeError .invalidLengthCode)) := by
  have k : ∀ v : Fin 512, decodeSymRow (BitVec.ofNat 9 v.val) =
      if v.val < 256 then .lit (BitVec.ofNat 8 v.val)
      else if v.val < 260 then .lenQ0 (BitVec.ofNat 2 v.val)
      else if v.val < 264 then .lenQ1 (BitVec.ofNat 2 v.val)
      else if v.val < 268 then .lenQ2 (BitVec.ofNat 2 v.val)
      else if v.val < 272 then .lenQ3 (BitVec.ofNat 2 v.val)
      else if v.val < 276 then .lenQ4 (BitVec.ofNat 2 v.val)
      else if v.val < 280 then .lenQ5 (BitVec.ofNat 2 v.val)
      else if v.val < 284 then .lenQ6 (BitVec.ofNat 2 v.val)
      else if v.val = 284 then .lenMax
      else .lenInvalid (BitVec.ofNat 9 v.val) := by decide +kernel
  have k' := k ⟨v, h⟩
  simp only at k'
  rw [k']
  have hb := (BitVec.ofNat 2 v).isLt
  split
  · exact .inl ⟨by omega, rfl⟩
  split
  · exact .inr (.inl ⟨by omega, _, by simp [lenBase]; omega, rfl⟩)
  split
  · exact .inr (.inl ⟨by omega, _, by simp [lenBase]; omega, rfl⟩)
  split
  · exact .inr (.inr (.inl ⟨by omega, _, _, by simp [lenBase]; omega, rfl⟩))
  split
  · exact .inr (.inr (.inl ⟨by omega, _, _, by simp [lenBase]; omega, rfl⟩))
  split
  · exact .inr (.inr (.inl ⟨by omega, _, _, by simp [lenBase]; omega, rfl⟩))
  split
  · exact .inr (.inr (.inl ⟨by omega, _, _, by simp [lenBase]; omega, rfl⟩))
  split
  · exact .inr (.inr (.inl ⟨by omega, _, _, by simp [lenBase]; omega, rfl⟩))
  split
  · exact .inr (.inl ⟨by omega, _, by simp [lenMaxValue], rfl⟩)
  · exact .inr (.inr (.inr ⟨by omega, rfl⟩))

/-- A COPY_T symbol's instruction (46_copy_instructions R252 to R269). -/
theorem exec_distance {v : Nat} (h : v < 285) (u : State) :
    (∃ D, D ≤ 3 ∧ exec (decodeDsymRow (BitVec.ofNat 9 v)) u = (u.setDistance D).outcome) ∨
    (∃ B n, B ≤ 98304 ∧ exec (decodeDsymRow (BitVec.ofNat 9 v)) u = .next (u.awaitDistExtra B n)) ∨
    exec (decodeDsymRow (BitVec.ofNat 9 v)) u = .next (u.takeError .invalidDistanceCode) := by
  have k : ∀ v : Fin 285,
      decodeDsymRow (BitVec.ofNat 9 v.val) = .distQ0 (BitVec.ofNat 1 v.val) ∨
      decodeDsymRow (BitVec.ofNat 9 v.val) = .distQ1 (BitVec.ofNat 1 v.val) ∨
      decodeDsymRow (BitVec.ofNat 9 v.val) = .distQ2 (BitVec.ofNat 1 v.val) ∨
      decodeDsymRow (BitVec.ofNat 9 v.val) = .distQ3 (BitVec.ofNat 1 v.val) ∨
      decodeDsymRow (BitVec.ofNat 9 v.val) = .distQ4 (BitVec.ofNat 1 v.val) ∨
      decodeDsymRow (BitVec.ofNat 9 v.val) = .distQ5 (BitVec.ofNat 1 v.val) ∨
      decodeDsymRow (BitVec.ofNat 9 v.val) = .distQ6 (BitVec.ofNat 1 v.val) ∨
      decodeDsymRow (BitVec.ofNat 9 v.val) = .distQ7 (BitVec.ofNat 1 v.val) ∨
      decodeDsymRow (BitVec.ofNat 9 v.val) = .distQ8 (BitVec.ofNat 1 v.val) ∨
      decodeDsymRow (BitVec.ofNat 9 v.val) = .distQ9 (BitVec.ofNat 1 v.val) ∨
      decodeDsymRow (BitVec.ofNat 9 v.val) = .distQ10 (BitVec.ofNat 1 v.val) ∨
      decodeDsymRow (BitVec.ofNat 9 v.val) = .distQ11 (BitVec.ofNat 1 v.val) ∨
      decodeDsymRow (BitVec.ofNat 9 v.val) = .distQ12 (BitVec.ofNat 1 v.val) ∨
      decodeDsymRow (BitVec.ofNat 9 v.val) = .distQ13 (BitVec.ofNat 1 v.val) ∨
      decodeDsymRow (BitVec.ofNat 9 v.val) = .distQ14 (BitVec.ofNat 1 v.val) ∨
      decodeDsymRow (BitVec.ofNat 9 v.val) = .distQ15 (BitVec.ofNat 1 v.val) ∨
      decodeDsymRow (BitVec.ofNat 9 v.val) = .distQ16 (BitVec.ofNat 1 v.val) ∨
      decodeDsymRow (BitVec.ofNat 9 v.val) = .distInvalid (BitVec.ofNat 9 v.val) := by decide +kernel
  have hb := (BitVec.ofNat 1 v).isLt
  rcases k ⟨v, h⟩ with e | e | e | e | e | e | e | e | e | e | e | e | e | e | e | e | e | e <;> rw [e]
  · exact .inl ⟨_, by simp [distBase]; omega, rfl⟩
  · exact .inl ⟨_, by simp [distBase]; omega, rfl⟩
  · exact .inr (.inl ⟨_, _, by simp [distBase]; omega, rfl⟩)
  · exact .inr (.inl ⟨_, _, by simp [distBase]; omega, rfl⟩)
  · exact .inr (.inl ⟨_, _, by simp [distBase]; omega, rfl⟩)
  · exact .inr (.inl ⟨_, _, by simp [distBase]; omega, rfl⟩)
  · exact .inr (.inl ⟨_, _, by simp [distBase]; omega, rfl⟩)
  · exact .inr (.inl ⟨_, _, by simp [distBase]; omega, rfl⟩)
  · exact .inr (.inl ⟨_, _, by simp [distBase]; omega, rfl⟩)
  · exact .inr (.inl ⟨_, _, by simp [distBase]; omega, rfl⟩)
  · exact .inr (.inl ⟨_, _, by simp [distBase]; omega, rfl⟩)
  · exact .inr (.inl ⟨_, _, by simp [distBase]; omega, rfl⟩)
  · exact .inr (.inl ⟨_, _, by simp [distBase]; omega, rfl⟩)
  · exact .inr (.inl ⟨_, _, by simp [distBase]; omega, rfl⟩)
  · exact .inr (.inl ⟨_, _, by simp [distBase]; omega, rfl⟩)
  · exact .inr (.inl ⟨_, _, by simp [distBase]; omega, rfl⟩)
  · exact .inr (.inl ⟨_, _, by simp [distBase]; omega, rfl⟩)
  · exact .inr (.inr rfl)

/-- The engine's step, whatever the host's actions. -/
def engineStep (s : State) : Host.Outcome State Fault Refusal :=
  match engineNext s with
  | .move s' => .next s'
  | .run i s' => exec i s'
  | .refused r => .refused r

/-- Where an engine step stops. -/
structure Stops (s : State) (o : Host.Outcome State Fault Refusal) : Prop where
  fault : ∀ f, o = .fault f → f = .outputWrite ∧ (∃ u v, SymbolReady s u v ∧ v < 256 ∧ s.target ≤ s.outPos) ∨
    f = .outputRead ∧ s.phase = .copyRun ∧ s.outPos < s.cpDist
  refused : ∀ r, o = .refused r →
    r = .duplicateSymbol ∧ (s.phase = .resetInit ∧ initBoot s.bootDict = .duplicate ∨
      (s.phase = .parseSym ∨ s.phase = .parseCopy) ∧ s.seq = .runs ∧ ¬ s.builder.Above s.tpRem) ∨
    ∃ v, r = .notASymbol v ∧ (¬ s.TablesInv ∨ 285 ≤ s.cpSym)

/-- What is known of an engine step's outcome. -/
def StepSpec (s : State) (o : Host.Outcome State Fault Refusal) : Prop := (∀ t, o = .next t → Effect s t) ∧ Stops s o

theorem StepSpec.ofEffect {s t : State} (h : Effect s t) : StepSpec s (.next t) :=
  ⟨fun t' e => by cases e; exact h, ⟨fun f e => (by cases e), fun r e => (by cases e)⟩⟩

theorem StepSpec.notASymbol {s : State} {v : Nat} (h : ¬ s.TablesInv ∨ 285 ≤ s.cpSym) :
    StepSpec s (.refused (.notASymbol v)) :=
  ⟨fun t' e => (by cases e), ⟨fun f e => (by cases e), fun r e => by cases e; exact .inr ⟨v, rfl, h⟩⟩⟩

/-- The step of a symbol that is ready. -/
theorem StepSpec.symbol {s u : State} {v : Nat} (h : SymbolReady s u v) (hv : v < 512) :
    StepSpec s (exec (decodeSymRow (BitVec.ofNat 9 v)) u) := by
  have hpos : u.outPos = s.outPos ∧ u.target = s.target := by
    rcases h with ⟨_, c, _, rfl⟩ | ⟨_, _, rfl⟩ <;> exact ⟨rfl, rfl⟩
  rcases exec_symbol hv u with ⟨h1, e⟩ | ⟨h1, L, hL, e⟩ | ⟨h1, B, n, hB, e⟩ | ⟨h1, e⟩ <;> rw [e]
  · by_cases hp : u.outPos < u.target
    · simp only [execLit, State.emit_room _ hp, Res.bind_ok, Res.outcome_ok]
      exact .ofEffect (.lit u v h h1 hp)
    · simp only [execLit, State.emit, hp, if_false, Res.bind_fault, Res.outcome_fault]
      refine ⟨fun t' e => (by cases e), ⟨fun f e => ?_, fun r e => (by cases e)⟩⟩
      cases e
      exact .inl ⟨rfl, u, v, h, h1, by omega⟩
  · exact .ofEffect (.lenDone u v h h1 L hL)
  · exact .ofEffect (.lenBase u v h h1 B hB n)
  · refine .ofEffect (.raised _ u ?_)
    rcases h with ⟨hp, c, hd, rfl⟩ | ⟨hp, rfl, rfl⟩
    · have hno : ¬ s.TablesInv := fun ht => by have := (Table.Ok.decode_ok ht.1 hd).1; omega
      have hph : ¬ (v < Config.litLimit) := by simp; omega
      exact ⟨rfl, rfl, ⟨rfl, rfl, rfl⟩, ⟨rfl, rfl, rfl, rfl, rfl, rfl, rfl, rfl, rfl⟩, ⟨rfl, rfl, rfl⟩,
        by simp [hph, hp], id, fun ht => absurd ht hno, .inl rfl, .inl rfl, Nat.sub_le _ _, .inl rfl, .inl rfl,
        .inr fun ht => absurd ht hno, .inl ⟨rfl, rfl⟩, fun h => (by cases h),
        by simp, by simp, fun _ ht => absurd ht hno, by simp⟩
    · exact ⟨rfl, rfl, ⟨rfl, rfl, rfl⟩, ⟨rfl, rfl, rfl, rfl, rfl, rfl, rfl, rfl, rfl⟩, ⟨rfl, rfl, rfl⟩,
        Iff.rfl, id, fun _ => Cursor.To.refl _ _, .inl rfl, .inl rfl, le_refl _, .inl rfl, .inl rfl,
        .inl rfl, .inl ⟨rfl, rfl⟩, fun h => ⟨h, rfl⟩, by simp, by simp, fun _ _ => h1, by simp⟩

/-- The step of a raw COUNT. -/
theorem StepSpec.count {s : State} (hp : s.phase = .parseSym ∨ s.phase = .parseCopy) (hq : s.seq ≠ .clear)
    (n : BitVec 16) : StepSpec s (execCount n s) := by
  have h16 := n.isLt
  rcases s.read_any (n := 16) (by omega) with ⟨v, c, e, hc⟩ | ⟨c, e, hc⟩
  · by_cases hn : 285 < n.toNat
    · simp only [execCount, e, Res.bind_ok, State.setCount, hn, if_true, Res.bind_raise, Res.outcome_raise]
      refine .ofEffect (.raised _ _ ?_)
      exact ⟨rfl, rfl, ⟨rfl, rfl, rfl⟩, ⟨rfl, rfl, rfl, rfl, rfl, rfl, rfl, rfl, rfl⟩, ⟨rfl, rfl, rfl⟩,
        Iff.rfl, id, fun _ => hc, .inl rfl, .inl rfl, le_refl _, .inr (by simp only; omega), .inl rfl,
        .inl rfl, .inl ⟨rfl, rfl⟩, fun h => absurd h hq, by simp, by simp, by simp, by simp⟩
    · simp only [execCount, e, Res.bind_ok, State.setCount, hn, if_false, Res.outcome_ok]
      exact .ofEffect (.counted hp c hc _ (by omega))
  · simp only [execCount, e, Res.bind_raise, Res.outcome_raise]
    exact .ofEffect (.raised _ _ (.cursor_only (fun _ => hc) (by simp) (by simp) (by simp) (by simp)))

/-- The step of a run code. -/
theorem StepSpec.runCode {s : State} (hp : s.phase = .parseSym ∨ s.phase = .parseCopy) (hq : s.seq = .runs)
    (h0 : 0 ≤ s.tpRem) {v : Nat} {c : Cursor} (hd : s.bootT.decode s.inMem s.bc = .ok v c) (hv : v < 285) :
    StepSpec s (State.run v { s with bc := c }).outcome := by
  simp only [State.run]
  split
  · exact .ofEffect (.skipped hp hq h0 v c hd _ (by omega) (by omega))
  · rcases State.assignRun_cases (v % 32) (v / 32 + 1) { s with bc := c } with
      ⟨b, e, hb, ha⟩ | ⟨e, b, r, e', hb, hr1, hr2, he⟩ | ⟨e, ha⟩
    · rw [e]
      exact .ofEffect (.assigned hp hq h0 v c hd _ (by omega) (by omega) b hb ha)
    · rw [e']
      refine .ofEffect (.raised _ _ ?_)
      simp only at hr1 hr2
      have he1 : e ≠ .allocationFailure ∧ (e = .invalidCodeLength → s.phase = .resetInit) ∧
          e ≠ .invalidLengthCode ∧ e ≠ .emptyTable := by
        rcases he with ⟨_, h32⟩ | rfl
        · omega
        · simp
      exact ⟨rfl, rfl, ⟨rfl, rfl, rfl⟩, ⟨rfl, rfl, rfl, rfl, rfl, rfl, rfl, rfl, rfl⟩, ⟨rfl, rfl, rfl⟩,
        Iff.rfl, hb, fun ht hi => by
          obtain ⟨a1, a2, a3⟩ := (Table.Ok.decode_ok ht.2.2.1 hd).2.2 hi
          exact ⟨a1, a2, le_of_lt a3⟩, .inl rfl, .inl rfl, le_refl _, .inl rfl,
        .inr ⟨by simp only; omega, hr2⟩, .inl rfl, .inl ⟨rfl, rfl⟩, fun h => by rw [show ({ s with bc := c, builder := b, tpRem := r } : State).seq = .runs from hq] at h; exact absurd h (by simp),
        he1.1, he1.2.1, fun h => absurd h he1.2.2.1, fun h => absurd h he1.2.2.2⟩
    · rw [e]
      refine ⟨fun t' e => (by cases e), ⟨fun f e => (by cases e), fun r e => ?_⟩⟩
      cases e
      exact .inl ⟨rfl, .inr ⟨hp, hq, ha⟩⟩

/-- The step of a code that DECODE does not yield. -/
theorem StepSpec.decodeRaise {s : State} {t : TableId} {e : ErrKind} {c : Cursor}
    (hd : (s.table t).decode s.inMem s.bc = .raise e c)
    (h : t = .bootT ∧ (s.phase = .parseSym ∨ s.phase = .parseCopy) ∨ t = .copyT ∧ s.phase = .copyDist) :
    StepSpec s (.next (State.takeError e { s with bc := c })) := by
  refine .ofEffect (.raised _ _ (.cursor_only (fun ht => ?_) ?_ ?_ ?_ ?_))
  · refine Table.Ok.decode_raise_to (t := s.table t) ?_ hd
    rcases h with ⟨rfl, _⟩ | ⟨rfl, _⟩
    · exact ht.2.2.1
    · exact ht.2.1
  all_goals rcases Table.decode_raise hd with ⟨rfl, he⟩ | rfl | rfl <;> simp
  rcases h with ⟨rfl, h⟩ | ⟨rfl, h⟩
  · exact .inl h
  · exact .inr (.inr ⟨h, he⟩)

/-- A table parse. -/
theorem StepSpec.parse {s : State} {t : WorkTable} {after : Phase}
    (h : s.phase = .parseSym ∧ t = .symT ∧ after = .parseCopy ∨ s.phase = .parseCopy ∧ t = .copyT ∧ after = .blockParams) :
    StepSpec s (engineStep s) := by
  have hp : s.phase = .parseSym ∨ s.phase = .parseCopy := by rcases h with h | h; exacts [.inl h.1, .inr h.1]
  have hn : engineNext s = parseNext t after s := by
    rcases h with ⟨a, rfl, rfl⟩ | ⟨a, rfl, rfl⟩ <;> simp [engineNext, a]
  have raw : s.seq ≠ .clear → parseNext t after s = rawNext .count s → StepSpec s (engineStep s) := by
    intro hq e
    simp only [engineStep, hn, e, rawNext, decodeValue]
    exact .count hp hq _
  cases hq : s.seq with
  | start => exact raw (by simp [hq]) (by simp [parseNext, hq])
  | lenExtra n => exact raw (by simp [hq]) (by simp [parseNext, hq])
  | distExtra n => exact raw (by simp [hq]) (by simp [parseNext, hq])
  | clear =>
    simp only [engineStep, hn, parseNext, hq]
    exact .ofEffect (.cleared hp hq)
  | runs =>
    by_cases h0 : 0 ≤ s.tpRem
    · have e : engineNext s = codeNext .bootT .run (fun _ s' => s') s := by
        rw [hn]; simp only [parseNext, hq, h0, if_true]
      simp only [engineStep, e, codeNext, State.table_bootT]
      cases hd : s.bootT.decode s.inMem s.bc with
      | raise e c => exact .decodeRaise (t := .bootT) hd (.inl ⟨rfl, hp⟩)
      | ok v c =>
        by_cases hv : v < 285
        · simp only [decodeValue, hv, if_true, exec_decodeRun hv]
          exact .runCode hp hq h0 hd hv
        · simp only [decodeValue, hv, if_false, refusalOf]
          exact .notASymbol (.inl fun ht => hv (Table.Ok.decode_ok ht.2.2.1 hd).1)
    · simp only [engineStep, hn, parseNext, hq, h0, if_false, exec, execBuild, State.build]
      cases hb : s.builder.build with
      | none =>
        simp only [Res.outcome_raise]
        refine .ofEffect (.raised _ _ ?_)
        exact ⟨rfl, rfl, ⟨rfl, rfl, rfl⟩, ⟨rfl, rfl, rfl, rfl, rfl, rfl, rfl, rfl, rfl⟩, ⟨rfl, rfl, rfl⟩,
          Iff.rfl, id, fun _ => Cursor.To.refl _ _, .inl rfl, .inl rfl, le_refl _, .inl rfl, .inl rfl,
          .inl rfl, .inl ⟨rfl, rfl⟩, fun h => (by cases h), by simp, by simp, by simp, by simp⟩
      | some T =>
        obtain ⟨hk, rfl⟩ := Builder.build_eq_some.mp hb
        have e : ({ s with seq := .result } : State).setTable t.id s.builder.table =
            { s.setTable t.id s.builder.table with seq := .result } := by cases t <;> rfl
        simp only [Res.outcome_ok, e]
        refine .ofEffect (.built t ?_ hq (by omega) hk)
        rcases h with ⟨a, b, _⟩ | ⟨a, b, _⟩
        · exact .inl ⟨a, b⟩
        · exact .inr ⟨a, b⟩
  | result =>
    by_cases he : (s.table t.id).empty = true
    · simp only [engineStep, hn, parseNext, hq, he, if_true]
      exact .ofEffect (.tableEmpty hp hq)
    · simp only [engineStep, hn, parseNext, hq, he, Bool.false_eq_true, if_false]
      simp only [Bool.not_eq_true] at he
      refine .ofEffect (.tableDone after ?_ hq)
      rcases h with ⟨a, rfl, b⟩ | ⟨a, rfl, b⟩
      · exact .inl ⟨a, b, he⟩
      · exact .inr ⟨a, b, he⟩

/-- A length's extra field. -/
theorem StepSpec.lenExtra {s : State} (hp : s.phase = .copyLen) (n : Fin 5) (hq : s.seq = .lenExtra n) {x : Nat}
    (hx : x < 2 ^ (n.val + 1)) : StepSpec s (s.takeLenExtra (n.val + 1) x).outcome := by
  rcases s.read_any (n := n.val + 1) (by omega) with ⟨v, c, e, hc⟩ | ⟨c, e, hc⟩
  · simp only [State.takeLenExtra, e, Res.bind_ok, Res.outcome_ok]
    exact .ofEffect (.lenExtra hp n hq c hc x hx)
  · simp only [State.takeLenExtra, e, Res.bind_raise, Res.outcome_raise]
    exact .ofEffect (.raised _ _ (.cursor_only (fun _ => hc) (by simp) (by simp) (by simp) (by simp)))

/-- A distance's extra field. -/
theorem StepSpec.distExtra {s : State} (hp : s.phase = .copyDist) (n : Fin 15) (hq : s.seq = .distExtra n) {x : Nat}
    (hx : x < 2 ^ (n.val + 1)) : StepSpec s (s.takeDistExtra (n.val + 1) x).outcome := by
  rcases s.read_any (n := n.val + 1) (by omega) with ⟨v, c, e, hc⟩ | ⟨c, e, hc⟩
  · simp only [State.takeDistExtra, e, Res.bind_ok, State.setDistance, finalDist, withExtra]
    by_cases hr : s.outPos < (s.distance ||| x) + 1 <;> simp only [hr, if_true, if_false]
    · refine .ofEffect (.raised _ _ ?_)
      have hx15 : x < 2 ^ 15 := lt_of_lt_of_le hx (Nat.pow_le_pow_right (by omega) (by omega))
      exact ⟨rfl, rfl, ⟨rfl, rfl, rfl⟩, ⟨rfl, rfl, rfl, rfl, rfl, rfl, rfl, rfl, rfl⟩, ⟨rfl, rfl, rfl⟩,
        Iff.rfl, id, fun _ => hc, .inl rfl, .inl rfl, le_refl _, .inl rfl, .inl rfl,
        .inl rfl, .inr ⟨rfl, .inr ⟨x, hx15, rfl⟩⟩, fun h => ⟨h, rfl⟩, by simp, by simp, by simp, by simp⟩
    · exact .ofEffect (.distExtra hp n hq c hc x hx (by omega))
  · simp only [State.takeDistExtra, e, Res.bind_raise, Res.outcome_raise]
    exact .ofEffect (.raised _ _ (.cursor_only (fun _ => hc) (by simp) (by simp) (by simp) (by simp)))

/-- A distance code. -/
theorem StepSpec.distance {s : State} (hp : s.phase = .copyDist) (hq : ∀ n, s.seq ≠ .distExtra n) :
    StepSpec s (engineStep s) := by
  have hn : engineNext s = codeNext .copyT .dsym (fun _ s' => s') s := by
    cases hs : s.seq with
    | distExtra n => exact absurd hs (hq n)
    | _ => simp [engineNext, hp, hs]
  simp only [engineStep, hn, codeNext, State.table_copyT]
  cases hd : s.copyT.decode s.inMem s.bc with
  | raise e c => exact .decodeRaise (t := .copyT) hd (.inr ⟨rfl, hp⟩)
  | ok v c =>
    by_cases hv : v < 285
    · simp only [decodeValue, hv, if_true]
      have hto : s.TablesInv → Cursor.To s.inMem s.bc c := fun ht hi => by
        obtain ⟨a1, a2, a3⟩ := (Table.Ok.decode_ok ht.2.1 hd).2.2 hi
        exact ⟨a1, a2, le_of_lt a3⟩
      rcases exec_distance hv { s with bc := c } with ⟨D, hD, e⟩ | ⟨B, n, hB, e⟩ | e <;> rw [e]
      · simp only [State.setDistance, finalDist]
        by_cases hr : s.outPos < D + 1 <;> simp only [hr, if_true, if_false]
        · refine .ofEffect (.raised _ _ ?_)
          exact ⟨rfl, rfl, ⟨rfl, rfl, rfl⟩, ⟨rfl, rfl, rfl, rfl, rfl, rfl, rfl, rfl, rfl⟩, ⟨rfl, rfl, rfl⟩,
            Iff.rfl, id, hto, .inl rfl, .inl rfl, le_refl _, .inl rfl, .inl rfl,
            .inl rfl, .inr ⟨rfl, .inl hD⟩, fun h => ⟨h, rfl⟩, by simp, by simp, by simp, by simp⟩
        · exact .ofEffect (.distDone hp v c hd D hD (by omega))
      · exact .ofEffect (.distBase hp v c hd B hB n)
      · exact .ofEffect (.raised _ _ (.cursor_only hto (by simp) (by simp) (by simp) (by simp)))
    · simp only [decodeValue, hv, if_false, refusalOf]
      exact .notASymbol (.inl fun ht => hv (Table.Ok.decode_ok ht.2.1 hd).1)

/-- A symbol already in `cp_sym`. -/
theorem StepSpec.kept {s : State} (hp : s.phase = .literal ∨ s.phase = .copyLen) (hn : engineNext s = symbolNext s) :
    StepSpec s (engineStep s) := by
  simp only [engineStep, hn, symbolNext]
  by_cases hv : s.cpSym < 512
  · simp only [decodeValue, hv, if_true]
    exact .symbol (.inr ⟨hp, rfl, rfl⟩) hv
  · simp only [decodeValue, hv, if_false, refusalOf]
    exact .notASymbol (.inr (by omega))

/-- HDR. -/
theorem StepSpec.hdr {s : State} (hp : s.phase = .header) (a size r : Word) : StepSpec s (execHdr a size r s) := by
  rcases s.drop_any (n := 32) (by omega) with ⟨c, e, hc⟩ | ⟨c, e, hc⟩
  · rcases State.read_any { s with bc := c } (n := 32) (by omega) with ⟨v, c2, e2, hc2⟩ | ⟨c2, e2, hc2⟩
    · rcases State.drop_any { s with bc := c2, declared := size.toNat } (n := 32) (by omega) with
        ⟨c3, e3, hc3⟩ | ⟨c3, e3, hc3⟩
      · simp only [execHdr, e, Res.bind_ok, e2, e3, Res.outcome_ok, BitVec.ofNat_toNat, BitVec.setWidth_eq]
        exact .ofEffect (.header hp c3 ((hc.trans hc2).trans hc3) size)
      · simp only [execHdr, e, Res.bind_ok, e2, e3, Res.bind_raise, Res.outcome_raise]
        refine .ofEffect (.raised _ _ ?_)
        exact ⟨rfl, rfl, ⟨rfl, rfl, rfl⟩, ⟨rfl, rfl, rfl, rfl, rfl, rfl, rfl, rfl, rfl⟩, ⟨rfl, rfl, rfl⟩,
          Iff.rfl, id, fun _ => (hc.trans hc2).trans hc3, .inr size.isLt, .inl rfl, le_refl _, .inl rfl, .inl rfl,
          .inl rfl, .inl ⟨rfl, rfl⟩, fun h => ⟨h, rfl⟩, by simp, by simp, by simp, by simp⟩
    · simp only [execHdr, e, Res.bind_ok, e2, Res.bind_raise, Res.outcome_raise]
      exact .ofEffect (.raised _ _ (.cursor_only (fun _ => hc.trans hc2) (by simp) (by simp) (by simp) (by simp)))
  · simp only [execHdr, e, Res.bind_raise, Res.outcome_raise]
    exact .ofEffect (.raised _ _ (.cursor_only (fun _ => hc) (by simp) (by simp) (by simp) (by simp)))

/-- PARAMS. -/
theorem StepSpec.params {s : State} (hp : s.phase = .blockParams) (r sv m : BitVec 4) :
    StepSpec s (execParams r sv m s) := by
  have h4 := sv.isLt
  rcases s.drop_any (n := 4) (by omega) with ⟨c, e, hc⟩ | ⟨c, e, hc⟩
  · rcases State.read_any { s with bc := c } (n := 4) (by omega) with ⟨v, c2, e2, hc2⟩ | ⟨c2, e2, hc2⟩
    · rcases State.read_any { s with bc := c2, wsb := paramsWsb sv } (n := 4) (by omega) with
        ⟨w, c3, e3, hc3⟩ | ⟨c3, e3, hc3⟩
      · simp only [execParams, e, Res.bind_ok, e2, e3, Res.outcome_ok]
        have := Effect.params hp c3 ((hc.trans hc2).trans hc3) sv m
        refine .ofEffect ?_
        simp only [paramsCodes, Nat.shiftLeft_eq]
        exact this
      · simp only [execParams, e, Res.bind_ok, e2, e3, Res.bind_raise, Res.outcome_raise]
        refine .ofEffect (.raised _ _ ?_)
        exact ⟨rfl, rfl, ⟨rfl, rfl, rfl⟩, ⟨rfl, rfl, rfl, rfl, rfl, rfl, rfl, rfl, rfl⟩, ⟨rfl, rfl, rfl⟩,
          Iff.rfl, id, fun _ => (hc.trans hc2).trans hc3, .inl rfl, .inr (by simp only [paramsWsb]; omega), le_refl _,
          .inl rfl, .inl rfl, .inl rfl, .inl ⟨rfl, rfl⟩, fun h => ⟨h, rfl⟩, by simp, by simp, by simp, by simp⟩
    · simp only [execParams, e, Res.bind_ok, e2, Res.bind_raise, Res.outcome_raise]
      exact .ofEffect (.raised _ _ (.cursor_only (fun _ => hc.trans hc2) (by simp) (by simp) (by simp) (by simp)))
  · simp only [execParams, e, Res.bind_raise, Res.outcome_raise]
    exact .ofEffect (.raised _ _ (.cursor_only (fun _ => hc) (by simp) (by simp) (by simp) (by simp)))

/-- Everything an engine step can do. -/
theorem engineStep_spec (s : State) : StepSpec s (engineStep s) := by
  cases hp : s.phase with
  | resetInit =>
    have e : engineNext s = .run .initBoot s := by simp only [engineNext, hp]
    simp only [engineStep, e, exec, execInitBoot, State.initBoot]
    rcases initBoot_cases s.bootDict with ⟨T, e, hT⟩ | ⟨e', b, e, hb, he⟩ | e
    · simp only [e, Res.outcome_ok, if_pos hp]
      exact .ofEffect (.booted T hp hT)
    · simp only [e, Res.outcome_raise]
      refine .ofEffect (.raised _ _ ?_)
      exact ⟨rfl, rfl, ⟨rfl, rfl, rfl⟩, ⟨rfl, rfl, rfl, rfl, rfl, rfl, rfl, rfl, rfl⟩, ⟨rfl, rfl, rfl⟩,
        Iff.rfl, fun _ => hb, fun _ => Cursor.To.refl _ _, .inl rfl, .inl rfl, le_refl _, .inl rfl, .inl rfl,
        .inl rfl, .inl ⟨rfl, rfl⟩, fun h => ⟨h, rfl⟩, by rcases he with rfl | rfl | rfl <;> simp, fun _ => hp,
        by rcases he with rfl | rfl | rfl <;> simp, by rcases he with rfl | rfl | rfl <;> simp⟩
    · simp only [e, Res.outcome_refused]
      refine ⟨fun t' e => (by cases e), ⟨fun f e => (by cases e), fun r e' => ?_⟩⟩
      cases e'
      exact .inl ⟨rfl, .inl ⟨hp, e⟩⟩
  | idle =>
    have e : engineNext s = .move s := by simp only [engineNext, hp]
    simp only [engineStep, e]
    exact .ofEffect (.wait (.inl hp))
  | failed =>
    have e : engineNext s = .move s := by simp only [engineNext, hp]
    simp only [engineStep, e]
    exact .ofEffect (.wait (.inr hp))
  | check =>
    have e : engineNext s = .run .cursorInit { s with outPos := 0, phase := .header } := by simp only [engineNext, hp]
    simp only [engineStep, e, exec, execCursorInit]
    exact .ofEffect (.checked hp)
  | header =>
    have e : engineNext s = rawNext .hdr s := by simp only [engineNext, hp]
    simp only [engineStep, e, rawNext, decodeValue]
    generalize s.bc.lookFields s.inMem 0 Format.hdr.fields = v
    exact .hdr hp (BitVec.ofNat 32 (v >>> 64)) (BitVec.ofNat 32 (v >>> 32)) (BitVec.ofNat 32 v)
  | blockTest =>
    have e : engineNext s = .move (blockTest s) := by simp only [engineNext, hp]
    simp only [engineStep, e, blockTest]
    by_cases h : s.outPos < s.target <;> simp only [h, if_true, if_false]
    · exact .ofEffect (.blockMore hp h)
    · exact .ofEffect (.blockDone hp (by omega))
  | parseSym => exact .parse (.inl ⟨hp, rfl, rfl⟩)
  | parseCopy => exact .parse (.inr ⟨hp, rfl, rfl⟩)
  | blockParams =>
    have e : engineNext s = rawNext .params s := by simp only [engineNext, hp]
    simp only [engineStep, e, rawNext, decodeValue]
    generalize s.bc.lookFields s.inMem 0 Format.params.fields = v
    exact .params hp (BitVec.ofNat 4 (v >>> 8)) (BitVec.ofNat 4 (v >>> 4)) (BitVec.ofNat 4 v)
  | codeTest =>
    have e : engineNext s = .move (codeTest s) := by simp only [engineNext, hp]
    simp only [engineStep, e, codeTest]
    by_cases h : 0 < s.codesLeft ∧ s.outPos < s.target
    · simp only [if_pos h]; exact .ofEffect (.codeMore hp h.1 h.2)
    · simp only [if_neg h]; exact .ofEffect (.codeDone hp)
  | symbol =>
    have e : engineNext s = codeNext .symT .sym keepSymbol { s with codesLeft := s.codesLeft - 1 } := by
      simp only [engineNext, hp]
    simp only [engineStep, e, codeNext, State.table_symT]
    cases hd : s.symT.decode s.inMem s.bc with
    | raise e c =>
      simp only
      refine .ofEffect (.raised _ _ ?_)
      have he := Table.decode_raise hd
      exact ⟨rfl, rfl, ⟨rfl, rfl, rfl⟩, ⟨rfl, rfl, rfl, rfl, rfl, rfl, rfl, rfl, rfl⟩, ⟨rfl, rfl, rfl⟩,
        Iff.rfl, id, fun ht => Table.Ok.decode_raise_to ht.1 hd, .inl rfl, .inl rfl, Nat.sub_le _ _, .inl rfl,
        .inl rfl, .inl rfl, .inl ⟨rfl, rfl⟩, fun h => ⟨h, rfl⟩,
        by rcases he with ⟨rfl, _⟩ | rfl | rfl <;> simp,
        by rcases he with ⟨rfl, _⟩ | rfl | rfl <;> simp,
        by rcases he with ⟨rfl, _⟩ | rfl | rfl <;> simp,
        by rcases he with ⟨rfl, h⟩ | rfl | rfl <;> simp [hp]; exact h⟩
    | ok v c =>
      by_cases hv : v < 512
      · simp only [decodeValue, hv, if_true, keepSymbol]
        exact .symbol (.inl ⟨hp, c, hd, rfl⟩) hv
      · simp only [decodeValue, hv, if_false, refusalOf]
        exact .notASymbol (.inl fun ht => by have := (Table.Ok.decode_ok ht.1 hd).1; omega)
  | literal => exact .kept (.inl hp) (by simp only [engineNext, hp])
  | copyLen =>
    cases hq : s.seq with
    | lenExtra n =>
      have e : engineNext s = rawNext (.lenExtra n) s := by simp only [engineNext, hp, hq]
      simp only [engineStep, e, rawNext, decodeValue]
      generalize s.bc.lookFields s.inMem 0 (Format.lenExtra n).fields = v
      have := fun x hx => StepSpec.lenExtra hp n hq (x := x) hx
      clear e hq
      revert this
      fin_cases n <;> intro this <;> exact this _ (BitVec.isLt _)
    | _ => exact .kept (.inr hp) (by simp only [engineNext, hp, hq])
  | copyDist =>
    cases hq : s.seq with
    | distExtra n =>
      have e : engineNext s = rawNext (.distExtra n) s := by simp only [engineNext, hp, hq]
      simp only [engineStep, e, rawNext, decodeValue]
      generalize s.bc.lookFields s.inMem 0 (Format.distExtra n).fields = v
      have := fun x hx => StepSpec.distExtra hp n hq (x := x) hx
      clear e hq
      revert this
      fin_cases n <;> intro this <;> exact this _ (BitVec.isLt _)
    | _ => exact .distance hp (by simp [hq])
  | copyRun =>
    have e : engineNext s = .run .copyRun s := by simp only [engineNext, hp]
    simp only [engineStep, e, exec, execCopyRun]
    rcases s.copyLoop_any s.cpLen with ⟨e, h⟩ | ⟨m, p, e, hw, h1, h2, h3⟩
    · simp only [e, Res.bind_fault, Res.outcome_fault]
      refine ⟨fun t' e => (by cases e), ⟨fun f e => ?_, fun r e => (by cases e)⟩⟩
      cases e
      exact .inr ⟨rfl, hp, h⟩
    · simp only [e, Res.bind_ok, Res.outcome_ok]
      exact .ofEffect (.copied hp m p hw h1 h2 h3)

/-- With no host action due the step is the engine's. -/
theorem step_engine {s : State} (hh : s.host = []) : step s = engineStep s := by
  have : next s = engineNext s := by simp only [next, hh]
  cases h : engineNext s <;> simp only [step, engineStep, this, h]

/-- A tick is the engine's step. -/
theorem step_tick {s : State} {rest : List HostCmd} (hh : s.host = .tick :: rest) :
    step s = engineStep { s with host := rest } := by
  have : next s = engineNext { s with host := rest } := by simp only [next, hh, hostNext]
  cases h : engineNext { s with host := rest } <;> simp only [step, engineStep, this, h]

/-- The next states of an engine step. -/
theorem step_effect {s t : State} (hh : s.host = []) (h : step s = .next t) : Effect s t := by
  rw [step_engine hh] at h
  exact (engineStep_spec s).1 t h

/-- The host's actions as state changes: the writes it may make while the core is not BUSY (20_memory R75). -/
inductive HostWrites (s : State) : State → Prop where
  | argInLen (v : Word) : HostWrites s { s with argInLen := v }
  | argOutHint (v : Word) : HostWrites s { s with argOutHint := v }
  | argOutPresent (v : Bool) : HostWrites s { s with argOutPresent := v }
  | inMem (a : Nat) (v : Byte) : HostWrites s { s with inMem := s.inMem.write a v }
  | outMem (a : Nat) (v : Byte) : HostWrites s { s with outMem := s.outMem.write a v }
  | bootDict (d : List (Int × Nat)) : HostWrites s { s with bootDict := d }

/-- Everything a step with a host action due can do; `u` is the state without that action. -/
theorem step_host {s : State} {a : HostCmd} {rest : List HostCmd} (hh : s.host = a :: rest) :
    ∃ u, u = { s with host := rest } ∧
      ((step s = .refused .hostWriteWhileBusy ∧ s.status = .busy) ∨
        (∃ t, step s = .next t ∧ HostWrites u t ∧ s.status ≠ .busy) ∨ step s = .next u ∨ step s = exec .start u ∨
        step s = exec .reset u ∨ step s = engineStep u) := by
  have hw : ∀ t, HostWrites { s with host := rest } t →
      (match hostWrite { s with host := rest } t with
        | .move s' => .next s'
        | .run i s' => exec i s'
        | .refused r => .refused r) = (if s.status = .busy then .refused .hostWriteWhileBusy else .next t :
          Host.Outcome State Fault Refusal) := by
    intro t _
    by_cases hb : s.status = .busy <;> simp [hostWrite, State.hostMayWrite, State.isBusy, hb]
  refine ⟨_, rfl, ?_⟩
  have key : ∀ t, HostWrites { s with host := rest } t → next s = hostWrite { s with host := rest } t →
      (step s = .refused .hostWriteWhileBusy ∧ s.status = .busy) ∨
        (∃ t, step s = .next t ∧ HostWrites { s with host := rest } t ∧ s.status ≠ .busy) := by
    intro t ht hn
    have := hw t ht
    rw [← hn] at this
    by_cases hb : s.status = .busy
    · rw [if_pos hb] at this; exact .inl ⟨this, hb⟩
    · rw [if_neg hb] at this; exact .inr ⟨t, this, ht, hb⟩
  have join : ∀ {P Q R : Prop}, P ∨ Q → P ∨ Q ∨ R := fun h => h.elim .inl fun h => .inr (.inl h)
  cases a with
  | argInLen v => exact join (key _ (.argInLen v) (by simp only [next, hh, hostNext]))
  | argOutHint v => exact join (key _ (.argOutHint v) (by simp only [next, hh, hostNext]))
  | argOutPresent v => exact join (key _ (.argOutPresent v) (by simp only [next, hh, hostNext]))
  | writeIn k v => exact join (key _ (.inMem k.toNat v) (by simp only [next, hh, hostNext]))
  | writeOut k v => exact join (key _ (.outMem k.toNat v) (by simp only [next, hh, hostNext]))
  | bootDict d => exact join (key _ (.bootDict d) (by simp only [next, hh, hostNext]))
  | cmdStart v =>
    have hn : next s = if v then .run .start { s with host := rest } else .move { s with host := rest } := by
      simp only [next, hh, hostNext]
    cases v
    · exact .inr (.inr (.inl (by rw [step, hn]; rfl)))
    · exact .inr (.inr (.inr (.inl (by rw [step, hn]; rfl))))
  | reset => exact .inr (.inr (.inr (.inr (.inl (by simp only [step, next, hh, hostNext])))))
  | tick => exact .inr (.inr (.inr (.inr (.inr (step_tick hh)))))

end Sys2Proof.Machine
end

