-- ==== Sys2Proof/Laws/Host.lean ====
section
/-!
SUPPORT. No instruction and no engine step reads or writes the host's actions still to come (10_state R26; log entry 7):
what each does from a state with other actions due is what it does, with those actions put back. `engineStep_host` says
it of the engine's step, and `step_tick_rest` of a tick with actions after it.
-/

namespace Sys2Proof.Machine

/-- The state with the host's actions replaced. -/
def State.withHost (h : List HostCmd) (s : State) : State := { s with host := h }

/-- The outcome with the host's actions of its next state replaced. -/
def outcomeWithHost (h : List HostCmd) (o : Host.Outcome State Fault Refusal) : Host.Outcome State Fault Refusal :=
  match o with
  | .next s => .next (s.withHost h)
  | .fault f => .fault f
  | .refused r => .refused r

/-- The result with the host's actions of its state replaced. -/
def Res.withHost {α : Type} (h : List HostCmd) (r : Res α) : Res α :=
  match r with
  | .ok v s => .ok v (s.withHost h)
  | .raise e s => .raise e (s.withHost h)
  | .fault f => .fault f
  | .refused x => .refused x

variable (h : List HostCmd)

/-! ## Results -/

theorem Res.outcome_host {α : Type} (r : Res α) : (r.withHost h).outcome = outcomeWithHost h r.outcome := by
  cases r <;> rfl

theorem Res.bind_host {α β : Type} (r : Res α) {f : α → State → Res β}
    (hf : ∀ v s, f v (s.withHost h) = (f v s).withHost h) : (r.withHost h).bind f = (r.bind f).withHost h := by
  cases r with
  | ok v s => exact hf v s
  | _ => rfl

theorem Res.keep_host (r : Res Nat) : (r.withHost h).keep = r.keep.withHost h := r.bind_host h fun _ _ => rfl

theorem State.withCursor_host {α : Type} (s : State) (r : CurRes α) :
    (s.withHost h).withCursor r = (s.withCursor r).withHost h := by cases r <;> rfl

/-! ## The operations -/

theorem State.need_host (n : Nat) (s : State) : (s.withHost h).need n = (s.need n).withHost h := s.withCursor_host h _

theorem State.peek_host (n : Nat) (s : State) : (s.withHost h).peek n = (s.peek n).withHost h := s.withCursor_host h _

theorem State.drop_host (n : Nat) (s : State) : (s.withHost h).drop n = (s.drop n).withHost h := s.withCursor_host h _

theorem State.read_host (n : Nat) (s : State) : (s.withHost h).read n = (s.read n).withHost h := s.withCursor_host h _

theorem State.table_host (t : TableId) (s : State) : (s.withHost h).table t = s.table t := by cases t <;> rfl

theorem State.decode_host (t : TableId) (s : State) : (s.withHost h).decode t = (s.decode t).withHost h := by
  simp only [State.decode, State.table_host]; exact s.withCursor_host h _

theorem State.addSymbol_host (x : Int) (L : Nat) (s : State) :
    (s.withHost h).addSymbol x L = (s.addSymbol x L).withHost h := by
  show (match s.builder.addSymbol x L with | .ok b => _ | .raise e => _ | .duplicate => _) = _
  simp only [State.addSymbol]
  cases s.builder.addSymbol x L <;> rfl

theorem State.build_host (t : TableId) (s : State) : (s.withHost h).build t = (s.build t).withHost h := by
  show (match s.builder.build with | some x => _ | none => _) = _
  simp only [State.build]
  cases s.builder.build with
  | none => rfl
  | some x => cases t <;> rfl

theorem State.initBoot_host (s : State) : (s.withHost h).initBoot = s.initBoot.withHost h := by
  show (match Machine.initBoot s.bootDict with | .ok t => _ | .raise e b => _ | .duplicate => _) = _
  simp only [State.initBoot]
  cases Machine.initBoot s.bootDict <;> rfl

theorem State.setCount_host (n : Nat) (s : State) : (s.withHost h).setCount n = (s.setCount n).withHost h := by
  unfold State.setCount; split <;> rfl

theorem State.assignRun_host (len rep : Nat) (s : State) :
    (s.withHost h).assignRun len rep = (s.assignRun len rep).withHost h := by
  induction rep generalizing s with
  | zero => rfl
  | succ rep ih =>
    simp only [State.assignRun]
    rw [← Res.bind_host h _ fun _ s' => ih { s' with tpRem := s'.tpRem - 1 }]
    exact congrArg (Res.bind · _) (s.addSymbol_host h s.tpRem len)

theorem State.run_host (rc : Nat) (s : State) : (s.withHost h).run rc = (s.run rc).withHost h := by
  unfold State.run
  split
  · rfl
  · exact s.assignRun_host h _ _

theorem State.runLoop_host (k : Nat) (s : State) : State.runLoop k (s.withHost h) = (State.runLoop k s).withHost h := by
  induction k generalizing s with
  | zero => rfl
  | succ k ih =>
    simp only [State.runLoop]
    show (if 0 ≤ s.tpRem then _ else _) = _
    split
    · rw [State.decode_host]
      refine Res.bind_host h _ fun rc s' => ?_
      rw [State.run_host]
      exact Res.bind_host h _ fun _ s'' => ih s''
    · rfl

theorem State.parseTable_host (t : WorkTable) (s : State) :
    (s.withHost h).parseTable t = (s.parseTable t).withHost h := by
  simp only [State.parseTable, State.read_host]
  refine Res.bind_host h _ fun n s1 => ?_
  rw [State.setCount_host]
  refine Res.bind_host h _ fun _ s2 => ?_
  refine (congrArg (Res.bind · _)
    (State.runLoop_host h s2.tpN { s2.clearBuilder with tpRem := (s2.tpN : Int) - 1 })).trans ?_
  refine Res.bind_host h _ fun _ s4 => ?_
  rw [State.build_host]
  exact Res.bind_host h _ fun _ s5 => by simp only [State.table_host]; rfl

theorem State.setDistance_host (d : Nat) (s : State) : (s.withHost h).setDistance d = (s.setDistance d).withHost h := by
  unfold State.setDistance
  show (if s.outPos < finalDist d then _ else _) = _
  split <;> rfl

theorem State.takeLenExtra_host (w x : Nat) (s : State) :
    (s.withHost h).takeLenExtra w x = (s.takeLenExtra w x).withHost h := by
  simp only [State.takeLenExtra, State.read_host]
  exact Res.bind_host h _ fun _ _ => rfl

theorem State.takeDistExtra_host (w x : Nat) (s : State) :
    (s.withHost h).takeDistExtra w x = (s.takeDistExtra w x).withHost h := by
  simp only [State.takeDistExtra, State.read_host]
  exact Res.bind_host h _ fun _ s' => s'.setDistance_host h _

theorem State.emit_host (b : Byte) (s : State) : (s.withHost h).emit b = (s.emit b).withHost h := by
  unfold State.emit
  show (if s.outPos < s.target then _ else _) = _
  split <;> rfl

theorem State.copyLoop_host (i : Nat) (s : State) : (s.withHost h).copyLoop i = (s.copyLoop i).withHost h := by
  induction i generalizing s with
  | zero => rfl
  | succ i ih =>
    simp only [State.copyLoop]
    show (if s.outPos < s.target then if s.outPos < s.cpDist then _ else _ else _) = _
    split
    · split
      · rfl
      · rw [← Res.bind_host h _ fun _ s' => ih s']
        exact congrArg (Res.bind · _) (s.emit_host h _)
    · rfl

theorem withBitCount_host (n : Nat) (r : Res Unit) :
    withBitCount n (r.withHost h) = outcomeWithHost h (withBitCount n r) := by
  unfold withBitCount
  split
  · exact r.outcome_host h
  · rfl

/-! ## The instructions and the engine -/

/-- No instruction depends on the host's actions still to come, and none changes them. -/
theorem exec_host (i : Instr) (s : State) : exec i (s.withHost h) = outcomeWithHost h (exec i s) := by
  have dist : ∀ d, ((s.withHost h).setDistance d).outcome = outcomeWithHost h (s.setDistance d).outcome := fun d => by
    rw [State.setDistance_host, Res.outcome_host]
  have lenX : ∀ w x, ((s.withHost h).takeLenExtra w x).outcome = outcomeWithHost h (s.takeLenExtra w x).outcome :=
    fun w x => by rw [State.takeLenExtra_host, Res.outcome_host]
  have distX : ∀ w x, ((s.withHost h).takeDistExtra w x).outcome = outcomeWithHost h (s.takeDistExtra w x).outcome :=
    fun w x => by rw [State.takeDistExtra_host, Res.outcome_host]
  cases i with
  | refill =>
    simp only [exec, execRefill]
    show (if s.bc.valid ≤ 32 then _ else _) = _
    split
    · exact (congrArg Res.outcome (s.withCursor_host h _)).trans (Res.outcome_host h _)
    · rfl
  | need n => simp only [exec, execNeed, State.need_host, withBitCount_host]
  | peek n => simp only [exec, execPeek, State.peek_host, Res.keep_host, withBitCount_host]
  | drop n => simp only [exec, execDrop, State.drop_host, withBitCount_host]
  | read n => simp only [exec, execRead, State.read_host, Res.keep_host, withBitCount_host]
  | decode t => simp only [exec, execDecode, State.decode_host, Res.keep_host, Res.outcome_host]
  | addSymbol x L => simp only [exec, execAddSymbol, State.addSymbol_host, Res.outcome_host]
  | build t => simp only [exec, execBuild, State.build_host, Res.outcome_host]
  | initBoot => simp only [exec, execInitBoot, State.initBoot_host, Res.outcome_host]
  | parseTable t => simp only [exec, execParseTable, State.parseTable_host, Res.keep_host, Res.outcome_host]
  | reset =>
    simp only [exec, execReset]
    show (match Machine.initBoot s.bootDict with | .ok _ | .raise _ _ => _ | .duplicate => _) = _
    cases Machine.initBoot s.bootDict <;> rfl
  | start =>
    simp only [exec, execStart]
    show (if s.acceptsStart = true then if s.argInLen = 0 then _ else
      if s.argOutPresent = true ∧ s.argOutHint = 0 then _ else _ else _) = _
    split
    · split
      · rfl
      · split <;> rfl
    · rfl
  | copyRun =>
    simp only [exec, execCopyRun]
    rw [← Res.outcome_host, ← Res.bind_host h _ fun _ _ => rfl]
    exact congrArg (fun r => (Res.bind r _).outcome) (s.copyLoop_host h s.cpLen)
  | lit b =>
    simp only [exec, execLit, State.emit_host]
    rw [← Res.outcome_host, ← Res.bind_host h _ fun _ _ => rfl]
  | hdr a b c =>
    simp only [exec, execHdr, State.drop_host]
    rw [← Res.outcome_host]
    refine congrArg Res.outcome (Res.bind_host h _ fun _ s1 => ?_)
    rw [State.read_host]
    refine Res.bind_host h _ fun _ s2 => ?_
    refine (congrArg (Res.bind · _) (State.drop_host h 32 { s2 with declared := b.toNat })).trans ?_
    exact Res.bind_host h _ fun _ _ => rfl
  | params a b c =>
    simp only [exec, execParams, State.drop_host]
    rw [← Res.outcome_host]
    refine congrArg Res.outcome (Res.bind_host h _ fun _ s1 => ?_)
    rw [State.read_host]
    refine Res.bind_host h _ fun _ s2 => ?_
    refine (congrArg (Res.bind · _) (State.read_host h 4 { s2 with wsb := paramsWsb b })).trans ?_
    exact Res.bind_host h _ fun _ _ => rfl
  | count n =>
    simp only [exec, execCount, State.read_host]
    rw [← Res.outcome_host]
    refine congrArg Res.outcome (Res.bind_host h _ fun _ s1 => ?_)
    rw [State.setCount_host]
    exact Res.bind_host h _ fun _ _ => rfl
  | runAssign rep len => simp only [exec, execRunAssign, State.assignRun_host, Res.outcome_host]
  | lenExtra1 x | lenExtra2 x | lenExtra3 x | lenExtra4 x | lenExtra5 x => exact lenX _ _
  | distQ0 r | distQ1 r => exact dist _
  | distExtra1 x | distExtra2 x | distExtra3 x | distExtra4 x | distExtra5 x | distExtra6 x | distExtra7 x
  | distExtra8 x | distExtra9 x | distExtra10 x | distExtra11 x | distExtra12 x | distExtra13 x | distExtra14 x
  | distExtra15 x => exact distX _ _
  | _ => rfl

/-- What comes next, with the host's actions of its state replaced. -/
def Next.withHost (h : List HostCmd) (n : Next) : Next :=
  match n with
  | .move s => .move (s.withHost h)
  | .run i s => .run i (s.withHost h)
  | .refused r => .refused r

theorem rawNext_host (f : Format) (s : State) : rawNext f (s.withHost h) = (rawNext f s).withHost h := by
  show (match decodeValue f (s.bc.lookFields s.inMem 0 f.fields) with | .ok i => _ | .error r => _) = _
  simp only [rawNext]
  cases decodeValue f (s.bc.lookFields s.inMem 0 f.fields) <;> rfl

theorem codeNext_host (t : TableId) (f : Format) (upd : Nat → State → State)
    (hu : ∀ v s, upd v (s.withHost h) = (upd v s).withHost h) (s : State) :
    codeNext t f upd (s.withHost h) = (codeNext t f upd s).withHost h := by
  simp only [codeNext, State.table_host]
  show (match (s.table t).decode s.inMem s.bc with | .ok v c => _ | .raise e c => _) = _
  cases (s.table t).decode s.inMem s.bc with
  | raise e c => rfl
  | ok v c =>
    simp only
    cases decodeValue f v with
    | ok i => exact congrArg (Next.run i) (hu v { s with bc := c })
    | error r => rfl

theorem parseNext_host (t : WorkTable) (after : Phase) (s : State) :
    parseNext t after (s.withHost h) = (parseNext t after s).withHost h := by
  simp only [parseNext, State.table_host]
  show (match s.seq with
    | .clear => _
    | .runs => if 0 ≤ s.tpRem then _ else _
    | .result => _
    | .start | .lenExtra _ | .distExtra _ => _) = _
  cases s.seq with
  | runs =>
    simp only
    split
    · exact codeNext_host h .bootT .run (fun _ s' => s') (fun _ _ => rfl) s
    · rfl
  | result => simp only; split <;> rfl
  | clear => rfl
  | _ => exact rawNext_host h _ s

theorem symbolNext_host (s : State) : symbolNext (s.withHost h) = (symbolNext s).withHost h := by
  show (match decodeValue .sym s.cpSym with | .ok i => _ | .error r => _) = _
  simp only [symbolNext]
  cases decodeValue .sym s.cpSym <;> rfl

/-- The engine's choice of what comes next does not depend on the host's actions still to come. -/
theorem engineNext_host (s : State) : engineNext (s.withHost h) = (engineNext s).withHost h := by
  have hp : (s.withHost h).phase = s.phase := rfl
  have hq : (s.withHost h).seq = s.seq := rfl
  cases e : s.phase <;> simp only [engineNext, hp, e]
  case header | blockParams => exact rawNext_host h _ s
  case parseSym | parseCopy => exact parseNext_host h _ _ s
  case literal => exact symbolNext_host h s
  case symbol =>
    exact codeNext_host h .symT .sym keepSymbol (fun _ _ => rfl) { s with phase := .symbol, codesLeft := s.codesLeft - 1 }
  case blockTest =>
    show Next.move (if s.outPos < s.target then _ else _) =
      Next.move (State.withHost h (if s.outPos < s.target then _ else _))
    split <;> rfl
  case copyLen =>
    cases e' : s.seq <;> simp only [hq, e'] <;> first | exact rawNext_host h _ s | exact symbolNext_host h s
  case copyDist =>
    cases e' : s.seq <;> simp only [hq, e'] <;>
      first | exact rawNext_host h _ s | exact codeNext_host h .copyT .dsym (fun _ s' => s') (fun _ _ => rfl) s
  all_goals rfl

/-- The engine's step does not depend on the host's actions still to come, and leaves them as they are. -/
theorem engineStep_host (s : State) : engineStep (s.withHost h) = outcomeWithHost h (engineStep s) := by
  simp only [engineStep, engineNext_host]
  cases engineNext s with
  | run i s' => exact exec_host h i s'
  | _ => rfl

/-- A tick is the step with no host action due, after which the actions behind the tick are due. -/
theorem step_tick_rest {s : State} {rest : List HostCmd} (hh : s.host = .tick :: rest) :
    step s = outcomeWithHost rest (step { s with host := [] }) := by
  rw [step_tick hh, step_engine (s := { s with host := [] }) rfl]
  exact engineStep_host rest { s with host := [] }

end Sys2Proof.Machine
end

