-- ==== Sys2Proof/Laws/PerInstr.lean ====
section
/-!
SUPPORT. The family `EncodeWidth`: how many bits every instruction's encoding has (30_encoding R91 to R98, R105); an
operation row has none.
-/

namespace Sys2Proof.Laws

/-- The encoding is as wide as the fields of the row's format, and the decoder wants exactly that many bits
(30_encoding R105). -/
def EncodeWidth.Statement (i : Instr) : Prop :=
  (encode i).length = match i.format? with
    | some f => f.width
    | none => 0

theorem EncodeWidth.hdr (magic size reserved : Word) : EncodeWidth.Statement (.hdr magic size reserved) := natToBits_length _ _
theorem EncodeWidth.count (n : BitVec 16) : EncodeWidth.Statement (.count n) := natToBits_length _ _
theorem EncodeWidth.params (rsv s m : BitVec 4) : EncodeWidth.Statement (.params rsv s m) := natToBits_length _ _
theorem EncodeWidth.lenExtra1 (x : BitVec 1) : EncodeWidth.Statement (.lenExtra1 x) := natToBits_length _ _
theorem EncodeWidth.lenExtra2 (x : BitVec 2) : EncodeWidth.Statement (.lenExtra2 x) := natToBits_length _ _
theorem EncodeWidth.lenExtra3 (x : BitVec 3) : EncodeWidth.Statement (.lenExtra3 x) := natToBits_length _ _
theorem EncodeWidth.lenExtra4 (x : BitVec 4) : EncodeWidth.Statement (.lenExtra4 x) := natToBits_length _ _
theorem EncodeWidth.lenExtra5 (x : BitVec 5) : EncodeWidth.Statement (.lenExtra5 x) := natToBits_length _ _
theorem EncodeWidth.distExtra1 (x : BitVec 1) : EncodeWidth.Statement (.distExtra1 x) := natToBits_length _ _
theorem EncodeWidth.distExtra2 (x : BitVec 2) : EncodeWidth.Statement (.distExtra2 x) := natToBits_length _ _
theorem EncodeWidth.distExtra3 (x : BitVec 3) : EncodeWidth.Statement (.distExtra3 x) := natToBits_length _ _
theorem EncodeWidth.distExtra4 (x : BitVec 4) : EncodeWidth.Statement (.distExtra4 x) := natToBits_length _ _
theorem EncodeWidth.distExtra5 (x : BitVec 5) : EncodeWidth.Statement (.distExtra5 x) := natToBits_length _ _
theorem EncodeWidth.distExtra6 (x : BitVec 6) : EncodeWidth.Statement (.distExtra6 x) := natToBits_length _ _
theorem EncodeWidth.distExtra7 (x : BitVec 7) : EncodeWidth.Statement (.distExtra7 x) := natToBits_length _ _
theorem EncodeWidth.distExtra8 (x : BitVec 8) : EncodeWidth.Statement (.distExtra8 x) := natToBits_length _ _
theorem EncodeWidth.distExtra9 (x : BitVec 9) : EncodeWidth.Statement (.distExtra9 x) := natToBits_length _ _
theorem EncodeWidth.distExtra10 (x : BitVec 10) : EncodeWidth.Statement (.distExtra10 x) := natToBits_length _ _
theorem EncodeWidth.distExtra11 (x : BitVec 11) : EncodeWidth.Statement (.distExtra11 x) := natToBits_length _ _
theorem EncodeWidth.distExtra12 (x : BitVec 12) : EncodeWidth.Statement (.distExtra12 x) := natToBits_length _ _
theorem EncodeWidth.distExtra13 (x : BitVec 13) : EncodeWidth.Statement (.distExtra13 x) := natToBits_length _ _
theorem EncodeWidth.distExtra14 (x : BitVec 14) : EncodeWidth.Statement (.distExtra14 x) := natToBits_length _ _
theorem EncodeWidth.distExtra15 (x : BitVec 15) : EncodeWidth.Statement (.distExtra15 x) := natToBits_length _ _
theorem EncodeWidth.runSkip (rep : BitVec 4) : EncodeWidth.Statement (.runSkip rep) := natToBits_length _ _
theorem EncodeWidth.runAssign (rep : BitVec 4) (len : BitVec 5) : EncodeWidth.Statement (.runAssign rep len) := natToBits_length _ _
theorem EncodeWidth.lit (byte : Byte) : EncodeWidth.Statement (.lit byte) := natToBits_length _ _
theorem EncodeWidth.lenQ0 (r : BitVec 2) : EncodeWidth.Statement (.lenQ0 r) := natToBits_length _ _
theorem EncodeWidth.lenQ1 (r : BitVec 2) : EncodeWidth.Statement (.lenQ1 r) := natToBits_length _ _
theorem EncodeWidth.lenQ2 (r : BitVec 2) : EncodeWidth.Statement (.lenQ2 r) := natToBits_length _ _
theorem EncodeWidth.lenQ3 (r : BitVec 2) : EncodeWidth.Statement (.lenQ3 r) := natToBits_length _ _
theorem EncodeWidth.lenQ4 (r : BitVec 2) : EncodeWidth.Statement (.lenQ4 r) := natToBits_length _ _
theorem EncodeWidth.lenQ5 (r : BitVec 2) : EncodeWidth.Statement (.lenQ5 r) := natToBits_length _ _
theorem EncodeWidth.lenQ6 (r : BitVec 2) : EncodeWidth.Statement (.lenQ6 r) := natToBits_length _ _
theorem EncodeWidth.lenMax : EncodeWidth.Statement .lenMax := natToBits_length _ _
theorem EncodeWidth.lenInvalid (sym : SymBits) : EncodeWidth.Statement (.lenInvalid sym) := natToBits_length _ _
theorem EncodeWidth.distQ0 (r2 : BitVec 1) : EncodeWidth.Statement (.distQ0 r2) := natToBits_length _ _
theorem EncodeWidth.distQ1 (r2 : BitVec 1) : EncodeWidth.Statement (.distQ1 r2) := natToBits_length _ _
theorem EncodeWidth.distQ2 (r2 : BitVec 1) : EncodeWidth.Statement (.distQ2 r2) := natToBits_length _ _
theorem EncodeWidth.distQ3 (r2 : BitVec 1) : EncodeWidth.Statement (.distQ3 r2) := natToBits_length _ _
theorem EncodeWidth.distQ4 (r2 : BitVec 1) : EncodeWidth.Statement (.distQ4 r2) := natToBits_length _ _
theorem EncodeWidth.distQ5 (r2 : BitVec 1) : EncodeWidth.Statement (.distQ5 r2) := natToBits_length _ _
theorem EncodeWidth.distQ6 (r2 : BitVec 1) : EncodeWidth.Statement (.distQ6 r2) := natToBits_length _ _
theorem EncodeWidth.distQ7 (r2 : BitVec 1) : EncodeWidth.Statement (.distQ7 r2) := natToBits_length _ _
theorem EncodeWidth.distQ8 (r2 : BitVec 1) : EncodeWidth.Statement (.distQ8 r2) := natToBits_length _ _
theorem EncodeWidth.distQ9 (r2 : BitVec 1) : EncodeWidth.Statement (.distQ9 r2) := natToBits_length _ _
theorem EncodeWidth.distQ10 (r2 : BitVec 1) : EncodeWidth.Statement (.distQ10 r2) := natToBits_length _ _
theorem EncodeWidth.distQ11 (r2 : BitVec 1) : EncodeWidth.Statement (.distQ11 r2) := natToBits_length _ _
theorem EncodeWidth.distQ12 (r2 : BitVec 1) : EncodeWidth.Statement (.distQ12 r2) := natToBits_length _ _
theorem EncodeWidth.distQ13 (r2 : BitVec 1) : EncodeWidth.Statement (.distQ13 r2) := natToBits_length _ _
theorem EncodeWidth.distQ14 (r2 : BitVec 1) : EncodeWidth.Statement (.distQ14 r2) := natToBits_length _ _
theorem EncodeWidth.distQ15 (r2 : BitVec 1) : EncodeWidth.Statement (.distQ15 r2) := natToBits_length _ _
theorem EncodeWidth.distQ16 (r2 : BitVec 1) : EncodeWidth.Statement (.distQ16 r2) := natToBits_length _ _
theorem EncodeWidth.distInvalid (ds : SymBits) : EncodeWidth.Statement (.distInvalid ds) := natToBits_length _ _
theorem EncodeWidth.reset : EncodeWidth.Statement .reset := rfl
theorem EncodeWidth.start : EncodeWidth.Statement .start := rfl
theorem EncodeWidth.cursorInit : EncodeWidth.Statement .cursorInit := rfl
theorem EncodeWidth.refill : EncodeWidth.Statement .refill := rfl
theorem EncodeWidth.need (n : Nat) : EncodeWidth.Statement (.need n) := rfl
theorem EncodeWidth.peek (n : Nat) : EncodeWidth.Statement (.peek n) := rfl
theorem EncodeWidth.drop (n : Nat) : EncodeWidth.Statement (.drop n) := rfl
theorem EncodeWidth.read (n : Nat) : EncodeWidth.Statement (.read n) := rfl
theorem EncodeWidth.decode (t : TableId) : EncodeWidth.Statement (.decode t) := rfl
theorem EncodeWidth.clear : EncodeWidth.Statement .clear := rfl
theorem EncodeWidth.addSymbol (symbol : Int) (length : Nat) : EncodeWidth.Statement (.addSymbol symbol length) := rfl
theorem EncodeWidth.build (t : TableId) : EncodeWidth.Statement (.build t) := rfl
theorem EncodeWidth.initBoot : EncodeWidth.Statement .initBoot := rfl
theorem EncodeWidth.parseTable (t : WorkTable) : EncodeWidth.Statement (.parseTable t) := rfl
theorem EncodeWidth.copyRun : EncodeWidth.Statement .copyRun := rfl
theorem EncodeWidth.softStop : EncodeWidth.Statement .softStop := rfl
theorem EncodeWidth.raise (e : ErrKind) : EncodeWidth.Statement (.raise e) := rfl

end Sys2Proof.Laws
end

