-- ==== Sys2Proof/Tests/Slice0.lean ====
section
/-!
SUPPORT. The model's own tests, each with the place in spec/ its expected value comes from, and for every statement that
has hypotheses a concrete state and operands that meet them.
-/

namespace Sys2Proof.Tests

open Sys2Proof.Machine
set_option Elab.async false

/-! ## Helpers -/

/-- A state with nothing in it: reset with a dictionary of no pairs, written without running INIT_BOOT. -/
def blank : State :=
  { State.resetWith [] with
    status := .idle, err := none, phase := .idle, bootT := Table.emptyTable, builder := Builder.cleared }

/-- A decode in progress at stream bit 0 of the bytes given. -/
def onStream (bytes : List Byte) : State := blank.atStream bytes

/-- A decode in progress over an empty input with `v` ghost bits left. -/
def atEnd (v : Nat) : State := { onStream [] with bc := ⟨0, 0, v, true, 0⟩ }

/-- The next state's value of `f`, if there is a next state. -/
def after {α : Type} (f : State → α) (o : Host.Outcome State Fault Refusal) : Option α :=
  match o with
  | .next s => some (f s)
  | .fault _ | .refused _ => none

/-- What stops the machine with no meaning, if anything does. -/
def refusal (o : Host.Outcome State Fault Refusal) : Option Refusal :=
  match o with
  | .refused r => some r
  | .next _ | .fault _ => none

/-- The error a next state reports. -/
def errAfter (o : Host.Outcome State Fault Refusal) : Option (Option ErrKind) := after (·.err) o

/-- The table of one 32-bit code, all zeros, for the symbol 6 (95_test_vectors V6 (i)). -/
def longTable : Table :=
  { Table.emptyTable with
    empty := false, nsyms := 1, thr := List.replicate 32 0 ++ [1], ends := List.replicate 32 0 ++ [1], syms := [6] }

/-- The builder of 95_test_vectors V4: `(5,3) (2,3) (7,2) (1,1)`. -/
def v4Builder : Builder := ⟨[[], [1], [7], [5, 2]] ++ List.replicate 29 []⟩

/-! ## Ill-formed instructions are refused by the check -/

theorem test_illFormed_runSkip : (Instr.runSkip 9).wellFormed = false := by decide
theorem test_illFormed_runAssign_zero : (Instr.runAssign 1 0).wellFormed = false := by decide
theorem test_illFormed_runAssign_range : (Instr.runAssign 8 29).wellFormed = false := by decide
theorem test_wellFormed_runAssign_last : (Instr.runAssign 8 28).wellFormed = true := by decide
theorem test_illFormed_lenInvalid : (Instr.lenInvalid 0x11C).wellFormed = false := by decide
theorem test_illFormed_distInvalid_low : (Instr.distInvalid 33).wellFormed = false := by decide
theorem test_illFormed_distInvalid_high : (Instr.distInvalid 285).wellFormed = false := by decide
theorem test_illFormed_need : (Instr.need 0).wellFormed = false ∧ (Instr.need 33).wellFormed = false := by decide
theorem test_illFormed_peek : (Instr.peek 0).wellFormed = false ∧ (Instr.peek 33).wellFormed = false := by decide
theorem test_illFormed_drop : (Instr.drop 0).wellFormed = false ∧ (Instr.drop 33).wellFormed = false := by decide
theorem test_illFormed_read : (Instr.read 0).wellFormed = false ∧ (Instr.read 33).wellFormed = false := by decide
theorem test_illFormed_addSymbol : (Instr.addSymbol 0 256).wellFormed = false := by decide
theorem test_illFormed_raise : (Instr.raise .allocationFailure).wellFormed = false := by decide

/-! ## Decoding: the words are written out from 30_encoding R91 to R98 and the opcode table -/

abbrev o : Bool := false
abbrev l : Bool := true

/-- 95_test_vectors P1: `12 34 56 78 00 00 00 04 9A BC DE F0`. -/
theorem test_decode_hdr :
    decode .hdr (bytesToBits [0x12, 0x34, 0x56, 0x78, 0x00, 0x00, 0x00, 0x04, 0x9A, 0xBC, 0xDE, 0xF0]) =
      .ok (.hdr 0x12345678 4 0x9ABCDEF0, []) := by decide +kernel
/-- 95_test_vectors V9f: `TABLE 4`. -/
theorem test_decode_count : decode .count [o,o,o,o, o,o,o,o, o,o,o,o, o,l,o,o, l] = .ok (.count 4, [l]) := by decide
/-- 45_block_decoder R217: `1111 0010 0000`. -/
theorem test_decode_params : decode .params [l,l,l,l, o,o,l,o, o,o,o,o] = .ok (.params 15 2 0, []) := by decide
theorem test_decode_lenExtra :
    decode (.lenExtra 0) [l] = .ok (.lenExtra1 1, []) ∧ decode (.lenExtra 1) [l,o] = .ok (.lenExtra2 2, []) ∧
    decode (.lenExtra 2) [l,l,o] = .ok (.lenExtra3 6, []) ∧
    decode (.lenExtra 3) [l,o,o,o] = .ok (.lenExtra4 8, []) ∧
    decode (.lenExtra 4) [l,o,o,o,l] = .ok (.lenExtra5 17, []) := by decide
theorem test_decode_distExtra_short :
    decode (.distExtra 0) [l] = .ok (.distExtra1 1, []) ∧ decode (.distExtra 1) [l,o] = .ok (.distExtra2 2, []) ∧
    decode (.distExtra 2) [l,o,o] = .ok (.distExtra3 4, []) ∧
    decode (.distExtra 3) [l,o,o,o] = .ok (.distExtra4 8, []) ∧
    decode (.distExtra 4) [l,o,o,o,o] = .ok (.distExtra5 16, []) ∧
    decode (.distExtra 5) [l,o,o,o,o,o] = .ok (.distExtra6 32, []) ∧
    decode (.distExtra 6) [l,o,o,o,o,o,o] = .ok (.distExtra7 64, []) := by decide
theorem test_decode_distExtra_long :
    decode (.distExtra 7) [l,o,o,o,o,o,o,o] = .ok (.distExtra8 128, []) ∧
    decode (.distExtra 8) [l,o,o,o,o,o,o,o,o] = .ok (.distExtra9 256, []) ∧
    decode (.distExtra 9) [l,o,o,o,o,o,o,o,o,o] = .ok (.distExtra10 512, []) ∧
    decode (.distExtra 10) [l,o,o,o,o,o,o,o,o,o,o] = .ok (.distExtra11 1024, []) ∧
    decode (.distExtra 11) [l,o,o,o,o,o,o,o,o,o,o,o] = .ok (.distExtra12 2048, []) ∧
    decode (.distExtra 12) [l,o,o,o,o,o,o,o,o,o,o,o,o] = .ok (.distExtra13 4096, []) ∧
    decode (.distExtra 13) [l,o,o,o,o,o,o,o,o,o,o,o,o,o] = .ok (.distExtra14 8192, []) ∧
    decode (.distExtra 14) [l,o,o,o,o,o,o,o,o,o,o,o,o,o,l] = .ok (.distExtra15 16385, []) := by decide
/-- 44_table_parsing R194: `0xE0` is rep 8, len 0; `0x22` is rep 2, len 2. -/
theorem test_decode_run :
    decode .run [o,l,l,l,o,o,o,o,o] = .ok (.runSkip 7, []) ∧ decode .run [o,o,o,l,o,o,o,l,o] = .ok (.runAssign 1 2, []) := by
  decide
theorem test_decode_run_above : decode .run [l,o,o,o,l,l,l,o,l] = .error (.notASymbol 285) := by decide
theorem test_decode_lit : decode .sym [o,o,l,o,o,o,o,o,l] = .ok (.lit 0x41, []) := by decide
theorem test_decode_lengths :
    decode .sym [l,o,o,o,o,o,o,l,l] = .ok (.lenQ0 3, []) ∧ decode .sym [l,o,o,o,o,o,l,o,l] = .ok (.lenQ1 1, []) ∧
    decode .sym [l,o,o,o,o,l,o,l,o] = .ok (.lenQ2 2, []) ∧ decode .sym [l,o,o,o,o,l,l,l,l] = .ok (.lenQ3 3, []) ∧
    decode .sym [l,o,o,o,l,o,o,o,o] = .ok (.lenQ4 0, []) ∧ decode .sym [l,o,o,o,l,o,l,o,l] = .ok (.lenQ5 1, []) ∧
    decode .sym [l,o,o,o,l,l,o,l,o] = .ok (.lenQ6 2, []) ∧ decode .sym [l,o,o,o,l,l,l,o,o] = .ok (.lenMax, []) ∧
    decode .sym [l,o,o,o,l,l,l,o,l] = .ok (.lenInvalid 0x11D, []) := by decide
theorem test_decode_distances_low :
    decode .dsym [o,o,o,o,o,o,o,o,l] = .ok (.distQ0 1, []) ∧ decode .dsym [o,o,o,o,o,o,o,l,o] = .ok (.distQ1 0, []) ∧
    decode .dsym [o,o,o,o,o,o,l,o,l] = .ok (.distQ2 1, []) ∧ decode .dsym [o,o,o,o,o,o,l,l,o] = .ok (.distQ3 0, []) ∧
    decode .dsym [o,o,o,o,o,l,o,o,l] = .ok (.distQ4 1, []) ∧ decode .dsym [o,o,o,o,o,l,o,l,o] = .ok (.distQ5 0, []) ∧
    decode .dsym [o,o,o,o,o,l,l,o,l] = .ok (.distQ6 1, []) ∧ decode .dsym [o,o,o,o,o,l,l,l,o] = .ok (.distQ7 0, []) ∧
    decode .dsym [o,o,o,o,l,o,o,o,l] = .ok (.distQ8 1, []) := by decide
theorem test_decode_distances_high :
    decode .dsym [o,o,o,o,l,o,o,l,o] = .ok (.distQ9 0, []) ∧ decode .dsym [o,o,o,o,l,o,l,o,l] = .ok (.distQ10 1, []) ∧
    decode .dsym [o,o,o,o,l,o,l,l,o] = .ok (.distQ11 0, []) ∧ decode .dsym [o,o,o,o,l,l,o,o,l] = .ok (.distQ12 1, []) ∧
    decode .dsym [o,o,o,o,l,l,o,l,o] = .ok (.distQ13 0, []) ∧ decode .dsym [o,o,o,o,l,l,l,o,l] = .ok (.distQ14 1, []) ∧
    decode .dsym [o,o,o,o,l,l,l,l,o] = .ok (.distQ15 0, []) ∧ decode .dsym [o,o,o,l,o,o,o,o,l] = .ok (.distQ16 1, []) ∧
    decode .dsym [o,o,o,l,o,o,o,l,o] = .ok (.distInvalid 34, []) := by decide
theorem test_decode_tooFewBits : decode .count [o,o,l] = .error .tooFewBits := by decide
/-- The opcode table's own numbering of a word: 0x11C is LEN_MAX, `0x22` in a byte is RUN_ASSIGN. -/
theorem test_tableWord : decodeTableWord 16 0x11C = some .lenMax ∧ decodeTableWord 8 0x22 = some (.runAssign 1 2) ∧
    decodeTableWord 8 0xE0 = some (.runSkip 7) ∧ decodeTableWord 16 3 = some (.distQ1 1) := by decide +kernel

/-! ## The bit cursor: 95_test_vectors V1 and V2 -/

/-- `A5 3C F0 0F 81`. -/
def v1 : State := onStream [0xA5, 0x3C, 0xF0, 0x0F, 0x81]

theorem test_cursorInit : after (fun s => (s.bc.bitpos, s.bc.inLen)) (exec .cursorInit { v1 with argInLen := 5 }) =
    some (0, 5) := by decide +kernel
/-- 40_bit_cursor R121's example. -/
theorem test_refill_four : after (·.bc) (exec .refill v1) = some ⟨4, 0xA53CF00F00000000, 32, false, 5⟩ := by
  decide +kernel
/-- V1 row 8: the tail byte. -/
theorem test_refill_tail :
    after (·.bc) (exec .refill { v1 with bc := ⟨4, 0x29E7807800000000, 29, false, 5⟩ }) =
      some ⟨5, 0x29E7807C08000000, 37, false, 5⟩ := by decide +kernel
/-- V1 row 1. -/
theorem test_need : after (·.bc) (exec (.need 1) v1) = some ⟨4, 0xA53CF00F00000000, 32, false, 5⟩ := by decide +kernel
/-- V1 row 4. -/
theorem test_peek : after (fun s => (s.ret, s.bc.bitpos)) (exec (.peek 12) v1) = some (0xA53, 0) := by decide +kernel
/-- V1 row 11: the ghost. -/
theorem test_peek_ghost :
    after (fun s => (s.ret, s.bc)) (exec (.peek 8) { v1 with bc := ⟨5, 0x0800000000000000, 5, false, 5⟩ }) =
      some (8, ⟨5, 0x0800000000000000, 37, true, 5⟩) := by decide +kernel
/-- V1 row 6. -/
theorem test_drop : after (·.bc) (exec (.drop 3) { v1 with bc := ⟨4, 0xA53CF00F00000000, 32, false, 5⟩ }) =
    some ⟨4, 0x29E7807800000000, 29, false, 5⟩ := by decide +kernel
/-- V2: a `DROP` past the ghost. -/
theorem test_drop_end : errAfter (exec (.drop 1) (atEnd 0)) = some (some .unexpectedEndOfInput) := by decide +kernel
/-- V3: `READ(32)` of the declared size. -/
theorem test_read : after (fun s => (s.ret, s.bc.bitpos)) (exec (.read 32) (onStream [0x00, 0x00, 0x00, 0x04])) =
    some (4, 32) := by decide +kernel

/-! ## Tables: 95_test_vectors V4 to V9 -/

theorem test_clear : after (·.builder) (exec .clear { blank with builder := v4Builder }) = some Builder.cleared := by
  decide +kernel
/-- 42_table_builder R161's example. -/
theorem test_addSymbol : after (·.builder.list 1) (exec (.addSymbol 0x41 1) blank) = some [0x41] := by decide +kernel
/-- V6 (e): the length is checked first. -/
theorem test_addSymbol_order : errAfter (exec (.addSymbol 285 33) blank) = some (some .invalidCodeLength) := by
  decide +kernel
/-- V4. -/
theorem test_build : after (fun s => (s.symT.syms, s.symT.thr.take 5, s.symT.ends.take 5, s.symT.hash.getD 0xE0 none))
    (exec (.build .symT) { blank with builder := v4Builder }) =
      some ([1, 7, 5, 2], [0, 0x80000000, 0xC0000000, 0x100000000, 0x100000000], [0, 1, 2, 4, 4], some ⟨2, 3⟩) := by
  decide +kernel
/-- V6 (g). -/
theorem test_build_oversubscribed :
    errAfter (exec (.build .symT) { blank with builder := ⟨[[], [1, 2, 3]] ++ List.replicate 31 []⟩ }) =
      some (some .oversubscribedTable) := by decide +kernel
/-- V7 with the table of T1: `F8 00 00 00` is `0x03`, 6 bits. -/
theorem test_initBoot : after (fun s => (s.bootT.syms, s.bootT.hash.getD 0xF8 none, s.bootT.hash.getD 0xFF none))
    (exec .initBoot { blank with bootDict := Config.bootDictTest }) =
      some ([0x01, 0x00, 0xE0, 0x02, 0x22, 0x03, 0x43, 0x09, 0x2A, 0x0A, 0x04], some ⟨3, 6⟩, none) := by decide +kernel
/-- V8 (a): one bit of the ghost. -/
theorem test_decode_fast : after (fun s => (s.ret, s.bc.bitpos))
    (exec (.decode .symT) { onStream [0x00] with symT := Table.single 0x41 }) = some (0x41, 1) := by decide +kernel
/-- V8 (b). -/
theorem test_decode_notFound : errAfter (exec (.decode .symT) { onStream [0x80] with symT := Table.single 0x41 }) =
    some (some .codeNotFound) := by decide +kernel
/-- V9b with the one run code `0`: `TABLE 1; RUN 1,1`. -/
theorem test_parseTable : after (fun s => (s.ret, s.bc.bitpos, s.symT.syms))
    (exec (.parseTable .symT) { onStream [0x00, 0x01, 0x00] with bootT := Table.single 1 }) = some (1, 17, [0]) := by
  decide +kernel
/-- V9a. -/
theorem test_parseTable_empty : after (fun s => (s.ret, s.bc.bitpos)) (exec (.parseTable .symT) (onStream [0x00, 0x00])) =
    some (0, 16) := by decide +kernel
/-- 44_table_parsing R191's example. -/
theorem test_count : after (·.tpN) (exec (.count 0x42) (onStream [0x00, 0x42])) = some 66 := by decide +kernel
/-- 44_table_parsing R192's example. -/
theorem test_count_tooMany : errAfter (exec (.count 0x11E) (onStream [0x01, 0x1E])) = some (some .tooManySymbols) := by
  decide +kernel
/-- 44_table_parsing R195's example. -/
theorem test_runSkip : after (·.tpRem) (exec (.runSkip 7) { blank with tpRem := 64 }) = some 56 := by decide +kernel
/-- 44_table_parsing R196's example. -/
theorem test_runAssign : after (fun s => (s.tpRem, s.builder.list 2)) (exec (.runAssign 1 2) { blank with tpRem := 98 }) =
    some (96, [98, 97]) := by decide +kernel
/-- 44_table_parsing R197's example. -/
theorem test_runAssign_overrun : after (fun s => (s.err, s.builder.list 2))
    (exec (.runAssign 1 2) { blank with tpRem := 0 }) = some (some .invalidSymbol, [0]) := by decide +kernel

/-! ## The engine: 45_block_decoder and 95_test_vectors E8 to E9 -/

theorem test_reset : after (fun s => (s.status, s.phase, s.wsb, s.inMem)) (exec .reset { v1 with wsb := 3, status := .busy }) =
    some (.idle, .idle, 0, v1.inMem) := by decide +kernel
/-- E8: the input check comes first. -/
theorem test_start_empty : errAfter (exec .start { blank with argOutPresent := true }) = some (some .nullOrEmptyInput) := by
  decide +kernel
theorem test_start : after (fun s => (s.status, s.phase)) (exec .start { blank with argInLen := 1 }) =
    some (.busy, .check) := by decide +kernel
/-- 45_block_decoder R213's example: hint 12. -/
theorem test_hdr : after (fun s => (s.declared, s.target, s.statusTarget, s.bc.bitpos))
    (exec (.hdr 1 16 2) { onStream [0, 0, 0, 1, 0, 0, 0, 16, 0, 0, 0, 2] with argOutHint := 12 }) =
      some (16, 12, 12, 96) := by decide +kernel
/-- E9c: seven bytes. -/
theorem test_hdr_short : after (fun s => (s.err, s.bc.bitpos, s.statusDeclared))
    (exec (.hdr 0x01020304 0 0) (onStream [1, 2, 3, 4, 0, 0, 0])) = some (some .unexpectedEndOfInput, 64, 0) := by
  decide +kernel
/-- 45_block_decoder R217's example. -/
theorem test_params : after (fun s => (s.wsb, s.codesLeft)) (exec (.params 15 2 0) (onStream [0xF2, 0x00])) =
    some (3, 4096) := by decide +kernel
/-- 45_block_decoder R220's example. -/
theorem test_lit : after (fun s => (s.outMem, s.outPos)) (exec (.lit 0x41) { blank with target := 4 }) =
    some ([(0, 0x41)], 1) := by decide +kernel
theorem test_softStop : after (fun s => (s.status, s.softEof, s.outLen)) (exec .softStop { blank with outPos := 4096 }) =
    some (.done, true, 4096) := by decide +kernel
theorem test_raise : after (fun s => (s.status, s.errCode, s.outLen)) (exec (.raise .copyOutOfRange) { blank with outLen := 9 }) =
    some (.error, 13, 0) := by decide +kernel
/-- 46_copy_instructions R273's example. -/
theorem test_copyRun : after (fun s => (s.outMem.map Prod.snd, s.outPos))
    (exec .copyRun { blank with outMem := [(0, 0x61), (1, 0x62)], outPos := 2, target := 16, cpDist := 2, cpLen := 8 }) =
      some ([0x61, 0x62, 0x61, 0x62, 0x61, 0x62, 0x61, 0x62, 0x61, 0x62], 10) := by decide +kernel
/-- 46_copy_instructions R274's example. -/
theorem test_copyRun_truncated : after (·.outPos)
    (exec .copyRun { blank with outMem := [(9, 0x62)], outPos := 10, target := 16, cpDist := 1, cpLen := 12 }) =
      some 16 := by decide +kernel

/-! ## Lengths: the examples of 46_copy_instructions R241 to R249 -/

theorem test_lenQ0 : after (·.cpLen) (exec (.lenQ0 3) { blank with wsb := 16 }) = some 19 := by decide +kernel
theorem test_lenQ1 : after (·.cpLen) (exec (.lenQ1 1) { blank with wsb := 3 }) = some 8 := by decide +kernel
theorem test_lenQ2 : after (fun s => (s.length, s.seq)) (exec (.lenQ2 1) blank) = some (10, .lenExtra 0) := by decide +kernel
theorem test_lenQ3 : after (fun s => (s.length, s.seq)) (exec (.lenQ3 1) blank) = some (20, .lenExtra 1) := by decide +kernel
theorem test_lenQ4 : after (fun s => (s.length, s.seq)) (exec (.lenQ4 1) blank) = some (40, .lenExtra 2) := by decide +kernel
theorem test_lenQ5 : after (fun s => (s.length, s.seq)) (exec (.lenQ5 1) blank) = some (80, .lenExtra 3) := by decide +kernel
theorem test_lenQ6 : after (fun s => (s.length, s.seq)) (exec (.lenQ6 1) blank) = some (160, .lenExtra 4) := by decide +kernel
theorem test_lenMax : after (·.cpLen) (exec .lenMax { blank with wsb := 16 }) = some 271 := by decide +kernel
theorem test_lenInvalid : errAfter (exec (.lenInvalid 0x11D) blank) = some (some .invalidLengthCode) := by decide +kernel
theorem test_lenExtra1 : after (fun s => (s.length, s.cpLen)) (exec (.lenExtra1 1) { atEnd 1 with length := 10, wsb := 1 }) =
    some (11, 12) := by decide +kernel
theorem test_lenExtra2 : after (fun s => (s.length, s.cpLen)) (exec (.lenExtra2 3) { atEnd 2 with length := 20, wsb := 1 }) =
    some (23, 24) := by decide +kernel
theorem test_lenExtra3 : after (fun s => (s.length, s.cpLen)) (exec (.lenExtra3 7) { atEnd 3 with length := 40, wsb := 1 }) =
    some (47, 48) := by decide +kernel
theorem test_lenExtra4 : after (fun s => (s.length, s.cpLen)) (exec (.lenExtra4 15) { atEnd 4 with length := 80, wsb := 1 }) =
    some (95, 96) := by decide +kernel
theorem test_lenExtra5 : after (fun s => (s.length, s.cpLen)) (exec (.lenExtra5 31) { atEnd 5 with length := 160, wsb := 1 }) =
    some (191, 192) := by decide +kernel

/-! ## Distances: 30_encoding R98 and the examples of 46_copy_instructions R252 to R271 -/

theorem test_distQ0 : after (·.cpDist) (exec (.distQ0 1) { blank with outPos := 2 }) = some 2 := by decide +kernel
theorem test_distQ1 : after (·.cpDist) (exec (.distQ1 1) { blank with outPos := 4 }) = some 4 := by decide +kernel
theorem test_distQ1_outOfRange : errAfter (exec (.distQ1 1) { blank with outPos := 3 }) = some (some .copyOutOfRange) := by
  decide +kernel
theorem test_distQ2 : after (fun s => (s.distance, s.seq)) (exec (.distQ2 1) blank) = some (6, .distExtra 0) := by decide +kernel
theorem test_distQ3 : after (fun s => (s.distance, s.seq)) (exec (.distQ3 1) blank) = some (12, .distExtra 1) := by decide +kernel
theorem test_distQ4 : after (fun s => (s.distance, s.seq)) (exec (.distQ4 1) blank) = some (24, .distExtra 2) := by decide +kernel
theorem test_distQ5 : after (fun s => (s.distance, s.seq)) (exec (.distQ5 1) blank) = some (48, .distExtra 3) := by decide +kernel
theorem test_distQ6 : after (fun s => (s.distance, s.seq)) (exec (.distQ6 1) blank) = some (96, .distExtra 4) := by decide +kernel
theorem test_distQ7 : after (fun s => (s.distance, s.seq)) (exec (.distQ7 1) blank) = some (192, .distExtra 5) := by decide +kernel
theorem test_distQ8 : after (fun s => (s.distance, s.seq)) (exec (.distQ8 1) blank) = some (384, .distExtra 6) := by decide +kernel
theorem test_distQ9 : after (fun s => (s.distance, s.seq)) (exec (.distQ9 1) blank) = some (768, .distExtra 7) := by decide +kernel
theorem test_distQ10 : after (fun s => (s.distance, s.seq)) (exec (.distQ10 1) blank) = some (1536, .distExtra 8) := by
  decide +kernel
theorem test_distQ11 : after (fun s => (s.distance, s.seq)) (exec (.distQ11 1) blank) = some (3072, .distExtra 9) := by
  decide +kernel
theorem test_distQ12 : after (fun s => (s.distance, s.seq)) (exec (.distQ12 1) blank) = some (6144, .distExtra 10) := by
  decide +kernel
theorem test_distQ13 : after (fun s => (s.distance, s.seq)) (exec (.distQ13 1) blank) = some (12288, .distExtra 11) := by
  decide +kernel
theorem test_distQ14 : after (fun s => (s.distance, s.seq)) (exec (.distQ14 1) blank) = some (24576, .distExtra 12) := by
  decide +kernel
theorem test_distQ15 : after (fun s => (s.distance, s.seq)) (exec (.distQ15 1) blank) = some (49152, .distExtra 13) := by
  decide +kernel
theorem test_distQ16 : after (fun s => (s.distance, s.seq)) (exec (.distQ16 1) blank) = some (98304, .distExtra 14) := by
  decide +kernel
theorem test_distInvalid : errAfter (exec (.distInvalid 34) blank) = some (some .invalidDistanceCode) := by decide +kernel

/-- A decode with `v` ghost bits left, a distance base, and all of OUT behind it. -/
def distState (v base : Nat) : State := { atEnd v with distance := base, outPos := 131072 }

theorem test_distExtra1 : after (·.cpDist) (exec (.distExtra1 1) (distState 1 4)) = some 6 := by decide +kernel
theorem test_distExtra2 : after (·.cpDist) (exec (.distExtra2 3) (distState 2 8)) = some 12 := by decide +kernel
theorem test_distExtra3 : after (·.cpDist) (exec (.distExtra3 5) (distState 3 24)) = some 30 := by decide +kernel
theorem test_distExtra4 : after (·.cpDist) (exec (.distExtra4 15) (distState 4 32)) = some 48 := by decide +kernel
theorem test_distExtra5 : after (·.cpDist) (exec (.distExtra5 31) (distState 5 64)) = some 96 := by decide +kernel
theorem test_distExtra6 : after (·.cpDist) (exec (.distExtra6 63) (distState 6 128)) = some 192 := by decide +kernel
theorem test_distExtra7 : after (·.cpDist) (exec (.distExtra7 127) (distState 7 256)) = some 384 := by decide +kernel
theorem test_distExtra8 : after (·.cpDist) (exec (.distExtra8 255) (distState 8 512)) = some 768 := by decide +kernel
theorem test_distExtra9 : after (·.cpDist) (exec (.distExtra9 511) (distState 9 1024)) = some 1536 := by decide +kernel
theorem test_distExtra10 : after (·.cpDist) (exec (.distExtra10 1023) (distState 10 2048)) = some 3072 := by decide +kernel
theorem test_distExtra11 : after (·.cpDist) (exec (.distExtra11 2047) (distState 11 4096)) = some 6144 := by decide +kernel
theorem test_distExtra12 : after (·.cpDist) (exec (.distExtra12 4095) (distState 12 8192)) = some 12288 := by decide +kernel
theorem test_distExtra13 : after (·.cpDist) (exec (.distExtra13 8191) (distState 13 16384)) = some 24576 := by
  decide +kernel
theorem test_distExtra14 : after (·.cpDist) (exec (.distExtra14 16383) (distState 14 32768)) = some 49152 := by
  decide +kernel
/-- 46_copy_instructions R270's example: the largest distance. -/
theorem test_distExtra15 : after (·.cpDist) (exec (.distExtra15 0x7FFF) (distState 15 98304)) = some 131072 := by
  decide +kernel

/-! ## One step -/

/-- A host write while BUSY has no meaning (20_memory R75). -/
theorem test_step_busyWrite : refusal (step { blank with status := .busy, host := [.writeIn 0 1] }) =
    some .hostWriteWhileBusy := by decide +kernel
/-- A symbol decoded with SYM_T is counted, kept, and run (45_block_decoder R218, R220). -/
theorem test_step_symbol : after (fun s => (s.outMem, s.codesLeft, s.cpSym, s.bc.bitpos)) (step
    { onStream [0x00] with phase := .symbol, symT := Table.single 0x41, codesLeft := 4096, target := 4 }) =
      some ([(0, 0x41)], 4095, 0x41, 1) := by decide +kernel
/-- `withFetchWord` of LEN_MAX: the next step runs it. -/
theorem test_step_fetchWord : after (·.cpLen) (step ((State.withFetchWord { blank with wsb := 16 }) 16 0x11C)) =
    some 271 := by decide +kernel
/-- `withFetchWord` of the raw header. -/
theorem test_step_fetchHdr : after (·.declared) (step (blank.withFetchWord 96 0x000000000000000400000000)) = some 4 := by
  decide +kernel

/-! ## Every statement's hypotheses are met: encoding and the step -/

/-- The cursor before its first refill meets 10_state R22. -/
theorem zero_inv (m : Memory) (n : Nat) : (Cursor.mk 0 0 0 false n).Inv m :=
  ⟨by simp, by simp, by simp, by simp, fun i _ => by simp⟩

theorem onStream_inv (bytes : List Byte) : (onStream bytes).bc.Inv (onStream bytes).inMem := zero_inv _ _

/-- The cursor with `v` ghost bits left of an empty input meets 10_state R22. -/
theorem atEnd_inv {v : Nat} (h : v ≤ 32) : (atEnd v).bc.Inv (atEnd v).inMem :=
  ⟨by simp only [atEnd]; omega, by simp [atEnd], by simp [atEnd],
    by simp only [atEnd, Cursor.ghost, if_true, Config.ghostBits]; omega,
    fun i _ => by simp [atEnd, Memory.streamBit]⟩

/-- A table that codes one symbol is sound. -/
theorem single_ok {v : Nat} (h : v < 285) : (Table.single v).Ok := by
  refine ⟨fun x hx => ?_, fun e he => ?_⟩
  · simp only [Table.single, List.mem_singleton] at hx; omega
  · simp only [Table.single, List.mem_append, List.mem_replicate] at he
    rcases he with ⟨_, he⟩ | ⟨_, he⟩
    · cases he; exact ⟨h, Nat.le_refl 1, by show 1 ≤ 8; decide⟩
    · cases he

theorem emptyTable_ok : Table.emptyTable.Ok :=
  Builder.cleared_table ▸ Builder.cleared_ok.table (by decide +kernel)

theorem witness_EncodeThenDecode :
    (Instr.runAssign 8 28).wellFormed = true ∧ (Instr.runAssign 8 28).format? = some .run := by decide

theorem witness_DecodeThenEncode : decode .run [l,o,o,o,l,l,l,o,o,o] = .ok (.runAssign 8 28, [o]) := by decide

/-- Exactly 96 bits, ghost included, and one byte fewer. -/
theorem witness_StepRunsRawElement :
    ∃ s s' : State, (s.host = [] ∧ s.bc.Inv s.inMem ∧ s.phase = .header) ∧
      (s'.host = [] ∧ s'.bc.Inv s'.inMem ∧ s'.phase = .header) ∧
      s.bc.bitpos + Format.hdr.width ≤ s.bc.limit ∧
      decode .hdr (s.inMem.streamBits s.bc.inLen s.bc.bitpos 96) = .ok (.hdr 0 4 0, []) ∧
      s'.bc.limit < s'.bc.bitpos + Format.hdr.width :=
  ⟨{ onStream [0, 0, 0, 0, 0, 0, 0, 4] with phase := .header }, { onStream [0, 0, 0, 0, 0, 0, 4] with phase := .header },
    ⟨rfl, onStream_inv _, rfl⟩, ⟨rfl, onStream_inv _, rfl⟩, by decide +kernel, by decide +kernel, by decide +kernel⟩

/-- COUNT, PARAMS and the extra fields, each with exactly its bits left. -/
theorem witness_StepRunsRawElement_fields :
    (∃ s : State, s.host = [] ∧ s.bc.Inv s.inMem ∧ s.phase = .parseCopy ∧ s.seq = .start ∧
      s.bc.bitpos + Format.count.width = s.bc.limit) ∧
    (∃ s : State, s.host = [] ∧ s.bc.Inv s.inMem ∧ s.phase = .blockParams ∧
      s.bc.bitpos + Format.params.width = s.bc.limit) ∧
    (∃ s : State, s.host = [] ∧ s.bc.Inv s.inMem ∧ s.phase = .copyLen ∧ s.seq = .lenExtra 4 ∧
      s.bc.bitpos + (Format.lenExtra 4).width = s.bc.limit) ∧
    ∃ s : State, s.host = [] ∧ s.bc.Inv s.inMem ∧ s.phase = .copyDist ∧ s.seq = .distExtra 14 ∧
      s.bc.bitpos + (Format.distExtra 14).width = s.bc.limit :=
  ⟨⟨{ atEnd 16 with phase := .parseCopy }, rfl, atEnd_inv (by omega), rfl, rfl, by decide⟩,
    ⟨{ atEnd 12 with phase := .blockParams }, rfl, atEnd_inv (by omega), rfl, by decide⟩,
    ⟨{ atEnd 5 with phase := .copyLen, seq := .lenExtra 4 }, rfl, atEnd_inv (by omega), rfl, rfl, by decide⟩,
    ⟨{ atEnd 15 with phase := .copyDist, seq := .distExtra 14 }, rfl, atEnd_inv (by omega), rfl, rfl, by decide⟩⟩

/-- A code that decodes, and one that does not, for each of the three tables. -/
theorem witness_StepRunsCodedElement :
    ((Table.single 0x41).decode (onStream [0]).inMem (onStream [0]).bc = .ok 0x41 ⟨1, 0, 7, false, 1⟩ ∧
      decodeValue .sym 0x41 = .ok (.lit 0x41) ∧ decodeValue .dsym 0x41 = .ok (.distInvalid 0x41) ∧
      decodeValue .run 0x41 = .ok (.runAssign 2 1)) ∧
    ∃ c, (Table.single 0x41).decode (onStream [0x80]).inMem (onStream [0x80]).bc = .raise .codeNotFound c := by
  refine ⟨by decide +kernel, ⟨1, 0x80 <<< 56, 40, true, 1⟩, by decide +kernel⟩

theorem witness_StepRunsCodedElement_states :
    ∃ s s' s'' : State, (s.host = [] ∧ s.phase = .symbol ∧ s.symT = Table.single 0x41) ∧
      (s'.host = [] ∧ s'.phase = .copyDist ∧ s'.seq = .start ∧ s'.copyT = Table.single 0x41) ∧
      s''.host = [] ∧ s''.phase = .parseCopy ∧ s''.seq = .runs ∧ s''.tpRem = 0 ∧ s''.bootT = Table.single 0x41 :=
  ⟨{ onStream [0] with phase := .symbol, symT := Table.single 0x41 },
    { onStream [0] with phase := .copyDist, copyT := Table.single 0x41 },
    { onStream [0] with phase := .parseCopy, seq := .runs, bootT := Table.single 0x41 },
    ⟨rfl, rfl, rfl⟩, ⟨rfl, rfl, rfl, rfl⟩, rfl, rfl, rfl, rfl, rfl⟩

/-- Both sides of both tests: one byte of room and none, one code left and none. -/
theorem witness_LoopTestsChooseNextPhase :
    ∃ a b c d e : State, (a.host = [] ∧ a.phase = .blockTest ∧ a.outPos + 1 = a.target) ∧
      (b.host = [] ∧ b.phase = .blockTest ∧ b.outPos = b.target) ∧
      (c.host = [] ∧ c.phase = .codeTest ∧ c.codesLeft = 1 ∧ c.outPos + 1 = c.target) ∧
      (d.host = [] ∧ d.phase = .codeTest ∧ d.codesLeft = 0 ∧ d.outPos < d.target) ∧
      e.host = [] ∧ e.phase = .codeTest ∧ 0 < e.codesLeft ∧ e.outPos = e.target :=
  ⟨{ blank with phase := .blockTest, target := 1 }, { blank with phase := .blockTest },
    { blank with phase := .codeTest, target := 1, codesLeft := 1 }, { blank with phase := .codeTest, target := 1 },
    { blank with phase := .codeTest, codesLeft := 1 },
    ⟨rfl, rfl, rfl⟩, ⟨rfl, rfl, rfl⟩, ⟨rfl, rfl, rfl, rfl⟩, ⟨rfl, rfl, rfl, by decide⟩, rfl, rfl, by decide, rfl⟩

theorem witness_TableParseRunsItsElements :
    ∃ a b c d : State, (a.host = [] ∧ a.phase = .parseSym ∧ a.seq = .clear) ∧
      (b.host = [] ∧ b.phase = .parseCopy ∧ b.seq = .runs ∧ b.tpRem = -1) ∧
      (c.host = [] ∧ c.phase = .parseSym ∧ c.seq = .result ∧ (c.table .symT).empty = true) ∧
      d.host = [] ∧ d.phase = .parseCopy ∧ d.seq = .result ∧ (d.table .copyT).empty = false :=
  ⟨{ blank with phase := .parseSym, seq := .clear }, { blank with phase := .parseCopy, seq := .runs, tpRem := -1 },
    { blank with phase := .parseSym, seq := .result },
    { blank with phase := .parseCopy, seq := .result, copyT := Table.single 0 },
    ⟨rfl, rfl, rfl⟩, ⟨rfl, rfl, rfl, rfl⟩, ⟨rfl, rfl, rfl, rfl⟩, rfl, rfl, rfl, rfl⟩

theorem witness_OtherPhasesRunTheirOperation :
    ∃ a b c d e : State, (a.host = [] ∧ a.phase = .check) ∧ (b.host = [] ∧ b.phase = .copyRun) ∧
      (c.host = [] ∧ c.phase = .resetInit) ∧ (d.host = [] ∧ d.phase = .idle) ∧ e.host = [] ∧ e.phase = .failed :=
  ⟨{ blank with phase := .check }, { blank with phase := .copyRun }, { blank with phase := .resetInit }, blank,
    { blank with phase := .failed }, ⟨rfl, rfl⟩, ⟨rfl, rfl⟩, ⟨rfl, rfl⟩, ⟨rfl, rfl⟩, rfl, rfl⟩

/-- A state for every host action with any actions after it, idle and BUSY. -/
theorem witness_HostActionsAtTheStep (st : Status) (a : HostCmd) (rest : List HostCmd) :
    ∃ s : State, s.host = a :: rest ∧ s.status = st := ⟨{ blank with host := a :: rest, status := st }, rfl, rfl⟩

/-- A tick with an action after it: the engine's step answers a next state (IDLE waits), faults (LIT with the output
full), and is refused (a dictionary that repeats a symbol). -/
theorem witness_HostActionsAtTheStep_tick :
    ∃ a b c : State, a.host = [.tick, .reset] ∧ b.host = [.tick, .reset] ∧ c.host = [.tick, .reset] ∧
      step { a with host := [] } = .next { a with host := [] } ∧
      step { b with host := [] } = .fault .outputWrite ∧ step { c with host := [] } = .refused .duplicateSymbol :=
  ⟨{ blank with phase := .idle, host := [.tick, .reset] },
    { blank with phase := .literal, cpSym := 0x41, host := [.tick, .reset] },
    { blank with phase := .resetInit, bootDict := [(0, 1), (0, 1)], host := [.tick, .reset] },
    rfl, rfl, rfl, rfl, rfl, rfl⟩

/-- No error, and one. -/
theorem witness_ErrorCodesAsListed (e : ErrKind) : ∃ s s' : State, s.err = none ∧ s'.err = some e :=
  ⟨{ blank with err := none }, { blank with err := some e }, rfl, rfl⟩

/-! ## Hypotheses: the cursor -/

/-- 32 bits held with a byte left; the end without and with the ghost taken. -/
theorem witness_RefillPullsBytesThenGhost :
    ∃ b c d : State, (b.bc.valid = 32 ∧ b.bc.pos + 1 = b.bc.inLen) ∧
      (c.bc.valid ≤ 32 ∧ c.bc.inLen = c.bc.pos ∧ c.bc.eoi = false) ∧
      d.bc.valid ≤ 32 ∧ d.bc.inLen = d.bc.pos ∧ d.bc.eoi = true :=
  ⟨{ blank with bc := ⟨4, 0, 32, false, 5⟩ }, { blank with bc := ⟨5, 0, 32, false, 5⟩ }, atEnd 32, ⟨rfl, rfl⟩, ⟨by decide, rfl, rfl⟩, by decide, rfl, rfl⟩

/-- Exactly 32 bits left, and none. -/
theorem witness_NeedAndPeekKeepBitpos :
    (1 ≤ 32 ∧ (atEnd 32).bc.Inv (atEnd 32).inMem ∧ (atEnd 32).bc.bitpos + 32 ≤ 8 * (atEnd 32).bc.inLen + 32) ∧
    (atEnd 0).bc.Inv (atEnd 0).inMem ∧ 8 * (atEnd 0).bc.inLen + 32 < (atEnd 0).bc.bitpos + 1 :=
  ⟨⟨by decide, atEnd_inv (by omega), by decide⟩, atEnd_inv (by omega), by decide⟩

/-- Exactly one bit left, and one of 32 missing. -/
theorem witness_DropAndReadConsume :
    (1 ≤ 1 ∧ (atEnd 1).bc.Inv (atEnd 1).inMem ∧ (atEnd 1).bc.bitpos + 1 ≤ 8 * (atEnd 1).bc.inLen + 32) ∧
    (atEnd 31).bc.Inv (atEnd 31).inMem ∧ 8 * (atEnd 31).bc.inLen + 32 < (atEnd 31).bc.bitpos + 32 :=
  ⟨⟨by decide, atEnd_inv (by omega), by decide⟩, atEnd_inv (by omega), by decide⟩

/-- Counts of 0 and 33; 33 bits held; a full output; a copy that reaches one byte before the output. -/
theorem witness_StopsByName :
    ((0 = 0 ∨ 32 < 0) ∧ (33 = 0 ∨ 32 < 33)) ∧ ∃ a b c : State, a.bc.valid = 33 ∧ b.target = b.outPos ∧
      c.outPos + 1 = c.cpDist ∧ 0 < c.cpLen ∧ c.outPos < c.target :=
  ⟨by decide, { blank with bc := ⟨5, 0, 33, false, 5⟩ }, blank, { blank with target := 1, cpDist := 1, cpLen := 1 },
    rfl, rfl, rfl, by decide, by decide⟩

/-! ## Hypotheses: DECODE and the builder -/

/-- Eight bits left, a slot of length 1. -/
theorem witness_DecodeFastPath :
    ∃ (s : State) (e : HashSlot), s.bc.Inv s.inMem ∧ (s.table .symT).empty = false ∧
      s.bc.bitpos + 8 = 8 * s.bc.inLen + 32 ∧
      (s.table .symT).hash[s.inMem.streamValue s.bc.inLen s.bc.bitpos 8]? = some (some e) ∧ 1 ≤ e.len ∧ e.len ≤ 8 :=
  ⟨{ atEnd 8 with symT := Table.single 0x41 }, ⟨0x41, 1⟩, atEnd_inv (by omega), rfl, by decide, by decide +kernel,
    by decide, by decide⟩

/-- Thirty-two bits left, the 32-bit code of V6 (i). -/
theorem witness_DecodeSlowPath :
    ∃ s : State, s.bc.Inv s.inMem ∧ (s.table .symT).empty = false ∧ s.bc.bitpos + 32 = 8 * s.bc.inLen + 32 ∧
      (s.table .symT).hash[s.inMem.streamValue s.bc.inLen s.bc.bitpos 8]? = some none ∧
      0 = s.inMem.streamValue s.bc.inLen s.bc.bitpos 32 ∧ (s.table .symT).thr[32]? = some 1 ∧
      (∀ j x, 1 ≤ j → j < 32 → (s.table .symT).thr[j]? = some x → x ≤ 0) ∧
      (s.table .symT).ends[32]? = some 1 ∧ (s.table .symT).syms[1 - 1 - (1 - 1 - 0) / 2 ^ (32 - 32)]? = some 6 := by
  refine ⟨{ atEnd 32 with symT := longTable }, atEnd_inv (by omega), rfl, by decide, by decide +kernel, by decide +kernel,
    by decide +kernel, fun j x h1 h2 h => ?_, by decide +kernel, by decide +kernel⟩
  have : ∀ j < 32, (longTable.thr[j]?).getD 0 = 0 := by decide +kernel
  have hj := this j h2
  have e : (longTable.thr[j]?) = some x := h
  rw [e] at hj
  simp only [Option.getD_some] at hj
  omega

/-- An empty table; 7 bits left; 31 bits left after a miss; 32 bits that no threshold is above. -/
theorem witness_DecodeRaises :
    (blank.table .symT).empty = true ∧
    (∃ s : State, s.bc.Inv s.inMem ∧ (s.table .symT).empty = false ∧ 8 * s.bc.inLen + 32 + 1 = s.bc.bitpos + 8) ∧
    (∃ s : State, s.bc.Inv s.inMem ∧ (s.table .symT).empty = false ∧
      (s.table .symT).hash[s.inMem.streamValue s.bc.inLen s.bc.bitpos 8]? = some none ∧
      s.bc.bitpos + 8 ≤ 8 * s.bc.inLen + 32 ∧ 8 * s.bc.inLen + 32 + 1 = s.bc.bitpos + 32) ∧
    ∃ s : State, s.bc.Inv s.inMem ∧ (s.table .symT).empty = false ∧
      (s.table .symT).hash[s.inMem.streamValue s.bc.inLen s.bc.bitpos 8]? = some none ∧
      s.bc.bitpos + 32 ≤ 8 * s.bc.inLen + 32 ∧
      ∀ L, 1 ≤ L → L ≤ 32 → (s.table .symT).thr.getD L 0 ≤ s.inMem.streamValue s.bc.inLen s.bc.bitpos 32 := by
  refine ⟨rfl, ⟨{ atEnd 7 with symT := Table.single 0 }, atEnd_inv (by omega), rfl, by decide⟩,
    ⟨{ atEnd 31 with symT := longTable }, atEnd_inv (by omega), rfl, by decide +kernel, by decide, by decide⟩,
    ⟨{ onStream [0x80] with symT := Table.single 0 }, onStream_inv _, rfl, by decide +kernel, by decide, ?_⟩⟩
  have : ∀ L < 33, (Table.single 0).thr.getD L 0 ≤ (onStream [0x80]).inMem.streamValue 1 0 32 := by decide +kernel
  exact fun L _ h => this L (by omega)

/-- The code `0` of one symbol with 8 bits left, and the code of 32 zeros with 32 left. -/
theorem witness_DecodeInvertsBuild :
    (∃ (s : State) (b : Builder), s.bc.Inv s.inMem ∧ b.Ok ∧ b.build = some (s.table .symT) ∧ (b.list 1)[0]? = some 0x41 ∧
      s.inMem.streamValue s.bc.inLen s.bc.bitpos 1 = b.code 1 0 ∧
      s.bc.bitpos + (if 1 ≤ 8 then 8 else 32) = 8 * s.bc.inLen + 32) ∧
    ∃ (s : State) (b : Builder), s.bc.Inv s.inMem ∧ b.Ok ∧ b.build = some (s.table .symT) ∧ (b.list 32)[0]? = some 6 ∧
      s.inMem.streamValue s.bc.inLen s.bc.bitpos 32 = b.code 32 0 ∧
      s.bc.bitpos + (if 32 ≤ 8 then 8 else 32) = 8 * s.bc.inLen + 32 := by
  refine ⟨⟨{ atEnd 8 with symT := Table.single 0x41 }, ⟨[[], [0x41]] ++ List.replicate 31 []⟩, atEnd_inv (by omega), ?_,
      by decide +kernel, by decide, by decide +kernel, by decide⟩,
    ⟨{ atEnd 32 with symT := longTable }, ⟨List.replicate 32 [] ++ [[6]]⟩, atEnd_inv (by omega), ?_,
      by decide +kernel, by decide, by decide +kernel, by decide⟩⟩ <;>
  exact ⟨by decide, by decide⟩

theorem witness_AddSymbolChecksThenAppends :
    (32 < 33) ∧ (32 ≤ 32 ∧ ((285 : Int) < 0 ∨ (285 : Int) ≤ 285) ∧ ((-1 : Int) < 0 ∨ (285 : Int) ≤ -1)) ∧
    (∃ b ∈ v4Builder.lists, (5 : Int).toNat ∈ b) ∧
    Builder.cleared.lists.length = 33 ∧ (0 : Int) ≤ 284 ∧ (284 : Int) < 285 ∧
      ∀ b ∈ Builder.cleared.lists, (284 : Int).toNat ∉ b := by decide

/-- Three codes of length 1; two of them, which is exactly complete. -/
theorem witness_BuildWritesTable :
    2 ^ 32 < ((List.range 32).map fun j =>
      ((⟨[[], [1, 2, 3]] ++ List.replicate 31 []⟩ : Builder).list (j + 1)).length * 2 ^ (31 - j)).sum ∧
    ((List.range 32).map fun j =>
      ((⟨[[], [1, 2]] ++ List.replicate 31 []⟩ : Builder).list (j + 1)).length * 2 ^ (31 - j)).sum = 2 ^ 32 := by
  decide +kernel

theorem witness_BuildFillsHash : v4Builder.build = some v4Builder.table ∧ 255 < 256 := by decide +kernel

/-- The test dictionary of T1 meets R181 with nothing to spare. -/
theorem bootDictTest_ok : DictOk Config.bootDictTest := by unfold DictOk; decide +kernel

theorem witness_InitBootBuildsBootTable :
    ∃ s : State, s.phase = .resetInit ∧ DictOk s.bootDict :=
  ⟨{ blank with phase := .resetInit, bootDict := Config.bootDictTest }, rfl, bootDictTest_ok⟩

theorem witness_ResetLeavesIdle : ∃ s : State, s.status = .busy ∧ DictOk s.bootDict :=
  ⟨{ blank with status := .busy, bootDict := Config.bootDictTest }, rfl, bootDictTest_ok⟩

/-- A length of 33; a symbol of 285; codes that exceed the space by one of 32 bits; a symbol repeated. -/
theorem witness_BadDictionaryFailsReset :
    ∃ d : List (Int × Nat), (∀ q ∈ d, q.2 ≤ 32 ∧ 0 ≤ q.1 ∧ q.1 < 285) ∧ (d.map Prod.fst).Nodup ∧
      (∃ s : State, s.bootDict = d ++ [(2, 33)] ∧ s.phase = .resetInit) ∧
      (∃ s : State, s.bootDict = d ++ [(285, 32)] ∧ s.phase = .resetInit) ∧
      (∃ s : State, s.bootDict = d ++ [] ∧ s.phase = .resetInit) ∧
      2 ^ 32 + 1 = ((d.filter fun q => q.2 ≠ 0).map fun q => 2 ^ (32 - q.2)).sum ∧
      ∃ s : State, s.bootDict = d ++ [(2, 32)] ∧ (2 : Int) ∈ d.map Prod.fst :=
  ⟨[(0, 1), (1, 1), (2, 32)], by decide, by decide,
    ⟨{ blank with phase := .resetInit, bootDict := [(0, 1), (1, 1), (2, 32), (2, 33)] }, rfl, rfl⟩,
    ⟨{ blank with phase := .resetInit, bootDict := [(0, 1), (1, 1), (2, 32), (285, 32)] }, rfl, rfl⟩,
    ⟨{ blank with phase := .resetInit, bootDict := [(0, 1), (1, 1), (2, 32)] }, rfl, rfl⟩, by decide,
    ⟨{ blank with bootDict := [(0, 1), (1, 1), (2, 32), (2, 32)] }, rfl, by decide⟩⟩

/-! ## Hypotheses: the table parse -/

/-- Sixteen bits left and fifteen; 285 slots and 286. -/
theorem witness_CountStoresOrRaises :
    ((atEnd 16).bc.Inv (atEnd 16).inMem ∧ (atEnd 16).bc.bitpos + 16 = 8 * (atEnd 16).bc.inLen + 32) ∧
    ((atEnd 15).bc.Inv (atEnd 15).inMem ∧ 8 * (atEnd 15).bc.inLen + 32 + 1 = (atEnd 15).bc.bitpos + 16) ∧
    (285#16).toNat ≤ 285 ∧ 285 < (286#16).toNat :=
  ⟨⟨atEnd_inv (by omega), by decide⟩, ⟨atEnd_inv (by omega), by decide⟩, by decide⟩

theorem witness_RunAssignAppendsDescending :
    ∃ s : State, (1 : BitVec 5) ≠ 0 ∧ s.builder.lists.length = 33 ∧ s.tpRem ≤ 284 ∧ ((8 : BitVec 4).toNat : Int) = s.tpRem ∧
      ∀ b ∈ s.builder.lists, ∀ x ∈ b, s.tpRem < (x : Int) :=
  ⟨{ blank with tpRem := 8, builder := ⟨[[], [9]] ++ List.replicate 31 []⟩ }, by decide, rfl, by decide, rfl, by decide⟩

theorem witness_RunAssignOverrunRaises :
    ∃ s : State, (31 : BitVec 5) ≠ 0 ∧ s.builder.lists.length = 33 ∧ 0 ≤ s.tpRem ∧ s.tpRem ≤ 284 ∧
      s.tpRem + 1 = ((1 : BitVec 4).toNat : Int) ∧ ∀ b ∈ s.builder.lists, ∀ x ∈ b, s.tpRem < (x : Int) :=
  ⟨{ blank with tpRem := 0, builder := ⟨[[], [1]] ++ List.replicate 31 []⟩ }, by decide, rfl, by decide, by decide,
    by decide, by decide⟩

/-- `TABLE 1; RUN 1,1` (V9b) with the one run code `0`. -/
theorem witness_ParseTableReadsDescriptor :
    ∃ (s : State) (c c' : Cursor), s.bc.Inv s.inMem ∧ s.bootT.Ok ∧ s.bc.bitpos + 16 ≤ 8 * s.bc.inLen + 32 ∧
      1 = s.inMem.streamValue s.bc.inLen s.bc.bitpos 16 ∧ s.bc.read s.inMem 16 = .ok 1 c ∧
      runsAt s.inMem s.bootT 1 c = some ([1], c') ∧ [1] = runLengths [1] ∧
      (∀ j, j < 1 → (runLengths ([1].take j)).length < 1) ∧
      (∀ i x, 1 ≤ i → [1][i]? = some x → x = 0) ∧ (descriptorBuilder 1 [1]).kraft 32 ≤ 2 ^ 32 := by
  refine ⟨{ onStream [0x00, 0x01, 0x00] with bootT := Table.single 1 }, ⟨3, 0, 8, false, 3⟩, ⟨3, 0, 7, false, 3⟩,
    onStream_inv _, single_ok (by omega), by decide, by decide +kernel, by decide +kernel, by decide +kernel,
    by decide, by decide, fun i x hi h => ?_, by decide +kernel⟩
  have := (List.getElem?_eq_some_iff.mp h).1
  simp only [List.length_cons, List.length_nil] at this
  omega

theorem witness_ParseStepsRefineParseTable :
    ∃ s : State, s.host = [] ∧ s.bc.Inv s.inMem ∧ s.bootT.Ok ∧ s.seq = .start ∧ s.phase = .parseSym :=
  ⟨{ onStream [0x00, 0x01, 0x00] with phase := .parseSym, bootT := Table.single 1 }, rfl, onStream_inv _,
    single_ok (by omega), rfl, rfl⟩

/-! ## Hypotheses: the engine -/

theorem witness_StartChecksArguments :
    ∃ a b c d e f : State, a.status = .busy ∧ b.phase = .resetInit ∧ c.phase = .failed ∧
      (d.status ≠ .busy ∧ d.phase ≠ .resetInit ∧ d.phase ≠ .failed ∧ d.argInLen = 1 ∧ d.argOutPresent = true ∧
        d.argOutHint = 1) ∧
      (e.status ≠ .busy ∧ e.phase ≠ .resetInit ∧ e.phase ≠ .failed ∧ e.argInLen = 0) ∧
      f.status ≠ .busy ∧ f.phase ≠ .resetInit ∧ f.phase ≠ .failed ∧ f.argInLen ≠ 0 ∧ f.argOutPresent = true ∧
        f.argOutHint = 0 :=
  ⟨{ blank with status := .busy }, { blank with phase := .resetInit }, { blank with phase := .failed },
    { blank with argInLen := 1, argOutPresent := true, argOutHint := 1 }, blank,
    { blank with argInLen := 1, argOutPresent := true }, rfl, rfl, rfl, by decide +kernel, by decide +kernel,
    by decide +kernel⟩

/-- Eight bytes of input, which the ghost completes, and seven, which it does not. -/
theorem witness_HdrSetsSizes :
    (∃ s : State, s.bc.Inv s.inMem ∧ s.bc.bitpos + 96 = 8 * s.bc.inLen + 32) ∧
    ∃ s : State, s.bc.Inv s.inMem ∧ 8 * s.bc.inLen + 32 < s.bc.bitpos + 96 ∧ s.bc.bitpos + 64 ≤ 8 * s.bc.inLen + 32 :=
  ⟨⟨onStream [0, 0, 0, 0, 0, 0, 0, 0], onStream_inv _, by decide⟩,
    ⟨onStream [0, 0, 0, 0, 0, 0, 0], onStream_inv _, by decide, by decide⟩⟩

theorem witness_ParamsSetsBlock :
    ((atEnd 12).bc.Inv (atEnd 12).inMem ∧ (atEnd 12).bc.bitpos + 12 = 8 * (atEnd 12).bc.inLen + 32) ∧
    (atEnd 11).bc.Inv (atEnd 11).inMem ∧ 8 * (atEnd 11).bc.inLen + 32 + 1 = (atEnd 11).bc.bitpos + 12 :=
  ⟨⟨atEnd_inv (by omega), by decide⟩, atEnd_inv (by omega), by decide⟩

theorem witness_LitWritesOneByte :
    ∃ s : State, s.outPos + 1 = s.target ∧ s.outMem.wf = true := ⟨{ blank with target := 1 }, rfl, rfl⟩

/-- For each width, exactly its bits left, a base that is a multiple of `2^w`, and one bit fewer. -/
theorem witness_LenExtraCompletesLength (w : Nat) (h : 1 ≤ w) (h5 : w ≤ 5) :
    ∃ s s' : State, (s.bc.Inv s.inMem ∧ s.length = 4 * 2 ^ w ∧ s.bc.bitpos + w = 8 * s.bc.inLen + 32) ∧
      s'.bc.Inv s'.inMem ∧ 8 * s'.bc.inLen + 32 + 1 = s'.bc.bitpos + w :=
  ⟨{ atEnd w with length := 4 * 2 ^ w }, atEnd (w - 1), ⟨atEnd_inv (v := w) (by omega), rfl, by
      simp only [atEnd, Cursor.bitpos, Cursor.ghost, if_true, Config.ghostBits]; omega⟩, atEnd_inv (by omega), by
      simp only [atEnd, Cursor.bitpos, Cursor.ghost, if_true, Config.ghostBits]; omega⟩

theorem witness_DistWithoutExtraBits :
    ∃ a b c d : State, (1 : BitVec 1).toNat + 1 = a.outPos ∧ b.outPos + 1 = (1 : BitVec 1).toNat + 1 ∧
      (1 : BitVec 1).toNat + 3 = c.outPos ∧ d.outPos + 1 = (1 : BitVec 1).toNat + 3 :=
  ⟨{ blank with outPos := 2 }, { blank with outPos := 1 }, { blank with outPos := 4 }, { blank with outPos := 3 },
    rfl, rfl, rfl, rfl⟩

/-- For each width, exactly its bits left and a distance that just reaches the output's start, and one that does not;
and one bit fewer. -/
theorem witness_DistExtraCompletesDistance (w : Nat) (h : 1 ≤ w) (h15 : w ≤ 15) :
    ∃ s s' s'' : State, (s.bc.Inv s.inMem ∧ s.distance = 2 * 2 ^ w ∧ s.bc.bitpos + w = 8 * s.bc.inLen + 32 ∧
        (s.distance ||| 0) + 1 = s.outPos) ∧
      (s'.bc.Inv s'.inMem ∧ s'.bc.bitpos + w = 8 * s'.bc.inLen + 32 ∧ s'.outPos + 1 = (s'.distance ||| 0) + 1) ∧
      s''.bc.Inv s''.inMem ∧ 8 * s''.bc.inLen + 32 + 1 = s''.bc.bitpos + w :=
  ⟨{ atEnd w with distance := 2 * 2 ^ w, outPos := 2 * 2 ^ w + 1 }, { atEnd w with distance := 2 * 2 ^ w, outPos := 2 * 2 ^ w },
    atEnd (w - 1), ⟨atEnd_inv (v := w) (by omega), rfl, by
      simp only [atEnd, Cursor.bitpos, Cursor.ghost, if_true, Config.ghostBits]; omega, by simp⟩,
    ⟨atEnd_inv (v := w) (by omega), by simp only [atEnd, Cursor.bitpos, Cursor.ghost, if_true, Config.ghostBits]; omega, by simp⟩,
    atEnd_inv (by omega), by simp only [atEnd, Cursor.bitpos, Cursor.ghost, if_true, Config.ghostBits]; omega⟩

/-- A copy that the end of the output cuts short, from the first byte there is; and one of no bytes. -/
theorem witness_CopyRunRepeatsPeriodically :
    ∃ s s' : State, (s.outMem.wf = true ∧ 1 ≤ s.cpDist ∧ s.cpDist = s.outPos ∧ s.outPos ≤ s.target ∧
        6 = min s.cpLen (s.target - s.outPos)) ∧
      s'.outMem.wf = true ∧ 1 ≤ s'.cpDist ∧ s'.cpDist ≤ s'.outPos ∧ s'.outPos = s'.target ∧
        0 = min s'.cpLen (s'.target - s'.outPos) :=
  ⟨{ blank with outMem := [(0, 0x62)], outPos := 1, target := 7, cpDist := 1, cpLen := 12 },
    { blank with outPos := 1, target := 1, cpDist := 1, cpLen := 1 }, ⟨by decide, by decide, rfl, by decide, rfl⟩, rfl,
    by decide, by decide, rfl, rfl⟩

/-! ## Hypotheses: sound states -/

/-- A decode about to initialise, over one byte of input. -/
def atCheck : State := { blank with status := .busy, phase := .check, argInLen := 1 }

/-- A decode about to read its header, over twelve bytes of input. -/
def atHeader : State := { onStream (List.replicate 12 1) with phase := .header, argInLen := 12 }

/-- A decode about to write a literal, the last byte of its output. -/
def atLiteral : State :=
  { atEnd 8 with
    phase := .literal, cpSym := 0x41, target := 1, declared := 1, wsb := 1, symT := Table.single 0x41
    copyT := Table.single 0 }

/-- Idle, with a host action due. -/
def atHost (a : HostCmd) : State := { atCheck with host := [a] }

theorem cleared_tables {s : State} (h1 : s.symT.Ok) (h2 : s.copyT.Ok) (h3 : s.bootT = Table.emptyTable)
    (h4 : s.builder = Builder.cleared) : s.TablesInv :=
  ⟨h1, h2, h3 ▸ emptyTable_ok, h4 ▸ Builder.cleared_ok⟩

theorem atCheck_inv : atCheck.Inv :=
  ⟨⟨rfl, rfl⟩, by unfold State.ControlInv; decide +kernel, fun h => absurd h (by decide),
    cleared_tables emptyTable_ok emptyTable_ok rfl rfl, by unfold State.RangeInv; decide +kernel,
    by unfold State.FlowInv; decide +kernel⟩

theorem atHeader_inv : atHeader.Inv :=
  ⟨⟨by decide +kernel, rfl⟩, by unfold State.ControlInv; decide +kernel, fun _ => ⟨onStream_inv _, by decide +kernel⟩,
    cleared_tables emptyTable_ok emptyTable_ok rfl rfl, by unfold State.RangeInv; decide +kernel,
    by unfold State.FlowInv; decide +kernel⟩

theorem atLiteral_inv : atLiteral.Inv :=
  ⟨⟨rfl, rfl⟩, by unfold State.ControlInv; decide +kernel, fun _ => ⟨atEnd_inv (by omega), rfl⟩,
    cleared_tables (single_ok (by omega)) (single_ok (by omega)) rfl rfl, by unfold State.RangeInv; decide +kernel,
    by unfold State.FlowInv; decide +kernel⟩

theorem atHost_inv (a : HostCmd) : (atHost a).Inv := atCheck_inv

/-- The invariants' statements: a sound state, and a step from it. -/
theorem witness_StepKeepsSoundness : ∃ s t : State, s.Inv ∧ step s = .next t := ⟨atHeader, _, atHeader_inv, rfl⟩

theorem witness_StepKeepsMemoryCanonical : ∃ s t : State, s.MemoryInv ∧ step s = .next t :=
  ⟨atLiteral, _, atLiteral_inv.1, rfl⟩

theorem witness_StepKeepsControl : ∃ s t : State, s.ControlInv ∧ step s = .next t :=
  ⟨atLiteral, _, atLiteral_inv.2.1, rfl⟩

theorem witness_StepKeepsCursor : ∃ s t : State, s.ControlInv ∧ s.TablesInv ∧ s.CursorInv ∧ s.phase.decoding = true ∧
    step s = .next t :=
  ⟨atHeader, _, atHeader_inv.2.1, atHeader_inv.2.2.2.1, atHeader_inv.2.2.1, rfl, rfl⟩

theorem witness_StepKeepsTables : ∃ s t : State, s.TablesInv ∧ step s = .next t :=
  ⟨atLiteral, _, atLiteral_inv.2.2.2.1, rfl⟩

theorem witness_StepKeepsRanges : ∃ s t : State, s.TablesInv ∧ s.RangeInv ∧ step s = .next t :=
  ⟨atLiteral, _, atLiteral_inv.2.2.2.1, atLiteral_inv.2.2.2.2.1, rfl⟩

/-- A sound state that takes a step, and sound states for both refusals. -/
theorem witness_SoundStepsNeverStop :
    ((atHost (.writeIn 0 0)).Inv ∧ refusal (step (atHost (.writeIn 0 0))) = some .hostWriteWhileBusy) ∧
    ∃ s : State, s.Inv ∧ initBoot s.bootDict = .duplicate ∧ refusal (step s) = some .duplicateSymbol :=
  ⟨⟨atHost_inv _, by decide +kernel⟩,
    { atHost .reset with bootDict := [(0, 1), (0, 2)] }, atCheck_inv, by decide +kernel, by decide +kernel⟩

theorem witness_UnreachableErrorsStayUnreached :
    ∃ s t : State, s.Inv ∧ s.host = [] ∧ s.status = .busy ∧ step s = .next t := ⟨atHeader, _, atHeader_inv, rfl, rfl, rfl⟩

theorem witness_EngineWritesOnlyNewOutput :
    ∃ (s t : State) (a : Nat), s.host = [] ∧ step s = .next t ∧ t.outMem.read a ≠ s.outMem.read a :=
  ⟨atLiteral, _, 0, rfl, rfl, by decide +kernel⟩

theorem witness_EngineLeavesInputsAlone : ∃ s t : State, s.host = [] ∧ step s = .next t ∧ s.phase ≠ .resetInit :=
  ⟨atLiteral, _, rfl, rfl, by decide⟩

theorem witness_BitposNeverDecreases :
    ∃ s t : State, s.ControlInv ∧ s.TablesInv ∧ s.CursorInv ∧ s.host = [] ∧ s.phase.decoding = true ∧ step s = .next t :=
  ⟨atHeader, _, atHeader_inv.2.1, atHeader_inv.2.2.2.1, atHeader_inv.2.2.1, rfl, rfl, rfl⟩

theorem witness_EveryDecodeEnds : ∃ s : State, s.Inv ∧ s.host = [] ∧ s.status = .busy :=
  ⟨atCheck, atCheck_inv, rfl, rfl⟩

/-- Two states that differ in what an earlier decode left, and three steps from each. -/
theorem witness_OutcomeIgnoresLeftovers :
    ∃ s s' t t' : State, s.Inv ∧ s'.Inv ∧ s.phase = .check ∧ s'.phase = .check ∧ s.host = [] ∧ s'.host = [] ∧
      s.inMem = s'.inMem ∧ s.argInLen = s'.argInLen ∧ s.argOutHint = s'.argOutHint ∧ s.bootT = s'.bootT ∧
      s.statusDeclared = s'.statusDeclared ∧ s.statusTarget = s'.statusTarget ∧ s ≠ s' ∧
      Sys2Proof.core.run (0 + 1) s = .next t ∧ Sys2Proof.core.run (0 + 1) s' = .next t' :=
  ⟨atCheck, { atCheck with wsb := 16, cpSym := 284, seq := .result }, _, _, atCheck_inv,
    ⟨⟨rfl, rfl⟩, by unfold State.ControlInv; decide +kernel, fun h => absurd h (by decide),
      cleared_tables emptyTable_ok emptyTable_ok rfl rfl, by unfold State.RangeInv; decide +kernel,
      by unfold State.FlowInv; decide +kernel⟩,
    rfl, rfl, rfl, rfl, rfl, rfl, rfl, rfl, rfl, rfl, by decide +kernel,
    rfl, rfl⟩

end Sys2Proof.Tests
end

/-!
# What a step can do

SUPPORT. What a step can do when the host's actions are counted in: `Move s t` lists the next states, and `step_move`
says that the list is complete. An invariant that does not speak of the host's actions is kept by every step once it is
kept by every `Move` (`step_keeps`).
-/

namespace Sys2Proof.Machine

/-- The next states of a step, once the host action it takes is off the list. -/
inductive Move (s : State) : State → Prop where
  /-- The engine's step. -/
  | engine {t : State} (he : Effect s t) : Move s t
  /-- A host write (20_memory R75). -/
  | write {t : State} (hw : HostWrites s t) (hb : s.status ≠ .busy) : Move s t
  /-- CMD_START written with 0, and a START that is ignored. -/
  | ignored : Move s s
  /-- A START whose arguments are refused (45_block_decoder R210). -/
  | startFails (e : ErrKind) (he : e ≠ .allocationFailure) : Move s (s.clearForStart.takeError e)
  /-- A START that begins a decode. -/
  | started : Move s { s.clearForStart with phase := .check, seq := .start }
  /-- RESET (70 R330). -/
  | reset : Move s { State.resetWith s.bootDict with inMem := s.inMem, outMem := s.outMem, host := s.host }

theorem Move.of_execStart {s t : State} (h : exec .start s = .next t) : Move s t := by
  simp only [exec, execStart] at h
  split at h
  · split at h
    · cases h; exact .startFails _ (by simp)
    · split at h
      · cases h; exact .startFails _ (by simp)
      · cases h; exact .started
  · cases h; exact .ignored

theorem Move.of_execReset {s t : State} (h : exec .reset s = .next t) : Move s t := by
  simp only [exec, execReset] at h
  split at h <;> cases h <;> exact .reset

/-- Everything a step can do, with or without a host action due. -/
theorem step_move {s t : State} (h : step s = .next t) : ∃ rest, Move { s with host := rest } t := by
  cases hh : s.host with
  | nil => exact ⟨[], .engine (by rw [← hh]; exact step_effect hh h)⟩
  | cons a rest =>
    obtain ⟨u, rfl, hu⟩ := step_host hh
    refine ⟨rest, ?_⟩
    rcases hu with ⟨e, _⟩ | ⟨t', e, hw, hb⟩ | e | e | e | e <;> rw [h] at e
    · cases e
    · cases e; exact .write hw hb
    · cases e; exact .ignored
    · exact .of_execStart e.symm
    · exact .of_execReset e.symm
    · exact .engine ((engineStep_spec _).1 t e.symm)

/-- A property that the host's actions do not matter to, and that every `Move` keeps, is kept by every step. -/
theorem step_keeps {P : State → Prop} (host : ∀ s rest, P s → P { s with host := rest })
    (move : ∀ s t, P s → Move s t → P t) {s t : State} (hs : P s) (h : step s = .next t) : P t := by
  obtain ⟨rest, hm⟩ := step_move h
  exact move _ t (host s rest hs) hm

/-! ## Frames shared by the invariants -/

/-- The state a symbol's row runs in is in LITERAL or COPY_LEN, inside the code loop. -/
theorem SymbolReady.phase {s u : State} {v : Nat} (h : SymbolReady s u v) :
    u.phase = .literal ∨ u.phase = .copyLen := by
  rcases h with ⟨_, c, _, rfl⟩ | ⟨hp, _, rfl⟩
  · by_cases hv : v < Config.litLimit <;> simp [hv]
  · exact hp

theorem SymbolReady.inCode {s u : State} {v : Nat} (h : SymbolReady s u v) :
    s.phase.inCode = true ∧ u.phase.inCode = true := by
  refine ⟨?_, by rcases h.phase with e | e <;> rw [e] <;> rfl⟩
  rcases h with ⟨hp, _⟩ | ⟨hp | hp, _⟩ <;> rw [hp] <;> rfl

/-- The phases inside the code loop are phases of a decode. -/
theorem Phase.decoding_of_inCode {p : Phase} (h : p.inCode = true) : p.decoding = true := by
  cases p <;> first | rfl | cases h

theorem Phase.inDecode_of_decoding {p : Phase} (h : p.decoding = true) : p.inDecode = true := by
  simp [Phase.inDecode, h]

/-- After a hard error the core is in IDLE or FAILED. -/
theorem State.takeError_phase_cases (s : State) (e : ErrKind) :
    (s.takeError e).phase = .failed ∨ (s.takeError e).phase = .idle := by
  rw [State.takeError_phase]; split
  · exact .inl rfl
  · exact .inr rfl

/-- After RESET the core is in IDLE, in FAILED, or, where BOOT_DICT repeats a symbol, in RESET_INIT. -/
theorem BootResult.phase_cases (r : BootResult) : r.phase = .idle ∨ r.phase = .failed ∨ r.phase = .resetInit := by
  cases r <;> simp [BootResult.phase]

theorem SymbolReady.inputs {s u : State} {v : Nat} (h : SymbolReady s u v) :
    u.inMem = s.inMem ∧ u.argInLen = s.argInLen := by
  rcases h with ⟨_, c, _, rfl⟩ | ⟨_, _, rfl⟩ <;> exact ⟨rfl, rfl⟩

/-- An engine step writes neither IN nor ARG_IN_LEN. -/
theorem Effect.inputs {s t : State} (h : Effect s t) : t.inMem = s.inMem ∧ t.argInLen = s.argInLen := by
  cases h with
  | raised e u hf => exact ⟨hf.inMem, hf.args.1⟩
  | built t => cases t <;> exact ⟨rfl, rfl⟩
  | lit u v hu | lenDone u v hu | lenBase u v hu => exact ⟨hu.inputs.1, hu.inputs.2⟩
  | _ => exact ⟨rfl, rfl⟩

end Sys2Proof.Machine

/-!
# The memories, the tables and the builder

SUPPORT. Every step keeps the memories canonical and the tables and the builder full of symbols (O51).
-/

namespace Sys2Proof.Machine

/-! ## The memories -/

theorem SymbolReady.memoryInv {s u : State} {v : Nat} (h : SymbolReady s u v) (hs : s.MemoryInv) : u.MemoryInv := by
  rcases h with ⟨_, c, _, rfl⟩ | ⟨_, _, rfl⟩ <;> exact hs

theorem Effect.memoryInv {s t : State} (h : Effect s t) (hs : s.MemoryInv) : t.MemoryInv := by
  obtain ⟨hin, hout⟩ := id hs
  cases h with
  | raised e u hf => exact ⟨hf.inMem ▸ hin, hf.outMem ▸ hout⟩
  | built t => cases t <;> exact hs
  | lit u v hu => exact ⟨(hu.memoryInv hs).1, Memory.write_wf _ _ _ (hu.memoryInv hs).2⟩
  | lenDone u v hu | lenBase u v hu => exact hu.memoryInv hs
  | copied _ m p hw => exact ⟨hin, hw hout⟩
  | _ => exact hs

theorem Move.memoryInv {s t : State} (h : Move s t) (hs : s.MemoryInv) : t.MemoryInv := by
  obtain ⟨hin, hout⟩ := id hs
  cases h with
  | engine he => exact he.memoryInv hs
  | write hw =>
    cases hw with
    | inMem a v => exact ⟨Memory.write_wf _ _ _ hin, hout⟩
    | outMem a v => exact ⟨hin, Memory.write_wf _ _ _ hout⟩
    | _ => exact hs
  | _ => exact hs

/-! ## The tables and the builder -/

theorem Table.emptyTable_ok : Table.emptyTable.Ok := by
  rw [← Builder.cleared_table]
  exact Builder.cleared_ok.table (by decide +kernel)

/-- What INIT_BOOT leaves in BOOT_T and in the builder is sound, whatever the dictionary. -/
theorem initBoot_ok (d : List (Int × Nat)) : (initBoot d).table.Ok ∧ (initBoot d).builder.Ok := by
  rcases initBoot_cases d with ⟨T, e, hT⟩ | ⟨_, b, e, hb, _⟩ | e <;> rw [e]
  · exact ⟨hT, Builder.cleared_ok⟩
  · exact ⟨Table.emptyTable_ok, hb⟩
  · exact ⟨Table.emptyTable_ok, Builder.cleared_ok⟩

theorem resetWith_tablesInv (d : List (Int × Nat)) : (State.resetWith d).TablesInv :=
  ⟨Table.emptyTable_ok, Table.emptyTable_ok, (initBoot_ok d).1, (initBoot_ok d).2⟩

theorem SymbolReady.tablesInv {s u : State} {v : Nat} (h : SymbolReady s u v) (hs : s.TablesInv) : u.TablesInv := by
  rcases h with ⟨_, c, _, rfl⟩ | ⟨_, _, rfl⟩ <;> exact hs

theorem Effect.tablesInv {s t : State} (h : Effect s t) (hs : s.TablesInv) : t.TablesInv := by
  obtain ⟨hsym, hcopy, hboot, hbuilder⟩ := id hs
  cases h with
  | booted T _ hT => exact ⟨hsym, hcopy, hT, Builder.cleared_ok⟩
  | raised e u hf =>
    obtain ⟨e1, e2, e3⟩ := hf.tables
    exact ⟨e1 ▸ hsym, e2 ▸ hcopy, e3 ▸ hboot, hf.builder hbuilder⟩
  | cleared => exact ⟨hsym, hcopy, hboot, Builder.cleared_ok⟩
  | assigned _ _ _ v c _ rep _ _ b hb => exact ⟨hsym, hcopy, hboot, hb hbuilder⟩
  | built t _ _ _ hk =>
    cases t
    · exact ⟨hbuilder.table hk, hcopy, hboot, hbuilder⟩
    · exact ⟨hsym, hbuilder.table hk, hboot, hbuilder⟩
  | lit u v hu | lenDone u v hu | lenBase u v hu => exact hu.tablesInv hs
  | _ => exact hs

theorem Move.tablesInv {s t : State} (h : Move s t) (hs : s.TablesInv) : t.TablesInv := by
  cases h with
  | engine he => exact he.tablesInv hs
  | write hw => cases hw <;> exact hs
  | reset => exact resetWith_tablesInv s.bootDict
  | _ => exact hs

/-- Settles O51: every `Move` keeps the tables and the builder sound. -/
theorem stepKeepsTables : Obligations.StepKeepsTables := by
  unfold Obligations.StepKeepsTables
  exact fun s t hs h => step_keeps (P := State.TablesInv) (fun _ _ hs => hs) (fun _ _ hs hm => hm.tablesInv hs) hs h

end Sys2Proof.Machine

/-!
# The control registers

SUPPORT. Every step keeps STATUS, ERR, SOFT_EOF, OUT_LEN and the phase in agreement (O49). The engine does one of three
things with them: it leaves them as they are, ends the decode as DONE, or takes an error.
-/

namespace Sys2Proof.Machine

/-- A state with the same STATUS, ERR, OUT_LEN and SOFT_EOF, whose phase is in a decode where the first one's is. -/
def State.SameControl (s t : State) : Prop :=
  t.status = s.status ∧ t.err = s.err ∧ t.outLen = s.outLen ∧ t.softEof = s.softEof ∧
  t.phase.inDecode = s.phase.inDecode ∧ (t.phase = .failed → s.phase = .failed)

theorem State.SameControl.controlInv {s t : State} (h : s.SameControl t) (hs : s.ControlInv) : t.ControlInv := by
  obtain ⟨e1, e2, e3, e4, e5, hf⟩ := h
  obtain ⟨h1, h2, h3, h4, h5, h6⟩ := hs
  rw [State.ControlInv, e1, e2, e3, e4, e5]
  exact ⟨h1, h2, h3, h4, h5, fun e => h6 (hf e)⟩

/-- Inside a decode, a state that differs in registers that are not the status registers, and is still inside it. -/
theorem State.SameControl.inside {s t : State}
    (h : t.status = s.status ∧ t.err = s.err ∧ t.outLen = s.outLen ∧ t.softEof = s.softEof)
    (hs : s.phase.inDecode = true) (ht : t.phase.inDecode = true) : s.SameControl t := by
  obtain ⟨e1, e2, e3, e4⟩ := h
  exact ⟨e1, e2, e3, e4, ht.trans hs.symm, fun e => by rw [e] at ht; cases ht⟩

/-- Taking an error other than AllocationFailure makes the registers agree, whatever they were (60_exceptions R307). -/
theorem State.takeError_controlInv (u : State) {e : ErrKind} (he : e ≠ .allocationFailure) :
    (u.takeError e).ControlInv := by
  refine ⟨?_, by simp, by simpa using he, by simp, by simp, by simp⟩
  rcases u.takeError_phase_cases e with h | h <;> rw [h] <;> simp [Phase.inDecode, Phase.decoding]

/-- A state that ends a decode as DONE. -/
theorem State.ControlInv.done {s t : State} (hs : s.ControlInv) (hp : s.phase.inDecode = true) (h1 : t.status = .done)
    (h2 : t.err = s.err) (h3 : t.phase = .idle) : t.ControlInv := by
  obtain ⟨hbusy, herr, _⟩ := hs
  have hnone : s.err = none := by simpa [hbusy.mpr hp] using herr
  simp [State.ControlInv, h1, h2, h3, hnone, Phase.inDecode, Phase.decoding]

theorem SymbolReady.sameControl {s u : State} {v : Nat} (h : SymbolReady s u v) : s.SameControl u := by
  refine .inside ?_ (Phase.inDecode_of_decoding (Phase.decoding_of_inCode h.inCode.1))
    (Phase.inDecode_of_decoding (Phase.decoding_of_inCode h.inCode.2))
  rcases h with ⟨_, c, _, rfl⟩ | ⟨_, _, rfl⟩ <;> exact ⟨rfl, rfl, rfl, rfl⟩

theorem Phase.inDecode_parse {p : Phase} (h : p = .parseSym ∨ p = .parseCopy) : p.inDecode = true := by
  rcases h with rfl | rfl <;> rfl

/-- An engine step leaves the control registers as they are, ends the decode, or takes an error. -/
theorem Effect.control {s t : State} (h : Effect s t) :
    s.SameControl t ∨ s.phase.inDecode = true ∧ t.status = .done ∧ t.err = s.err ∧ t.phase = .idle ∨
    ∃ e u, e ≠ .allocationFailure ∧ t = State.takeError e u := by
  cases h with
  | wait => exact .inl ⟨rfl, rfl, rfl, rfl, rfl, id⟩
  | booted T hp => exact .inl ⟨rfl, rfl, rfl, rfl, by rw [hp]; rfl, nofun⟩
  | raised e u hf => exact .inr (.inr ⟨e, u, hf.error.1, rfl⟩)
  | blockDone hp => exact .inr (.inl ⟨by rw [hp]; rfl, rfl, rfl, rfl⟩)
  | tableEmpty hp => exact .inr (.inl ⟨Phase.inDecode_parse hp, rfl, rfl, rfl⟩)
  | checked hp | header hp | blockMore hp | params hp | codeMore hp | codeDone hp | lenExtra hp | distDone hp
  | distExtra hp | copied hp => exact .inl (.inside ⟨rfl, rfl, rfl, rfl⟩ (by rw [hp]; rfl) rfl)
  | distBase hp => exact .inl ⟨rfl, rfl, rfl, rfl, rfl, id⟩
  | counted | cleared | skipped | assigned => exact .inl ⟨rfl, rfl, rfl, rfl, rfl, id⟩
  | built t => cases t <;> exact .inl ⟨rfl, rfl, rfl, rfl, rfl, id⟩
  | tableDone after hp =>
    rcases hp with ⟨hp, rfl, _⟩ | ⟨hp, rfl, _⟩ <;>
      exact .inl (.inside ⟨rfl, rfl, rfl, rfl⟩ (by rw [hp]; rfl) rfl)
  | lit u v hu | lenDone u v hu =>
    obtain ⟨e1, e2, e3, e4, _, _⟩ := hu.sameControl
    exact .inl (.inside ⟨e1, e2, e3, e4⟩ (Phase.inDecode_of_decoding (Phase.decoding_of_inCode hu.inCode.1)) rfl)
  | lenBase u v hu => exact .inl hu.sameControl

theorem Effect.controlInv {s t : State} (h : Effect s t) (hs : s.ControlInv) : t.ControlInv := by
  rcases h.control with h | ⟨hp, h1, h2, h3⟩ | ⟨e, u, he, rfl⟩
  · exact h.controlInv hs
  · exact hs.done hp h1 h2 h3
  · exact u.takeError_controlInv he

/-- After reset the registers agree, whatever the dictionary (10_state R36; 70 R331). -/
theorem resetWith_controlInv (d : List (Int × Nat)) : (State.resetWith d).ControlInv := by
  simp only [State.ControlInv, State.resetWith]
  rcases initBoot_cases d with ⟨T, e, _⟩ | ⟨e', b, e, _, rfl | rfl | rfl⟩ | e <;> rw [e] <;>
    simp [BootResult.status, BootResult.err, BootResult.phase, Phase.inDecode, Phase.decoding]

theorem Move.controlInv {s t : State} (h : Move s t) (hs : s.ControlInv) : t.ControlInv := by
  cases h with
  | engine he => exact he.controlInv hs
  | write hw => cases hw <;> exact hs
  | ignored => exact hs
  | startFails e he => exact s.clearForStart.takeError_controlInv he
  | started => simp [State.ControlInv, Phase.inDecode]
  | reset => exact resetWith_controlInv s.bootDict

/-- Settles O49: every `Move` keeps the control registers in agreement. -/
theorem stepKeepsControl : Obligations.StepKeepsControl := by
  unfold Obligations.StepKeepsControl
  exact fun s t hs h => step_keeps (P := State.ControlInv) (fun _ _ hs => hs) (fun _ _ hs hm => hm.controlInv hs) hs h

end Sys2Proof.Machine

/-!
# The cursor

SUPPORT. Every step keeps the cursor invariant during a decode (O50), and BITPOS neither goes back nor passes the ghost
(O58). Both follow from what an engine step does to the cursor in a decode past CHECK: it moves it by reads of IN only
(`Effect.cursor`).
-/

namespace Sys2Proof.Machine

/-- DECODE of a sound table moves the cursor forward. -/
theorem Table.Ok.decode_to {m : Memory} {T : Table} {c c' : Cursor} {v : Nat} (hT : T.Ok)
    (h : T.decode m c = .ok v c') : Cursor.To m c c' := fun hc => by
  obtain ⟨hi, hl, hb⟩ := (hT.decode_ok h).2.2 hc
  exact ⟨hi, hl, Nat.le_of_lt hb⟩

theorem SymbolReady.cursor {s u : State} {v : Nat} (h : SymbolReady s u v) (ht : s.TablesInv) :
    Cursor.To s.inMem s.bc u.bc := by
  rcases h with ⟨_, c, hd, rfl⟩ | ⟨_, _, rfl⟩
  · exact ht.1.decode_to hd
  · exact .refl _ _

/-- In a decode past CHECK the engine moves the cursor by reads of IN only. -/
theorem Effect.cursor {s t : State} (h : Effect s t) (ht : s.TablesInv) (hp : s.phase.decoding = true) :
    Cursor.To s.inMem s.bc t.bc := by
  obtain ⟨_, hcopy, hboot, _⟩ := id ht
  cases h with
  | raised e u hf => exact hf.cursor ht
  | checked hc => rw [hc] at hp; cases hp
  | header _ c hc | counted _ c hc | params _ c hc | lenExtra _ n _ c hc | distExtra _ n _ c hc => exact hc
  | skipped _ _ _ v c hd | assigned _ _ _ v c hd => exact hboot.decode_to hd
  | distDone _ v c hd | distBase _ v c hd => exact hcopy.decode_to hd
  | lit u v hu | lenDone u v hu | lenBase u v hu => exact hu.cursor ht
  | built t => cases t <;> exact .refl _ _
  | _ => exact .refl _ _

/-- A decode is past CHECK after an engine step only where it was before, or where CHECK initialised the cursor. -/
theorem Effect.decoding {s t : State} (h : Effect s t) (hp : t.phase.decoding = true) :
    s.phase.decoding = true ∨ t.bc = Cursor.init s.argInLen := by
  have parse : s.phase = .parseSym ∨ s.phase = .parseCopy → s.phase.decoding = true := by
    rintro (e | e) <;> rw [e] <;> rfl
  cases h with
  | wait | distBase => exact .inl hp
  | booted | blockDone | tableEmpty => cases hp
  | raised e u =>
    rcases u.takeError_phase_cases e with h | h <;> rw [h] at hp <;> cases hp
  | checked => exact .inr rfl
  | header hq | blockMore hq | params hq | codeMore hq | codeDone hq | lenExtra hq | distDone hq | distExtra hq
  | copied hq => exact .inl (by rw [hq]; rfl)
  | counted hq | cleared hq | skipped hq | assigned hq => exact .inl (parse hq)
  | built t hq => exact .inl (parse (hq.imp And.left And.left))
  | tableDone after hq => exact .inl (parse (hq.imp And.left And.left))
  | lit u v hu | lenDone u v hu | lenBase u v hu => exact .inl (Phase.decoding_of_inCode hu.inCode.1)

theorem Effect.cursorInv {s t : State} (h : Effect s t) (ht : s.TablesInv) (hs : s.CursorInv) : t.CursorInv := by
  intro hp
  obtain ⟨hin, harg⟩ := h.inputs
  rw [hin, harg]
  rcases h.decoding hp with hd | hc
  · obtain ⟨hi, hl⟩ := hs hd
    obtain ⟨hi', hl', _⟩ := h.cursor ht hd hi
    exact ⟨hi', hl'.trans hl⟩
  · rw [hc]
    obtain ⟨hi, _, hl⟩ := Cursor.init_inv s.inMem s.argInLen
    exact ⟨hi, hl⟩

/-- Outside a decode nothing is asked of the cursor. -/
theorem State.CursorInv.of_not_decoding {s : State} (h : s.phase.decoding = false) : s.CursorInv := fun hp => by
  rw [h] at hp; cases hp

theorem resetWith_phase_decoding (d : List (Int × Nat)) : (State.resetWith d).phase.decoding = false := by
  rcases (initBoot d).phase_cases with h | h | h <;> simp only [State.resetWith, h] <;> rfl

theorem Move.cursorInv {s t : State} (h : Move s t) (hc : s.ControlInv) (ht : s.TablesInv) (hs : s.CursorInv) :
    t.CursorInv := by
  cases h with
  | engine he => exact he.cursorInv ht hs
  | write hw hb =>
    have hd : s.phase.decoding = false :=
      Bool.eq_false_iff.mpr fun hp => hb (hc.1.mpr (Phase.inDecode_of_decoding hp))
    cases hw <;> exact .of_not_decoding hd
  | ignored => exact hs
  | startFails e =>
    refine .of_not_decoding ?_
    rcases s.clearForStart.takeError_phase_cases e with h | h <;> rw [h] <;> rfl
  | started => exact .of_not_decoding rfl
  | reset => exact .of_not_decoding (resetWith_phase_decoding s.bootDict)

/-- Settles O50: the cursor invariant is kept by every `Move`, since the engine moves the cursor by reads and the host
writes IN and ARG_IN_LEN outside a decode only. -/
theorem stepKeepsCursor : Obligations.StepKeepsCursor := by
  unfold Obligations.StepKeepsCursor
  intro s t hc ht hs h
  obtain ⟨rest, hm⟩ := step_move h
  exact hm.cursorInv hc ht hs

/-- Settles O58: the cursor after an engine step meets the invariant, which bounds BITPOS, and has not gone back. -/
theorem bitposNeverDecreases : Obligations.BitposNeverDecreases := by
  unfold Obligations.BitposNeverDecreases
  intro s t _ ht hs hh hp h
  obtain ⟨hi, hl, hb⟩ := (step_effect hh h).cursor ht hp (hs hp).1
  have hlim := hi.bitpos_le_limit
  rw [Cursor.limit, hl] at hlim
  exact ⟨hb, (Nat.le_add_right _ _).trans hlim⟩

end Sys2Proof.Machine

/-!
# The ranges

SUPPORT. Every step keeps every register in its range (O52). `State.InRange` is `State.RangeInv` with its parts named, so
that each case of an engine step says which ranges it has to show again.
-/

namespace Sys2Proof.Machine

/-- `State.RangeInv`, part by part (10_state R24). -/
structure State.InRange (s : State) : Prop where
  declared : s.declared < 2 ^ 32
  target : s.target < 2 ^ 32
  outPos : s.outPos ≤ s.target
  header : s.phase = .header → s.outPos = 0
  wsb : s.wsb ≤ 16
  codesLeft : s.codesLeft ≤ 65536
  tpN : s.tpN ≤ 65535
  tpRemLow : -9 ≤ s.tpRem
  tpRemHigh : s.tpRem ≤ 284
  clear : s.seq = .clear → s.tpN ≤ 285
  cpSym : s.cpSym ≤ 284
  length : s.length ≤ 255
  cpLen : s.cpLen ≤ 271
  distance : s.distance ≤ 131071
  cpDist : s.cpDist ≤ 131072

theorem rangeInv_iff (s : State) : s.RangeInv ↔ s.InRange :=
  ⟨fun ⟨a, b, c, d, e, f, g, h, i, j, k, l, m, n, o⟩ => ⟨a, b, c, d, e, f, g, h, i, j, k, l, m, n, o⟩,
    fun ⟨a, b, c, d, e, f, g, h, i, j, k, l, m, n, o⟩ => ⟨a, b, c, d, e, f, g, h, i, j, k, l, m, n, o⟩⟩

/-- An extra field set in a length keeps it below 256 (30_encoding R99). -/
theorem length_or_le {l x : Nat} {n : Fin 5} (hl : l ≤ 255) (hx : x < 2 ^ (n.val + 1)) : l ||| x ≤ 255 := by
  have h8 : x < 2 ^ 8 := lt_of_lt_of_le hx (Nat.pow_le_pow_right (by omega) (by omega))
  exact Nat.le_of_lt_succ (Nat.or_lt_two_pow (n := 8) (by omega) h8)

/-- An extra field set in a distance keeps it below `2^17` (30_encoding R100). -/
theorem distance_or_le {d x : Nat} (hd : d ≤ 131071) (hx : x < 2 ^ 15) : d ||| x ≤ 131071 :=
  Nat.le_of_lt_succ (Nat.or_lt_two_pow (n := 17) (by omega) (by omega))

/-- The target is no larger than the declared size (45_block_decoder R213). -/
theorem targetOf_lt {declared : Nat} (h : declared < 2 ^ 32) (hint : Word) : targetOf declared hint < 2 ^ 32 := by
  simp only [targetOf]; split <;> omega

theorem SymbolReady.inRange {s u : State} {v : Nat} (h : SymbolReady s u v) (ht : s.TablesInv) (hs : s.InRange) :
    u.InRange := by
  have hno : u.phase = .header → u.outPos = 0 := fun e => by rcases h.phase with h | h <;> rw [h] at e <;> cases e
  rcases h with ⟨_, c, hd, rfl⟩ | ⟨_, _, rfl⟩
  · exact { hs with
      header := hno
      codesLeft := (Nat.sub_le _ _).trans hs.codesLeft
      clear := nofun
      cpSym := Nat.le_of_lt_succ (ht.1.decode_ok hd).1 }
  · exact hs

/-- Taking an error keeps the ranges of the state in which it is taken. -/
theorem State.InRange.takeError {u : State} (hu : u.InRange) (e : ErrKind) : (u.takeError e).InRange :=
  { hu with header := fun h => by rcases u.takeError_phase_cases e with h' | h' <;> rw [h'] at h <;> cases h }

/-- The length and `cp_len` (46_copy_instructions R250). -/
theorem State.InRange.setLength {u : State} (hu : u.InRange) {L : Nat} (hL : L ≤ 255) : (u.setLength L).InRange :=
  { hu with
    header := nofun, clear := nofun, length := hL
    cpLen := Nat.add_le_add hL hu.wsb }

/-- The registers of the state in which an engine step takes an error. -/
theorem Fails.inRange {s u : State} {e : ErrKind} (h : Fails s e u) (ht : s.TablesInv) (hs : s.InRange) :
    (u.takeError e).InRange := by
  obtain ⟨_, _, _, _, htarget, houtPos, hlength, hcpLen, _⟩ := h.frame
  have hdist : u.distance ≤ 131071 ∧ u.cpDist ≤ 131072 := by
    rcases h.distance with ⟨e1, e2⟩ | ⟨e2, h3 | ⟨x, hx, e1⟩⟩
    · exact ⟨e1 ▸ hs.distance, e2 ▸ hs.cpDist⟩
    · omega
    · have := distance_or_le hs.distance hx; omega
  exact {
    declared := h.declared.elim (· ▸ hs.declared) id
    target := htarget ▸ hs.target
    outPos := by rw [State.takeError_outPos, State.takeError_target, houtPos, htarget]; exact hs.outPos
    header := fun h => by rcases u.takeError_phase_cases e with h' | h' <;> rw [h'] at h <;> cases h
    wsb := h.wsb.elim (· ▸ hs.wsb) id
    codesLeft := h.codesLeft.trans hs.codesLeft
    tpN := h.tpN.elim (· ▸ hs.tpN) id
    tpRemLow := h.tpRem.elim (· ▸ hs.tpRemLow) And.left
    tpRemHigh := h.tpRem.elim (· ▸ hs.tpRemHigh) fun hr => hr.2.trans hs.tpRemHigh
    clear := fun hq => (h.seq hq).2 ▸ hs.clear (h.seq hq).1
    cpSym := h.cpSym.elim (· ▸ hs.cpSym) fun hc => hc ht
    length := hlength ▸ hs.length
    cpLen := hcpLen ▸ hs.cpLen
    distance := hdist.1
    cpDist := hdist.2 }

theorem Effect.inRange {s t : State} (h : Effect s t) (ht : s.TablesInv) (hs : s.InRange) : t.InRange := by
  cases h with
  | wait => exact hs
  | booted | codeMore | codeDone | blockDone | tableEmpty => exact { hs with header := nofun }
  | raised e u hf => exact hf.inRange ht hs
  | checked => exact { hs with header := fun _ => rfl, outPos := Nat.zero_le _ }
  | header hp c _ size =>
    exact { hs with
      header := nofun, declared := size.isLt, target := targetOf_lt size.isLt _
      outPos := by simp only [hs.header hp]; exact Nat.zero_le _ }
  | blockMore => exact { hs with header := nofun, clear := nofun }
  | counted _ c _ n hn => exact { hs with tpN := by simp only; omega, clear := fun _ => hn }
  | cleared _ hq =>
    have hn := hs.clear hq
    exact { hs with tpRemLow := by simp only; omega, tpRemHigh := by simp only; omega, clear := nofun }
  | skipped _ _ h0 _ _ _ rep _ h9 | assigned _ _ h0 _ _ _ rep _ h9 =>
    have hhigh := hs.tpRemHigh
    exact { hs with tpRemLow := by simp only; omega, tpRemHigh := by simp only; omega }
  | built t => cases t <;> exact { hs with clear := nofun }
  | tableDone after hp =>
    exact { hs with
      clear := nofun
      header := fun e => by rcases hp with ⟨_, rfl, _⟩ | ⟨_, rfl, _⟩ <;> cases e }
  | params _ c _ sv m =>
    have hsv := sv.isLt
    have hm := m.isLt
    exact { hs with header := nofun, wsb := by simp only; omega, codesLeft := by simp only; omega }
  | lit u v hu _ hp => exact { hu.inRange ht hs with header := nofun, outPos := hp }
  | lenDone u v hu _ L hL => exact (hu.inRange ht hs).setLength hL
  | lenBase u v hu _ B hB n =>
    exact { hu.inRange ht hs with clear := nofun, length := hB.trans (by omega) }
  | lenExtra _ n _ c _ x hx =>
    exact State.InRange.setLength (u := { s with bc := c }) { hs with } (length_or_le hs.length hx)
  | distDone _ v c _ D hD =>
    exact { hs with
      header := nofun, clear := nofun, distance := by simp only; omega, cpDist := by simp only; omega }
  | distBase _ v c _ B hB n => exact { hs with clear := nofun, distance := hB.trans (by omega) }
  | distExtra _ n _ c _ x hx =>
    have hx15 : x < 2 ^ 15 := lt_of_lt_of_le hx (Nat.pow_le_pow_right (by omega) (by omega))
    have hd := distance_or_le hs.distance hx15
    exact { hs with header := nofun, clear := nofun, distance := hd, cpDist := Nat.succ_le_succ hd }
  | copied _ m p _ _ h2 => exact { hs with header := nofun, outPos := h2.elim id (· ▸ hs.outPos) }

/-- After reset every register is in its range, whatever the dictionary (10_state R36). -/
theorem resetWith_inRange (d : List (Int × Nat)) : (State.resetWith d).InRange := by
  constructor <;> simp [State.resetWith]

theorem Move.inRange {s t : State} (h : Move s t) (ht : s.TablesInv) (hs : s.InRange) : t.InRange := by
  cases h with
  | engine he => exact he.inRange ht hs
  | write hw => cases hw <;> exact { hs with }
  | ignored => exact hs
  | startFails e => exact State.InRange.takeError (u := s.clearForStart) { hs with } e
  | started => exact { hs with header := nofun, clear := nofun }
  | reset => exact { resetWith_inRange s.bootDict with }

/-- Settles O52: every `Move` from a state with sound tables keeps the ranges. -/
theorem stepKeepsRanges : Obligations.StepKeepsRanges := by
  unfold Obligations.StepKeepsRanges
  intro s t ht hs h
  obtain ⟨rest, hm⟩ := step_move h
  exact (rangeInv_iff t).mpr (hm.inRange ht { (rangeInv_iff s).mp hs with })

end Sys2Proof.Machine

/-!
# Sound states

SUPPORT. Every step keeps what each phase relies on, and with the invariants of the parts above a sound state stays
sound (O53); the state after reset is sound (O47). `State.Flows` is `State.FlowInv` with its parts named.
-/

namespace Sys2Proof.Machine

/-- `State.FlowInv`, part by part (45_block_decoder R215, R218; 46_copy_instructions R271). -/
structure State.Flows (s : State) : Prop where
  room : s.phase.inCode = true → s.outPos < s.target
  code : s.phase = .symbol → 0 < s.codesLeft
  copy : s.phase = .copyRun → 1 ≤ s.cpDist ∧ s.cpDist ≤ s.outPos
  symT : (s.phase.inCode = true ∨ s.phase = .parseCopy ∨ s.phase = .blockParams ∨ s.phase = .codeTest) →
    s.symT.empty = false
  copyT : (s.phase.inCode = true ∨ s.phase = .blockParams ∨ s.phase = .codeTest) → s.copyT.empty = false
  runs : (s.phase = .parseSym ∨ s.phase = .parseCopy) → s.seq = .runs → s.builder.Above s.tpRem
  literal : s.phase = .literal → s.cpSym < 256
  copyLen : s.phase = .copyLen → 256 ≤ s.cpSym

theorem flowInv_iff (s : State) : s.FlowInv ↔ s.Flows :=
  ⟨fun ⟨a, b, c, d, e, f, g, h⟩ => ⟨a, b, c, d, e, f, g, h⟩,
    fun ⟨a, b, c, d, e, f, g, h⟩ => ⟨a, b, c, d, e, f, g, h⟩⟩

/-! ## What each phase asks -/

/-- A phase that relies on nothing: outside the table parses, the block parameters and the code loop. -/
def Phase.quiet : Phase → Bool
  | .resetInit | .idle | .check | .failed | .header | .blockTest => true
  | .parseSym | .parseCopy | .blockParams | .codeTest | .symbol | .literal | .copyLen | .copyDist | .copyRun => false

theorem Phase.not_inCode_of_quiet {p : Phase} (h : p.quiet = true) : p.inCode = false := by
  cases p <;> first | rfl | cases h

theorem State.Flows.of_quiet {s : State} (h : s.phase.quiet = true) : s.Flows := by
  have hne : ∀ {p : Phase}, p.quiet = false → s.phase ≠ p := fun hp e => by rw [e, hp] at h; cases h
  have hcode : s.phase.inCode ≠ true := by rw [Phase.not_inCode_of_quiet h]; simp
  exact {
    room := fun e => absurd e hcode
    code := fun e => absurd e (hne rfl)
    copy := fun e => absurd e (hne rfl)
    symT := fun e => absurd e (not_or.mpr ⟨hcode, not_or.mpr ⟨hne rfl, not_or.mpr ⟨hne rfl, hne rfl⟩⟩⟩)
    copyT := fun e => absurd e (not_or.mpr ⟨hcode, not_or.mpr ⟨hne rfl, hne rfl⟩⟩)
    runs := fun e => absurd e (not_or.mpr ⟨hne rfl, hne rfl⟩)
    literal := fun e => absurd e (hne rfl)
    copyLen := fun e => absurd e (hne rfl) }

theorem State.Flows.of_takeError (u : State) (e : ErrKind) : (u.takeError e).Flows := by
  refine .of_quiet ?_
  rcases u.takeError_phase_cases e with h | h <;> rw [h] <;> rfl

/-- A table parse asks, outside its runs, for the tables parsed before it. -/
theorem State.Flows.of_parse {s : State} (h : s.phase = .parseSym ∨ s.phase = .parseCopy ∧ s.symT.empty = false)
    (hq : s.seq ≠ .runs) : s.Flows := by
  constructor <;> rcases h with h | ⟨h, hsym⟩ <;> simp [h, hq, Phase.inCode]
  exact hsym

/-- The block parameters and the code loop's test ask for two tables with codes. -/
theorem State.Flows.of_block {s : State} (h : s.phase = .blockParams ∨ s.phase = .codeTest)
    (hsym : s.symT.empty = false) (hcopy : s.copyT.empty = false) : s.Flows := by
  constructor <;> rcases h with h | h <;> simp [h, hsym, hcopy, Phase.inCode]

/-- Inside the code loop a state asks for room and two tables with codes, and for what its own phase adds. -/
theorem State.Flows.of_inCode {s : State} (h : s.phase.inCode = true) (room : s.outPos < s.target)
    (hsym : s.symT.empty = false) (hcopy : s.copyT.empty = false) (code : s.phase = .symbol → 0 < s.codesLeft)
    (copy : s.phase = .copyRun → 1 ≤ s.cpDist ∧ s.cpDist ≤ s.outPos) (literal : s.phase = .literal → s.cpSym < 256)
    (copyLen : s.phase = .copyLen → 256 ≤ s.cpSym) : s.Flows where
  room _ := room
  code := code
  copy := copy
  symT _ := hsym
  copyT _ := hcopy
  runs hp := by rcases hp with hp | hp <;> rw [hp] at h <;> cases h
  literal := literal
  copyLen := copyLen

/-- What a state inside the code loop has. -/
theorem State.Flows.inCode {s : State} (hs : s.Flows) (h : s.phase.inCode = true) :
    s.outPos < s.target ∧ s.symT.empty = false ∧ s.copyT.empty = false :=
  ⟨hs.room h, hs.symT (.inl h), hs.copyT (.inl h)⟩

/-! ## The steps -/

theorem Builder.Above.mono {b : Builder} {r r' : Int} (h : b.Above r) (hr : r' ≤ r) : b.Above r' :=
  fun l hl x hx => lt_of_le_of_lt hr (h l hl x hx)

theorem Builder.cleared_above (r : Int) : Builder.cleared.Above r := fun l hl x hx => by
  simp only [Builder.cleared, List.mem_replicate] at hl
  simp [hl.2] at hx

theorem SymbolReady.flows {s u : State} {v : Nat} (h : SymbolReady s u v) (hs : s.Flows) : u.Flows := by
  obtain ⟨hroom, hsym, hcopy⟩ := hs.inCode h.inCode.1
  have hu := h.inCode.2
  have hp := h.phase
  rcases h with ⟨_, c, _, rfl⟩ | ⟨_, _, rfl⟩
  · refine .of_inCode hu hroom hsym hcopy (fun e => ?_) (fun e => ?_) (fun e => ?_) fun e => ?_
    · rcases hp with hp | hp <;> rw [hp] at e <;> cases e
    · rcases hp with hp | hp <;> rw [hp] at e <;> cases e
    · by_contra hv
      simp [hv] at e
    · by_contra hv
      simp [Nat.lt_of_not_le hv] at e
  · exact hs

/-- A length known in full leads to COPY_DIST (45_block_decoder R225). -/
theorem State.Flows.setLength {u : State} (hu : u.Flows) (h : u.phase.inCode = true) (L : Nat) :
    (u.setLength L).Flows := by
  obtain ⟨hroom, hsym, hcopy⟩ := hu.inCode h
  exact .of_inCode rfl hroom hsym hcopy nofun nofun nofun nofun

/-- A distance in range leads to COPY_RUN (46_copy_instructions R271). -/
theorem State.Flows.toCopyRun {s : State} (hs : s.Flows) (h : s.phase = .copyDist) (c : Cursor) {D : Nat}
    (hr : D + 1 ≤ s.outPos) :
    State.Flows { s with bc := c, distance := D, cpDist := D + 1, phase := .copyRun, seq := .start } := by
  obtain ⟨hroom, hsym, hcopy⟩ := hs.inCode (by rw [h]; rfl)
  exact .of_inCode rfl hroom hsym hcopy nofun (fun _ => ⟨Nat.le_add_left _ _, hr⟩) nofun nofun

theorem Effect.flows {s t : State} (h : Effect s t) (hs : s.Flows) : t.Flows := by
  cases h with
  | wait => exact hs
  | raised e u => exact .of_takeError u e
  | booted | checked | header | blockDone | tableEmpty | codeDone => exact .of_quiet rfl
  | blockMore => exact .of_parse (.inl rfl) nofun
  | counted => exact { hs with runs := nofun }
  | cleared => exact { hs with runs := fun _ _ => Builder.cleared_above _ }
  | skipped => exact { hs with runs := fun hp hq => (hs.runs hp hq).mono (by simp only; omega) }
  | assigned _ _ _ v c _ rep _ _ b _ ha => exact { hs with runs := fun hp hq => ha (hs.runs hp hq) }
  | built t hp =>
    rcases hp with ⟨hp, rfl⟩ | ⟨hp, rfl⟩
    · exact { hs with symT := by simp [hp, Phase.inCode], runs := nofun }
    · exact { hs with copyT := by simp [hp, Phase.inCode], runs := nofun }
  | tableDone after hp =>
    rcases hp with ⟨hp, rfl, hsym⟩ | ⟨hp, rfl, hcopy⟩
    · exact .of_parse (.inr ⟨rfl, hsym⟩) nofun
    · exact .of_block (.inl rfl) (hs.symT (.inr (.inl hp))) hcopy
  | params hp => exact .of_block (.inr rfl) (hs.symT (.inr (.inr (.inl hp)))) (hs.copyT (.inr (.inl hp)))
  | codeMore hp h1 h2 =>
    exact .of_inCode rfl h2 (hs.symT (.inr (.inr (.inr hp)))) (hs.copyT (.inr (.inr hp))) (fun _ => h1) nofun nofun
      nofun
  | lit u v hu =>
    obtain ⟨_, hsym, hcopy⟩ := (hu.flows hs).inCode hu.inCode.2
    exact .of_block (.inr rfl) hsym hcopy
  | lenDone u v hu _ L => exact (hu.flows hs).setLength hu.inCode.2 L
  | lenBase u v hu => exact { hu.flows hs with runs := nofun }
  | lenExtra hp _ _ c => exact State.Flows.setLength (u := { s with bc := c }) { hs with } (by simp only [hp]; rfl) _
  | distDone hp v c _ D _ hr => exact hs.toCopyRun hp c hr
  | distBase => exact { hs with runs := nofun }
  | distExtra hp n _ c _ x _ hr => exact hs.toCopyRun hp c hr
  | copied hp =>
    obtain ⟨_, hsym, hcopy⟩ := hs.inCode (by rw [hp]; rfl)
    exact .of_block (.inr rfl) hsym hcopy

theorem resetWith_flows (d : List (Int × Nat)) : (State.resetWith d).Flows := by
  refine .of_quiet ?_
  rcases (initBoot d).phase_cases with h | h | h <;> simp only [State.resetWith, h] <;> rfl

theorem Move.flows {s t : State} (h : Move s t) (hs : s.Flows) : t.Flows := by
  cases h with
  | engine he => exact he.flows hs
  | write hw => cases hw <;> exact { hs with }
  | ignored => exact hs
  | startFails e => exact .of_takeError s.clearForStart e
  | started => exact .of_quiet rfl
  | reset => exact { resetWith_flows s.bootDict with }

/-! ## Sound states -/

theorem Move.inv {s t : State} (h : Move s t) (hs : s.Inv) : t.Inv := by
  obtain ⟨hmem, hcontrol, hcursor, htables, hrange, hflow⟩ := hs
  exact ⟨h.memoryInv hmem, h.controlInv hcontrol, h.cursorInv hcontrol htables hcursor, h.tablesInv htables,
    (rangeInv_iff t).mpr (h.inRange htables ((rangeInv_iff s).mp hrange)),
    (flowInv_iff t).mpr (h.flows ((flowInv_iff s).mp hflow))⟩

/-- Settles O53: every `Move` keeps each part of the invariant. -/
theorem stepKeepsSoundness : Obligations.StepKeepsSoundness := by
  unfold Obligations.StepKeepsSoundness
  exact fun s t hs h => step_keeps (P := State.Inv) (fun _ _ hs => hs) (fun _ _ hs hm => hm.inv hs) hs h

/-- Settles O47: each part of the invariant holds after reset, whatever INIT_BOOT makes of the dictionary. -/
theorem resetStateIsSound : Obligations.ResetStateIsSound := by
  unfold Obligations.ResetStateIsSound
  exact fun d => ⟨⟨Memory.nil_wf, Memory.nil_wf⟩, resetWith_controlInv d,
    .of_not_decoding (resetWith_phase_decoding d), resetWith_tablesInv d,
    (rangeInv_iff _).mpr (resetWith_inRange d), (flowInv_iff _).mpr (resetWith_flows d)⟩

end Sys2Proof.Machine

/-!
# The host and RESET

SUPPORT. The host's actions at the step (O9), and RESET with a good dictionary (O25).
-/

namespace Sys2Proof.Machine

/-! ## The host's actions -/

/-- A host write is refused while BUSY and otherwise made (20_memory R75). -/
theorem step_hostWrite {s t : State} {rest : List HostCmd} (h : next s = hostWrite { s with host := rest } t) :
    step s = if s.status = .busy then .refused .hostWriteWhileBusy else .next t := by
  by_cases hb : s.status = .busy <;> simp [step, h, hostWrite, State.hostMayWrite, State.isBusy, hb]

/-- The oldest action is taken, with the others left. -/
theorem next_host {s : State} {a : HostCmd} {rest : List HostCmd} (h : s.host = a :: rest) :
    next s = hostNext a { s with host := rest } := by simp only [next, h]

/-- Settles O9: the writes by `step_hostWrite`, the commands by what they run, and a tick by `step_tick_rest`. -/
theorem hostActionsAtTheStep : Obligations.HostActionsAtTheStep := by
  unfold Obligations.HostActionsAtTheStep
  intro s rest v b x d
  refine ⟨fun h => step_hostWrite (next_host h), fun h => step_hostWrite (next_host h),
    fun h => step_hostWrite (next_host h), fun h => step_hostWrite (next_host h),
    fun h => step_hostWrite (next_host h), fun h => step_hostWrite (next_host h),
    fun h => ?_, fun h => ?_, fun h => ?_, fun h => ?_⟩
  · rw [step, next_host h]; rfl
  · rw [step, next_host h]; rfl
  · rw [step, next_host h]; rfl
  · refine ⟨fun t ht => ?_, fun f hf => ?_, fun r hr => ?_⟩
    · rw [step_tick_rest h, ht]; rfl
    · rw [step_tick_rest h, hf]; rfl
    · rw [step_tick_rest h, hr]; rfl

/-! ## RESET -/

/-- INIT_BOOT succeeds with a dictionary that meets 43_bootstrap_dictionary R181: every pair is added, and the Kraft sum
of the builder is the dictionary's. -/
theorem initBoot_of_dictOk {d : List (Int × Nat)} (h : DictOk d) : ∃ T, initBoot d = .ok T := by
  obtain ⟨hpairs, hnodup, hkraft⟩ := h
  have hfresh : ∀ p ∈ d, ∀ l ∈ Builder.cleared.lists, p.1.toNat ∉ l := fun p _ l hl hx => by
    have := Builder.cleared_above p.1.toNat l hl _ hx
    omega
  obtain ⟨b, _, hadd, hlist, _⟩ := Builder.addAll_good d Builder.cleared_ok.1 hpairs hnodup hfresh
  have hsum : b.kraft 32 ≤ 2 ^ 32 := by
    have hlists L := (hlist L).trans (by rw [Builder.cleared_list, List.nil_append])
    rw [Builder.kraft_of_pairs hlists fun p hp => (hpairs p hp).1]
    exact hkraft
  refine ⟨b.table, ?_⟩
  have hall := hadd []
  rw [List.append_nil] at hall
  rw [initBoot, hall, Builder.addAll, Builder.bootBuild, Builder.build_eq_some.mpr ⟨hsum, rfl⟩]

/-- RESET where INIT_BOOT succeeds. -/
theorem exec_reset_of_ok {s : State} {T : Table} (h : initBoot s.bootDict = .ok T) :
    exec .reset s =
      .next { State.resetWith s.bootDict with inMem := s.inMem, outMem := s.outMem, host := s.host } := by
  simp only [exec, execReset, h]

/-- Settles O25: INIT_BOOT succeeds, so the next state is that of `State.resetWith`, whose registers R36 lists. -/
theorem resetLeavesIdle : Obligations.ResetLeavesIdle := by
  unfold Obligations.ResetLeavesIdle
  intro s hd
  obtain ⟨T, hT⟩ := initBoot_of_dictOk hd
  refine ⟨_, exec_reset_of_ok hT, ?_⟩
  simp only [State.resetWith, hT, BootResult.status, BootResult.err, BootResult.phase, BootResult.table,
    BootResult.builder, Builder.cleared, Cursor.zero, and_self]

end Sys2Proof.Machine

/-!
# Stops and the memory's frame

SUPPORT. A step keeps the memories canonical (O48) and stops a sound state in two ways only (O54); the engine leaves
what the host gives it as it is (O57), and writes OUT between the old and the new `out_pos` only (O56).
-/

namespace Sys2Proof.Machine

/-! ## Where a sound state stops -/

/-- An outcome that is no fault, and a refusal only of a host write while BUSY or of a dictionary `d` that repeats a
symbol (20_memory R75; 42_table_builder R163). -/
def StopsByHostOnly (d : List (Int × Nat)) (o : Host.Outcome State Fault Refusal) : Prop :=
  (∀ f, o ≠ .fault f) ∧
    ∀ r, o = .refused r → r = .hostWriteWhileBusy ∨ r = .duplicateSymbol ∧ initBoot d = .duplicate

theorem StopsByHostOnly.next (d : List (Int × Nat)) (t : State) : StopsByHostOnly d (.next t) := ⟨nofun, nofun⟩

theorem StopsByHostOnly.busy (d : List (Int × Nat)) : StopsByHostOnly d (.refused .hostWriteWhileBusy) :=
  ⟨nofun, fun r e => by cases e; exact .inl rfl⟩

theorem StopsByHostOnly.duplicate {d : List (Int × Nat)} (h : initBoot d = .duplicate) :
    StopsByHostOnly d (.refused .duplicateSymbol) :=
  ⟨nofun, fun r e => by cases e; exact .inr ⟨rfl, h⟩⟩

/-- START always answers a next state (45_block_decoder R210, R227). -/
theorem exec_start_next (s : State) : ∃ t, exec .start s = .next t := by
  simp only [exec, execStart]
  split
  · split
    · exact ⟨_, rfl⟩
    · split <;> exact ⟨_, rfl⟩
  · exact ⟨_, rfl⟩

/-- RESET stops on a dictionary that repeats a symbol only (70 R330; log entry 8). -/
theorem exec_reset_stops (s : State) : StopsByHostOnly s.bootDict (exec .reset s) := by
  simp only [exec, execReset]
  cases h : initBoot s.bootDict with
  | ok | raise => exact .next _ _
  | duplicate => exact .duplicate h

/-- The engine faults in no sound state: inside the code loop there is room for a byte (45_block_decoder R218), and a
copy reaches back into what is written (46_copy_instructions R271). -/
theorem Stops.not_fault {s : State} {o : Host.Outcome State Fault Refusal} (h : Stops s o) (hs : s.Flows) (f : Fault) :
    o ≠ .fault f := fun e => by
  rcases h.fault f e with ⟨_, u, v, hu, _, hfull⟩ | ⟨_, hp, hback⟩
  · exact absurd (hs.room hu.inCode.1) (Nat.not_lt.mpr hfull)
  · exact absurd (hs.copy hp).2 (Nat.not_le.mpr hback)

/-- From a sound state the engine stops in RESET_INIT only: a run's slots are not yet in the builder (44_table_parsing
R193), and every decoded number is a symbol (10_state R28). -/
theorem Stops.of_inv {s : State} {o : Host.Outcome State Fault Refusal} (h : Stops s o) (hs : s.Inv) :
    StopsByHostOnly s.bootDict o := by
  obtain ⟨_, _, _, htables, hrange, hflow⟩ := hs
  have hflows := (flowInv_iff s).mp hflow
  have hsym : s.cpSym ≤ 284 := ((rangeInv_iff s).mp hrange).cpSym
  refine ⟨h.not_fault hflows, fun r e => ?_⟩
  rcases h.refused r e with ⟨rfl, ⟨_, hd⟩ | ⟨hp, hq, hnot⟩⟩ | ⟨v, _, hnot | hlarge⟩
  · exact .inr ⟨rfl, hd⟩
  · exact absurd (hflows.runs hp hq) hnot
  · exact absurd htables hnot
  · omega

/-- Settles O54: the engine's stops by `Stops.of_inv`, the host's actions one by one. -/
theorem soundStepsNeverStop : Obligations.SoundStepsNeverStop := by
  unfold Obligations.SoundStepsNeverStop
  intro s hs
  change StopsByHostOnly s.bootDict (step s)
  cases hh : s.host with
  | nil => rw [step_engine hh]; exact (engineStep_spec s).2.of_inv hs
  | cons a rest =>
    obtain ⟨u, rfl, ⟨e, _⟩ | ⟨t, e, _⟩ | e | e | e | e⟩ := step_host hh <;> rw [e]
    · exact .busy _
    · exact .next _ t
    · exact .next _ _
    · obtain ⟨t, ht⟩ := exec_start_next { s with host := rest }
      rw [ht]; exact .next _ t
    · exact exec_reset_stops { s with host := rest }
    · exact (engineStep_spec { s with host := rest }).2.of_inv (s := { s with host := rest }) hs

/-! ## The memories -/

/-- Settles O48: every `Move` keeps both memories canonical. -/
theorem stepKeepsMemoryCanonical : Obligations.StepKeepsMemoryCanonical := by
  unfold Obligations.StepKeepsMemoryCanonical
  exact fun s t hs h => step_keeps (P := State.MemoryInv) (fun _ _ hs => hs) (fun _ _ hs hm => hm.memoryInv hs) hs h

/-! ## What the engine leaves alone -/

/-- Two states with the same IN, arguments, BOOT_DICT and host actions (20_memory R60, R73; 10_state R26). -/
def State.SameGiven (s t : State) : Prop :=
  t.inMem = s.inMem ∧ t.argInLen = s.argInLen ∧ t.argOutHint = s.argOutHint ∧ t.argOutPresent = s.argOutPresent ∧
  t.bootDict = s.bootDict ∧ t.host = s.host

theorem State.SameGiven.refl (s : State) : s.SameGiven s := ⟨rfl, rfl, rfl, rfl, rfl, rfl⟩

theorem Fails.sameGiven {s u : State} {e : ErrKind} (h : Fails s e u) : s.SameGiven u := by
  obtain ⟨hlen, hhint, hpresent⟩ := h.args
  obtain ⟨hdict, hhost, _⟩ := h.frame
  exact ⟨h.inMem, hlen, hhint, hpresent, hdict, hhost⟩

/-- Getting a symbol ready leaves OUT and `out_pos`, what is given and BOOT_T as they are. -/
theorem SymbolReady.frame {s u : State} {v : Nat} (h : SymbolReady s u v) :
    s.SameGiven u ∧ u.bootT = s.bootT ∧ u.outMem = s.outMem ∧ u.outPos = s.outPos ∧ u.target = s.target := by
  rcases h with ⟨_, c, _, rfl⟩ | ⟨_, _, rfl⟩ <;> exact ⟨.refl _, rfl, rfl, rfl, rfl⟩

theorem Effect.sameGiven {s t : State} (h : Effect s t) : s.SameGiven t := by
  cases h with
  | raised e u hf => exact hf.sameGiven
  | built t => cases t <;> exact .refl s
  | lit u v hu | lenDone u v hu | lenBase u v hu => exact hu.frame.1
  | _ => exact .refl s

/-- The engine writes BOOT_T in RESET_INIT only (43_bootstrap_dictionary R184). -/
theorem Effect.bootT_eq {s t : State} (h : Effect s t) (hp : s.phase ≠ .resetInit) : t.bootT = s.bootT := by
  cases h with
  | booted T hr => exact absurd hr hp
  | raised e u hf => exact hf.tables.2.2
  | built t => cases t <;> rfl
  | lit u v hu | lenDone u v hu | lenBase u v hu => exact hu.frame.2.1
  | _ => rfl

/-- Settles O57: every `Effect` keeps what the core is given, and BOOT_T outside RESET_INIT. -/
theorem engineLeavesInputsAlone : Obligations.EngineLeavesInputsAlone := by
  unfold Obligations.EngineLeavesInputsAlone
  intro s t hh h
  have he := step_effect hh h
  obtain ⟨hin, hlen, hhint, hpresent, hdict, hhost⟩ := he.sameGiven
  exact ⟨hin, hlen, hhint, hpresent, hdict, hhost.trans hh, he.bootT_eq⟩

/-! ## What the engine writes of OUT -/

/-- Only LIT and COPY_RUN write OUT, from `out_pos` on (45_block_decoder R220; 46_copy_instructions R272): `out_pos`
advances past the last byte written and stays within `target` where it advances at all. -/
theorem Effect.outMem_frame {s t : State} (h : Effect s t) :
    t.outMem = s.outMem ∨
    (t.outPos ≤ s.target ∨ t.outPos = s.outPos) ∧
      ∀ a, (a < s.outPos ∨ t.outPos ≤ a) → t.outMem.read a = s.outMem.read a := by
  cases h with
  | raised e u hf => exact .inl hf.outMem
  | built t => cases t <;> exact .inl rfl
  | lenDone u v hu | lenBase u v hu => exact .inl hu.frame.2.2.1
  | lit u v hu _ hp =>
    obtain ⟨_, _, hmem, hpos, htarget⟩ := hu.frame
    simp only [hmem, hpos, htarget] at hp ⊢
    exact .inr ⟨.inl hp, fun a ha => Memory.read_write_other _ _ _ _ (by omega)⟩
  | copied _ m p _ _ hp hm => exact .inr ⟨hp, hm⟩
  | _ => exact .inl rfl

/-- Settles O56: a byte that differs is one of those that `Effect.outMem_frame` leaves open. -/
theorem engineWritesOnlyNewOutput : Obligations.EngineWritesOnlyNewOutput := by
  unfold Obligations.EngineWritesOnlyNewOutput
  intro s t a hh h hne
  rcases (step_effect hh h).outMem_frame with hsame | ⟨hpos, hframe⟩
  · exact absurd (by rw [hsame]) hne
  · have hnew : ¬ (a < s.outPos ∨ t.outPos ≤ a) := fun ha => hne (hframe a ha)
    omega

end Sys2Proof.Machine

/-!
# The encoding

SUPPORT. A value and its instruction, each way: `decodeValue_reads` says what a value decodes to, row by row, and
`decodeValue_value` that an instruction's value decodes to it. With the bits of a value these give the round trips
(O1 to O3).
-/

namespace Sys2Proof

/-! ## Rows by `match` and `mask` -/

/-- A mask of all but the low `k` bits keeps the multiple of `2^k` at or below a word. -/
theorem toNat_and_highMask {w : Nat} (x : BitVec w) (k : Nat) :
    (x &&& BitVec.allOnes w <<< k).toNat = x.toNat / 2 ^ k * 2 ^ k := by
  have hshift : x &&& BitVec.allOnes w <<< k = (x >>> k) <<< k := by
    ext i hi
    by_cases hk : i < k
    · simp [hk]
    · have hi' : k + (i - k) = i := by omega
      simp [hk, hi', hi]
  have hle : x.toNat / 2 ^ k * 2 ^ k ≤ x.toNat := Nat.div_mul_le_self _ _
  rw [hshift, BitVec.toNat_shiftLeft, BitVec.toNat_ushiftRight, Nat.shiftLeft_eq, Nat.shiftRight_eq_div_pow,
    Nat.mod_eq_of_lt (Nat.lt_of_le_of_lt hle x.isLt)]

/-- A row whose low `k` bits are its operand: a word matches where the bits above them are the row's (30_encoding
R105). -/
theorem row_iff {x mask m : SymBits} {k : Nat} (hmask : mask = BitVec.allOnes 9 <<< k) :
    x &&& mask = m ↔ x.toNat / 2 ^ k * 2 ^ k = m.toNat := by
  rw [hmask, ← BitVec.toNat_inj, toNat_and_highMask]

/-- A word that matches a row is the row's word plus the operand. -/
theorem row_value {x mask m : SymBits} {k : Nat} (hmask : mask = BitVec.allOnes 9 <<< k) (h : x &&& mask = m) :
    m.toNat + (x.extractLsb' 0 k).toNat = x.toNat := by
  rw [BitVec.extractLsb'_toNat, Nat.shiftRight_zero, ← (row_iff hmask).mp h]
  exact Nat.div_add_mod' _ _

/-- A word past the last one of a row is looked up in the rows that follow. -/
theorem row_skip {x mask m : SymBits} {k : Nat} {i j : Instr} (hmask : mask = BitVec.allOnes 9 <<< k)
    (h : m.toNat + 2 ^ k ≤ x.toNat) : (if x &&& mask = m then i else j) = j := if_neg fun hm => by
  have hv := row_value hmask hm
  have hop := (x.extractLsb' 0 k).isLt
  omega

/-! ## The value of an element and its instruction -/

/-- `i` is the well-formed instruction of format `f` whose bits have the value `v`. -/
def Instr.Reads (i : Instr) (f : Format) (v : Nat) : Prop :=
  i.wellFormed = true ∧ i.format? = some f ∧ i.value = v

/-- One row of a format whose rows follow one another: a word at or above the row's first one either matches and is
that plus the operand, or lies above the row. -/
theorem Instr.Reads.row {x mask m : SymBits} {k : Nat} {i j : Instr} {f : Format}
    (hmask : mask = BitVec.allOnes 9 <<< k) (hm : m.toNat % 2 ^ k = 0) (hlow : m.toNat ≤ x.toNat)
    (hi : m.toNat + (x.extractLsb' 0 k).toNat = x.toNat → i.Reads f x.toNat)
    (hj : m.toNat + 2 ^ k ≤ x.toNat → j.Reads f x.toNat) : (if x &&& mask = m then i else j).Reads f x.toNat := by
  split
  next h => exact hi (row_value hmask h)
  next h =>
    refine hj (Nat.le_of_not_lt fun hlt => h ((row_iff hmask).mpr ?_))
    have hd := Nat.div_mul_cancel (Nat.dvd_of_mod_eq_zero hm)
    have hle : m.toNat / 2 ^ k ≤ x.toNat / 2 ^ k := Nat.div_le_div_right hlow
    have hge : x.toNat / 2 ^ k < m.toNat / 2 ^ k + 1 :=
      (Nat.div_lt_iff_lt_mul (Nat.two_pow_pos k)).mpr (by rw [Nat.add_mul, hd, Nat.one_mul]; exact hlt)
    rw [show x.toNat / 2 ^ k = m.toNat / 2 ^ k by omega, hd]

/-- A run code matches RUN_SKIP where its length is 0 (30_encoding R95). -/
theorem run_low_iff (x : SymBits) : x &&& 0x01F#9 = 0#9 ↔ x.extractLsb' 0 5 = 0 := by
  rw [← BitVec.toNat_inj, BitVec.toNat_and, ← BitVec.toNat_inj, BitVec.extractLsb'_toNat]
  exact iff_of_eq (congrArg (· = 0) (Nat.and_two_pow_sub_one_eq_mod x.toNat 5))

theorem decodeRun_reads {x : SymBits} (hx : x.toNat < 285) : (decodeRun x).Reads .run x.toNat := by
  have hrep : (x.extractLsb' 5 4).toNat = x.toNat / 32 := by
    simp [Nat.shiftRight_eq_div_pow]; omega
  have hlen : (x.extractLsb' 0 5).toNat = x.toNat % 32 := by simp
  simp only [decodeRun, run_low_iff]
  split
  next h0 =>
    rw [h0] at hlen
    change 0 = _ at hlen
    exact ⟨decide_eq_true (by omega), rfl, by simp only [Instr.value, hrep, Nat.shiftLeft_eq]; omega⟩
  next h0 =>
    exact ⟨decide_eq_true ⟨h0, by omega⟩, rfl, by simp only [Instr.value, hrep, hlen, Nat.shiftLeft_eq]; omega⟩

theorem decodeSymRow_reads (x : SymBits) : (decodeSymRow x).Reads .sym x.toNat := by
  unfold decodeSymRow
  refine .row (k := 8) rfl rfl (Nat.zero_le _) (fun h => ⟨rfl, rfl, (Nat.zero_add _).symm.trans h⟩) fun h => ?_
  iterate 7 refine .row (k := 2) rfl rfl h (⟨rfl, rfl, ·⟩) fun h => ?_
  refine .row (k := 0) rfl rfl h (fun h => ⟨rfl, rfl, ?_⟩) fun h => ⟨decide_eq_true h, rfl, rfl⟩
  rwa [BitVec.toNat_of_zero_length rfl, Nat.add_zero] at h

theorem decodeDsymRow_reads {x : SymBits} (hx : x.toNat < 285) : (decodeDsymRow x).Reads .dsym x.toNat := by
  unfold decodeDsymRow
  have h := Nat.zero_le x.toNat
  iterate 17 refine .row (k := 1) rfl rfl h (⟨rfl, rfl, ·⟩) fun h => ?_
  exact ⟨decide_eq_true ⟨h, hx⟩, rfl, rfl⟩

theorem lenExtraInstr_reads (n : Fin 5) {v : Nat} (hv : v < 2 ^ (n.val + 1)) :
    (lenExtraInstr n v).Reads (.lenExtra n) v := by
  revert hv
  fin_cases n <;> exact fun hv => ⟨rfl, rfl, Nat.mod_eq_of_lt hv⟩

theorem distExtraInstr_reads (n : Fin 15) {v : Nat} (hv : v < 2 ^ (n.val + 1)) :
    (distExtraInstr n v).Reads (.distExtra n) v := by
  revert hv
  fin_cases n <;> exact fun hv => ⟨rfl, rfl, Nat.mod_eq_of_lt hv⟩

/-- A value no wider than its format decodes to a well-formed instruction of the format with that value. -/
theorem decodeValue_reads {f : Format} {v : Nat} {i : Instr} (hv : v < 2 ^ f.width) (h : decodeValue f v = .ok i) :
    i.Reads f v := by
  have hsym : f.width = 9 → (BitVec.ofNat 9 v).toNat = v := fun hw => by
    rw [BitVec.toNat_ofNat]; exact Nat.mod_eq_of_lt (hw ▸ hv)
  cases f with
  | hdr =>
    cases h
    refine ⟨rfl, rfl, ?_⟩
    change v < 2 ^ 96 at hv
    simp only [Instr.value, BitVec.toNat_ofNat, Nat.shiftLeft_eq, Nat.shiftRight_eq_div_pow]
    omega
  | count => cases h; exact ⟨rfl, rfl, Nat.mod_eq_of_lt hv⟩
  | params =>
    cases h
    refine ⟨rfl, rfl, ?_⟩
    change v < 2 ^ 12 at hv
    simp only [Instr.value, BitVec.toNat_ofNat, Nat.shiftLeft_eq, Nat.shiftRight_eq_div_pow]
    omega
  | lenExtra n => cases h; exact lenExtraInstr_reads n hv
  | distExtra n => cases h; exact distExtraInstr_reads n hv
  | run =>
    simp only [decodeValue] at h
    split at h
    next hlt => cases h; simpa only [hsym rfl] using decodeRun_reads (x := BitVec.ofNat 9 v) (by rwa [hsym rfl])
    next => cases h
  | sym =>
    simp only [decodeValue] at h
    split at h
    next => cases h; simpa only [hsym rfl] using decodeSymRow_reads (BitVec.ofNat 9 v)
    next => cases h
  | dsym =>
    simp only [decodeValue] at h
    split at h
    next hlt => cases h; simpa only [hsym rfl] using decodeDsymRow_reads (x := BitVec.ofNat 9 v) (by rwa [hsym rfl])
    next => cases h

/-! ## The value of an instruction -/

theorem decodeValue_hdr (a b c : Word) : decodeValue .hdr (Instr.hdr a b c).value = .ok (.hdr a b c) := by
  have ha := a.isLt
  have hb := b.isLt
  have hc := c.isLt
  simp only [decodeValue, Instr.value, Except.ok.injEq, Instr.hdr.injEq, ← BitVec.toNat_inj, BitVec.toNat_ofNat,
    Nat.shiftLeft_eq, Nat.shiftRight_eq_div_pow]
  omega

theorem decodeValue_params (a b c : BitVec 4) :
    decodeValue .params (Instr.params a b c).value = .ok (.params a b c) := by
  have ha := a.isLt
  have hb := b.isLt
  have hc := c.isLt
  simp only [decodeValue, Instr.value, Except.ok.injEq, Instr.params.injEq, ← BitVec.toNat_inj, BitVec.toNat_ofNat,
    Nat.shiftLeft_eq, Nat.shiftRight_eq_div_pow]
  omega

theorem decodeValue_run {rep : BitVec 4} {len : BitVec 5} (h : rep.toNat * 32 + len.toNat < 285) :
    decodeValue .run (rep.toNat <<< 5 + len.toNat) = .ok (if len = 0 then .runSkip rep else .runAssign rep len) := by
  rw [Nat.shiftLeft_eq]
  have hl := len.isLt
  have hn : (BitVec.ofNat 9 (rep.toNat * 32 + len.toNat)).toNat = rep.toNat * 32 + len.toNat := by simp; omega
  have hrep : (BitVec.ofNat 9 (rep.toNat * 32 + len.toNat)).extractLsb' 5 4 = rep := by
    rw [← BitVec.toNat_inj, BitVec.extractLsb'_toNat, hn, Nat.shiftRight_eq_div_pow]; omega
  have hlen : (BitVec.ofNat 9 (rep.toNat * 32 + len.toNat)).extractLsb' 0 5 = len := by
    rw [← BitVec.toNat_inj, BitVec.extractLsb'_toNat, hn, Nat.shiftRight_zero]; omega
  rw [decodeValue, if_pos h, decodeRun]
  simp only [run_low_iff, hrep, hlen]

theorem decodeValue_lit (b : Byte) : decodeValue .sym b.toNat = .ok (.lit b) := by
  have hb := b.isLt
  have hn : (BitVec.ofNat 9 b.toNat).toNat = b.toNat := by simp; omega
  have hm : BitVec.ofNat 9 b.toNat &&& 0x100#9 = 0#9 := (row_iff (k := 8) rfl).mpr (by rw [hn]; simp; omega)
  have hop : (BitVec.ofNat 9 b.toNat).extractLsb' 0 8 = b := by
    rw [← BitVec.toNat_inj, BitVec.extractLsb'_toNat, hn, Nat.shiftRight_zero, Nat.mod_eq_of_lt hb]
  rw [decodeValue, if_pos (by omega), decodeSymRow, if_pos hm, hop]

theorem decodeSymRow_lenInvalid {x : SymBits} (h : 0x11D ≤ x.toNat) : decodeSymRow x = .lenInvalid x := by
  refine (row_skip (k := 8) rfl (le_trans (by decide) h)).trans ?_
  iterate 7 refine (row_skip (k := 2) rfl (le_trans (by decide) h)).trans ?_
  exact row_skip (k := 0) rfl h

theorem decodeDsymRow_distInvalid {x : SymBits} (h : 34 ≤ x.toNat) : decodeDsymRow x = .distInvalid x := by
  iterate 17 refine (row_skip (k := 1) rfl (le_trans (by decide) h)).trans ?_
  rfl

theorem decodeValue_value {i : Instr} {f : Format} (hw : i.wellFormed = true) (hf : i.format? = some f) :
    decodeValue f i.value = .ok i := by
  cases i with
  | hdr a b c => cases hf; exact decodeValue_hdr a b c
  | params a b c => cases hf; exact decodeValue_params a b c
  | count x => cases hf; exact congrArg (Except.ok ∘ Instr.count) (BitVec.ofNat_toNat ..)
  | lenExtra1 x | lenExtra2 x | lenExtra3 x | lenExtra4 x | lenExtra5 x
  | distExtra1 x | distExtra2 x | distExtra3 x | distExtra4 x | distExtra5 x | distExtra6 x | distExtra7 x
  | distExtra8 x | distExtra9 x | distExtra10 x | distExtra11 x | distExtra12 x | distExtra13 x | distExtra14 x
  | distExtra15 x =>
    cases hf
    simp only [decodeValue, lenExtraInstr, distExtraInstr, Instr.value, BitVec.ofNat_toNat, BitVec.setWidth_eq]
  | runSkip rep =>
    cases hf
    simpa [Instr.value] using decodeValue_run (rep := rep) (len := 0) (by simpa [Instr.wellFormed] using hw)
  | runAssign rep len =>
    cases hf
    obtain ⟨hlen, hlt⟩ := of_decide_eq_true hw
    exact (decodeValue_run hlt).trans (by rw [if_neg hlen])
  | lit b => cases hf; exact decodeValue_lit b
  | lenQ0 r | lenQ1 r | lenQ2 r | lenQ3 r | lenQ4 r | lenQ5 r | lenQ6 r
  | distQ0 r | distQ1 r | distQ2 r | distQ3 r | distQ4 r | distQ5 r | distQ6 r | distQ7 r | distQ8 r | distQ9 r
  | distQ10 r | distQ11 r | distQ12 r | distQ13 r | distQ14 r | distQ15 r | distQ16 r =>
    cases hf; clear hw; revert r; decide
  | lenMax => cases hf; decide
  | lenInvalid x =>
    cases hf
    have h : 0x11D ≤ x.toNat := of_decide_eq_true hw
    simp only [decodeValue, Instr.value, BitVec.ofNat_toNat, BitVec.setWidth_eq]
    rw [if_pos x.isLt, decodeSymRow_lenInvalid h]
  | distInvalid x =>
    cases hf
    obtain ⟨h, hlt⟩ := of_decide_eq_true hw
    simp only [decodeValue, Instr.value, BitVec.ofNat_toNat, BitVec.setWidth_eq]
    rw [if_pos hlt, decodeDsymRow_distInvalid h]
  | _ => cases hf

/-- Every value an instruction's format can hold. -/
theorem Instr.value_lt {i : Instr} {f : Format} (hf : i.format? = some f) : i.value < 2 ^ f.width := by
  cases i with
  | hdr a b c =>
    cases hf
    have ha := a.isLt
    have hb := b.isLt
    have hc := c.isLt
    change (a.toNat <<< 64) + (b.toNat <<< 32) + c.toNat < 2 ^ 96
    simp only [Nat.shiftLeft_eq]
    omega
  | params a b c =>
    cases hf
    have ha := a.isLt
    have hb := b.isLt
    have hc := c.isLt
    change (a.toNat <<< 8) + (b.toNat <<< 4) + c.toNat < 2 ^ 12
    simp only [Nat.shiftLeft_eq]
    omega
  | count x | lenExtra1 x | lenExtra2 x | lenExtra3 x | lenExtra4 x | lenExtra5 x
  | distExtra1 x | distExtra2 x | distExtra3 x | distExtra4 x | distExtra5 x | distExtra6 x | distExtra7 x
  | distExtra8 x | distExtra9 x | distExtra10 x | distExtra11 x | distExtra12 x | distExtra13 x | distExtra14 x
  | distExtra15 x | lenInvalid x | distInvalid x => cases hf; exact x.isLt
  | runSkip rep =>
    cases hf
    have hr := rep.isLt
    change rep.toNat <<< 5 < 2 ^ 9
    simp only [Nat.shiftLeft_eq]
    omega
  | runAssign rep len =>
    cases hf
    have hr := rep.isLt
    have hl := len.isLt
    change (rep.toNat <<< 5) + len.toNat < 2 ^ 9
    simp only [Nat.shiftLeft_eq]
    omega
  | lit b => cases hf; exact b.isLt.trans (by decide)
  | lenQ0 r | lenQ1 r | lenQ2 r | lenQ3 r | lenQ4 r | lenQ5 r | lenQ6 r
  | distQ0 r | distQ1 r | distQ2 r | distQ3 r | distQ4 r | distQ5 r | distQ6 r | distQ7 r | distQ8 r | distQ9 r
  | distQ10 r | distQ11 r | distQ12 r | distQ13 r | distQ14 r | distQ15 r | distQ16 r =>
    cases hf; exact (Nat.add_lt_add_left r.isLt _).trans_le (by decide)
  | lenMax => cases hf; decide
  | _ => cases hf

/-! ## Bit strings -/

theorem decode_append {f : Format} {bits : List Bool} (h : bits.length = f.width) (rest : List Bool) :
    decode f (bits ++ rest) = (decodeValue f (bitsToNat bits)).map fun i => (i, rest) := by
  have hn : ¬ (bits ++ rest).length < f.width := by simp [h]
  rw [decode, if_neg hn, List.take_left' h, List.drop_left' h]
  cases decodeValue f (bitsToNat bits) <;> rfl

/-- The bits of a stream element are those of its value. -/
theorem encode_eq {i : Instr} {f : Format} (hf : i.format? = some f) : encode i = natToBits f.width i.value := by
  rw [encode, hf]

/-- What decodes: the value of the first bits, with the bits after them left. -/
theorem decode_eq_ok {f : Format} {bits rest : List Bool} {i : Instr} (h : decode f bits = .ok (i, rest)) :
    ∃ bs, bs.length = f.width ∧ bits = bs ++ rest ∧ decodeValue f (bitsToNat bs) = .ok i := by
  have hlen : f.width ≤ bits.length := Nat.le_of_not_lt fun hlt => by rw [decode, if_pos hlt] at h; cases h
  have htake : (bits.take f.width).length = f.width := List.length_take_of_le hlen
  rw [← List.take_append_drop f.width bits, decode_append htake] at h
  cases hv : decodeValue f (bitsToNat (bits.take f.width)) with
  | error r => rw [hv] at h; cases h
  | ok j => rw [hv] at h; cases h; exact ⟨_, htake, (List.take_append_drop ..).symm, hv⟩

/-- Settles O2: the encoding is the bits of the value (`bitsToNat_natToBits`), and the value decodes to the instruction
row by row (`decodeValue_value`). -/
theorem encodeThenDecode : Obligations.EncodeThenDecode := by
  unfold Obligations.EncodeThenDecode
  intro i f rest hw hf
  have hvalue : bitsToNat (encode i) = i.value := by
    rw [encode_eq hf, bitsToNat_natToBits, Nat.mod_eq_of_lt (Instr.value_lt hf)]
  rw [decode_append (by rw [encode_eq hf, natToBits_length]), hvalue, decodeValue_value hw hf]
  rfl

/-- Settles O3: the instruction read has the value of the bits read (`decodeValue_reads`), and those bits are the
string of that value (`natToBits_bitsToNat`). -/
theorem decodeThenEncode : Obligations.DecodeThenEncode := by
  unfold Obligations.DecodeThenEncode
  intro f bits rest i h
  obtain ⟨bs, hlen, rfl, hv⟩ := decode_eq_ok h
  obtain ⟨hw, hf, hvalue⟩ := decodeValue_reads (hlen ▸ bitsToNat_lt bs) hv
  refine ⟨hw, hf, ?_⟩
  rw [encode_eq hf, hvalue, ← hlen, natToBits_bitsToNat]

/-- A bit string that is the encoding of an instruction decodes to it. -/
theorem decode_of_encode {i : Instr} {f : Format} {bits : List Bool} (hw : i.wellFormed = true)
    (hf : i.format? = some f) (he : encode i = bits) : decode f bits = .ok (i, []) := by
  simpa [he] using encodeThenDecode i f [] hw hf

/-- Settles O1: each word written out is the encoding of its instruction. -/
theorem decodeReadsWrittenWords : Obligations.DecodeReadsWrittenWords := by
  unfold Obligations.DecodeReadsWrittenWords
  refine ⟨decode_of_encode rfl rfl ?hdr, decode_of_encode rfl rfl ?count, decode_of_encode rfl rfl ?params,
    decode_of_encode rfl rfl ?runAssign, decode_of_encode rfl rfl ?runSkip, decode_of_encode rfl rfl ?lit,
    decode_of_encode rfl rfl ?lenQ1, decode_of_encode rfl rfl ?lenMax, decode_of_encode rfl rfl ?distQ16,
    decode_of_encode rfl rfl ?distInvalid⟩
  all_goals decide

end Sys2Proof

/-!
# The element due

SUPPORT. The step of a code and the step of a raw element: the fetch sees the stream's bits at BITPOS, and an element
with too few bits raises UnexpectedEndOfInput (O4, O5).
-/

namespace Sys2Proof

/-- Every field is one READ. -/
theorem Format.fields_le (f : Format) : ∀ n ∈ f.fields, n ≤ 32 := by
  cases f with
  | lenExtra n | distExtra n => simp only [Format.fields, List.mem_singleton, forall_eq]; omega
  | _ => decide

/-- A decoded string of just the element's bits decodes as its value. -/
theorem decodeValue_of_decode {f : Format} {bits : List Bool} {i : Instr} (h : decode f bits = .ok (i, [])) :
    decodeValue f (bitsToNat bits) = .ok i := by
  obtain ⟨bs, _, rfl, hv⟩ := decode_eq_ok h
  rwa [List.append_nil]

end Sys2Proof

namespace Sys2Proof.Machine

/-! ## Coded elements -/

/-- A code that DECODE yields runs its row in the state that keeps the symbol. -/
theorem engineStep_code {s u : State} {t : TableId} {f : Format} {upd : Nat → State → State} {v : Nat} {c : Cursor}
    {i : Instr} (hn : engineNext s = codeNext t f upd u) (hd : (u.table t).decode u.inMem u.bc = .ok v c)
    (hi : decodeValue f v = .ok i) : engineStep s = exec i (upd v { u with bc := c }) := by
  simp only [engineStep, hn, codeNext, hd, hi]

/-- A code at which DECODE raises takes the error, the cursor where DECODE left it. -/
theorem engineStep_code_raise {s u : State} {t : TableId} {f : Format} {upd : Nat → State → State} {e : ErrKind}
    {c : Cursor} (hn : engineNext s = codeNext t f upd u) (hd : (u.table t).decode u.inMem u.bc = .raise e c) :
    engineStep s = .next (State.takeError e { u with bc := c }) := by
  simp only [engineStep, hn, codeNext, hd, exec, execRaise]

theorem engineNext_symbol {s : State} (hp : s.phase = .symbol) :
    engineNext s = codeNext .symT .sym keepSymbol { s with codesLeft := s.codesLeft - 1 } := by
  simp only [engineNext, hp]

theorem engineNext_distance {s : State} (hp : s.phase = .copyDist) (hq : s.seq = .start) :
    engineNext s = codeNext .copyT .dsym (fun _ u => u) s := by
  simp only [engineNext, hp, hq]

theorem engineNext_run {s : State} (hp : s.phase = .parseSym ∨ s.phase = .parseCopy) (hq : s.seq = .runs)
    (h0 : 0 ≤ s.tpRem) : engineNext s = codeNext .bootT .run (fun _ u => u) s := by
  rcases hp with hp | hp <;> simp only [engineNext, hp, parseNext, hq, if_pos h0]

/-- Settles O5: in each of the three phases what is due is a code (`codeNext`) of the phase's table and format. -/
theorem stepRunsCodedElement : Obligations.StepRunsCodedElement := by
  unfold Obligations.StepRunsCodedElement
  intro s v c i e hh
  rw [step_engine hh]
  refine ⟨fun hp => ?_, fun hp hq => ?_, fun hp hq h0 => ?_⟩
  · have hn := engineNext_symbol hp
    exact ⟨fun hd hi => engineStep_code hn hd hi, fun hd => engineStep_code_raise hn hd⟩
  · have hn := engineNext_distance hp hq
    exact ⟨fun hd hi => engineStep_code hn hd hi, fun hd => engineStep_code_raise hn hd⟩
  · have hn := engineNext_run hp hq h0
    exact ⟨fun hd hi => engineStep_code hn hd hi, fun hd => engineStep_code_raise hn hd⟩

/-! ## The fields at BITPOS -/

/-- A stream value of two parts: the first in the higher place (00_scope R7). -/
theorem Memory.streamValue_add (m : Memory) (inLen p a b : Nat) :
    m.streamValue inLen p (a + b) = m.streamValue inLen p a <<< b + m.streamValue inLen (p + a) b := by
  induction b with
  | zero => simp [Memory.streamValue]
  | succ b ih =>
    rw [← Nat.add_assoc]
    simp only [Memory.streamValue, ih, Nat.shiftLeft_eq, Nat.pow_succ, Nat.add_assoc]
    ring

/-- Fields read one after another are the stream's next bits as one value, where the stream has them (20_memory R64,
40_bit_cursor R126). -/
theorem Cursor.lookFields_eq {m : Memory} {c : Cursor} (h : c.Inv m) (v : Nat) {ns : List Nat}
    (hn : ∀ n ∈ ns, n ≤ 32) (hl : c.bitpos + ns.sum ≤ c.limit) :
    c.lookFields m v ns = v <<< ns.sum + m.streamValue c.inLen c.bitpos ns.sum := by
  induction ns generalizing c v with
  | nil => simp [Cursor.lookFields, Memory.streamValue]
  | cons n ns ih =>
    rw [List.sum_cons] at hl
    obtain ⟨hv, hi, hb, hlen⟩ := Cursor.look_spec h (hn n (by simp)) (by omega)
    have hlim : (c.look m n).2.limit = c.limit := by simp only [Cursor.limit, hlen]
    rw [Cursor.lookFields, ih hi _ (fun k hk => hn k (by simp [hk])) (by omega), hv, hb, hlen, List.sum_cons,
      Memory.streamValue_add]
    simp only [Nat.shiftLeft_eq, Nat.pow_add]
    ring

theorem engineStep_raw {s : State} {f : Format} {i : Instr} (hn : engineNext s = rawNext f s)
    (h : s.bc.Inv s.inMem) (hl : s.bc.bitpos + f.width ≤ s.bc.limit)
    (hi : decodeValue f (s.inMem.streamValue s.bc.inLen s.bc.bitpos f.width) = .ok i) : engineStep s = exec i s := by
  have hv := Cursor.lookFields_eq h 0 f.fields_le hl
  rw [Nat.zero_shiftLeft, Nat.zero_add] at hv
  simp only [engineStep, hn, rawNext, hv]
  rw [show f.fields.sum = f.width from rfl, hi]

/-! ## A stream with too few bits -/

/-- The operation `r` of `s` consumes `n` bits where the stream has them, and raises UnexpectedEndOfInput where it has
not (40_bit_cursor R126, R128). -/
def Res.Takes {α : Type} (r : Res α) (s : State) (n : Nat) : Prop :=
  (s.bc.bitpos + n ≤ s.bc.limit ∧ ∃ v c, r = .ok v { s with bc := c } ∧ c.Inv s.inMem ∧
    c.bitpos = s.bc.bitpos + n ∧ c.limit = s.bc.limit) ∨ ∃ t, r = .raise .unexpectedEndOfInput t

theorem State.drop_takes {s : State} (h : s.bc.Inv s.inMem) {n : Nat} (hn : n ≤ 32) : (s.drop n).Takes s n := by
  rcases State.drop_spec h hn with ⟨hl, c, e, hi, hb, hlen⟩ | ⟨_, c, e, _⟩
  · exact .inl ⟨hl, (), c, e, hi, hb, by simp only [Cursor.limit, hlen]⟩
  · exact .inr ⟨_, e⟩

theorem State.read_takes {s : State} (h : s.bc.Inv s.inMem) {n : Nat} (hn : n ≤ 32) : (s.read n).Takes s n := by
  rcases State.read_spec h hn with ⟨hl, c, e, hi, hb, hlen⟩ | ⟨_, c, e, _⟩
  · exact .inl ⟨hl, _, c, e, hi, hb, by simp only [Cursor.limit, hlen]⟩
  · exact .inr ⟨_, e⟩

/-- An operation that raises UnexpectedEndOfInput. -/
def Res.Short {α : Type} (r : Res α) : Prop := ∃ t, r = .raise .unexpectedEndOfInput t

/-- One operation after another raises where the first does, or where the rest does with its bits consumed. -/
theorem Res.Takes.short_bind {α β : Type} {r : Res α} {s : State} {n : Nat} {g : α → State → Res β} (h : r.Takes s n)
    (hg : s.bc.bitpos + n ≤ s.bc.limit → ∀ v c, c.Inv s.inMem → c.bitpos = s.bc.bitpos + n → c.limit = s.bc.limit →
      (g v { s with bc := c }).Short) : (r.bind g).Short := by
  rcases h with ⟨hl, v, c, rfl, hi, hb, hlim⟩ | ⟨t, rfl⟩
  · exact hg hl v c hi hb hlim
  · exact ⟨t, rfl⟩

/-- A first operation for whose bits the stream is too short. -/
theorem Res.Takes.short {α β : Type} {r : Res α} {s : State} {n : Nat} {g : α → State → Res β} (h : r.Takes s n)
    (hl : s.bc.limit < s.bc.bitpos + n) : (r.bind g).Short :=
  h.short_bind fun hle => absurd hle (Nat.not_le.mpr hl)

/-- The outcome of a step that takes UnexpectedEndOfInput (60_exceptions R307). -/
def EndsShort (o : Host.Outcome State Fault Refusal) : Prop :=
  ∃ t, o = .next t ∧ t.status = .error ∧ t.err = some .unexpectedEndOfInput

theorem Res.Short.endsShort {α : Type} {r : Res α} (h : r.Short) : EndsShort r.outcome := by
  obtain ⟨t, rfl⟩ := h
  exact ⟨_, rfl, rfl, rfl⟩

theorem execHdr_short {s : State} (h : s.bc.Inv s.inMem) (hl : s.bc.limit < s.bc.bitpos + 96) (a size r : Word) :
    EndsShort (execHdr a size r s) := by
  refine Res.Short.endsShort ((State.drop_takes h (by decide)).short_bind fun _ _ c hi hb hlim => ?_)
  refine (State.read_takes hi (by decide)).short_bind fun _ _ c2 hi2 hb2 hlim2 => ?_
  refine (State.drop_takes hi2 (by decide)).short ?_
  simp only at hb2 hlim2 ⊢
  omega

theorem execParams_short {s : State} (h : s.bc.Inv s.inMem) (hl : s.bc.limit < s.bc.bitpos + 12) (r sv m : BitVec 4) :
    EndsShort (execParams r sv m s) := by
  refine Res.Short.endsShort ((State.drop_takes h (by decide)).short_bind fun _ _ c hi hb hlim => ?_)
  refine (State.read_takes hi (by decide)).short_bind fun _ _ c2 hi2 hb2 hlim2 => ?_
  refine (State.read_takes hi2 (by decide)).short ?_
  simp only at hb2 hlim2 ⊢
  omega

theorem exec_lenExtraInstr (n : Fin 5) (v : Nat) (s : State) :
    exec (lenExtraInstr n v) s = (s.takeLenExtra (n.val + 1) (v % 2 ^ (n.val + 1))).outcome := by
  fin_cases n <;> rfl

theorem exec_distExtraInstr (n : Fin 15) (v : Nat) (s : State) :
    exec (distExtraInstr n v) s = (s.takeDistExtra (n.val + 1) (v % 2 ^ (n.val + 1))).outcome := by
  fin_cases n <;> rfl

/-- A raw element of format `f` is due (45_block_decoder R225; 44_table_parsing R190). -/
def RawDue (s : State) (f : Format) : Prop :=
  f = .hdr ∧ s.phase = .header ∨
  f = .count ∧ (s.phase = .parseSym ∨ s.phase = .parseCopy) ∧ s.seq = .start ∨
  f = .params ∧ s.phase = .blockParams ∨
  (∃ n, f = .lenExtra n ∧ s.phase = .copyLen ∧ s.seq = .lenExtra n) ∨
  (∃ n, f = .distExtra n ∧ s.phase = .copyDist ∧ s.seq = .distExtra n)

theorem RawDue.engineNext {s : State} {f : Format} (h : RawDue s f) : engineNext s = rawNext f s := by
  rcases h with ⟨rfl, hp⟩ | ⟨rfl, hp | hp, hq⟩ | ⟨rfl, hp⟩ | ⟨n, rfl, hp, hq⟩ | ⟨n, rfl, hp, hq⟩
  · simp only [Machine.engineNext, hp]
  · simp only [Machine.engineNext, hp, parseNext, hq]
  · simp only [Machine.engineNext, hp, parseNext, hq]
  · simp only [Machine.engineNext, hp]
  · simp only [Machine.engineNext, hp, hq]
  · simp only [Machine.engineNext, hp, hq]

/-- A raw element reads its own bits, so with too few of them it raises whatever the fetch made of them. -/
theorem RawDue.short {s : State} {f : Format} (hdue : RawDue s f) (h : s.bc.Inv s.inMem)
    (hl : s.bc.limit < s.bc.bitpos + f.width) : EndsShort (engineStep s) := by
  simp only [engineStep, hdue.engineNext, rawNext]
  rcases hdue with ⟨rfl, _⟩ | ⟨rfl, _⟩ | ⟨rfl, _⟩ | ⟨n, rfl, _⟩ | ⟨n, rfl, _⟩
  · simp only [decodeValue, exec]
    exact execHdr_short h hl _ _ _
  · exact ((State.read_takes h (by decide)).short hl).endsShort
  · simp only [decodeValue, exec]
    exact execParams_short h hl _ _ _
  · simp only [decodeValue, exec_lenExtraInstr]
    exact ((State.read_takes h (n := n.val + 1) (by omega)).short hl).endsShort
  · simp only [decodeValue, exec_distExtraInstr]
    exact ((State.read_takes h (n := n.val + 1) (by omega)).short hl).endsShort

/-- Settles O4: the fetch sees the stream's bits where there are enough (`Cursor.lookFields_eq`), and the element's own
reads raise where there are not (`RawDue.short`). -/
theorem stepRunsRawElement : Obligations.StepRunsRawElement := by
  unfold Obligations.StepRunsRawElement
  intro s f hh h hdue
  replace hdue : RawDue s f := hdue
  rw [step_engine hh]
  refine ⟨fun i hl hi => engineStep_raw hdue.engineNext h hl ?_, hdue.short h⟩
  rw [← bitsToNat_streamBits]
  exact decodeValue_of_decode hi

end Sys2Proof.Machine

/-!
# The operations of the cursor

SUPPORT. The bit cursor's operations as instructions of their own (O10 to O13), and where an operation stops by name
(O14). What an operation does to the cursor is `Cursor.need_spec`, `drop_spec` and `read_spec` (40_bit_cursor R126);
here the same is said of `exec`.
-/

namespace Sys2Proof.Machine

/-! ## A bit count -/

/-- From 1 to 32 bits an operation has its meaning (40_bit_cursor R129). -/
theorem withBitCount_of_mem {n : Nat} (h1 : 1 ≤ n) (h32 : n ≤ 32) (r : Res Unit) : withBitCount n r = r.outcome :=
  if_pos ⟨h1, h32⟩

/-- Of no bits, or of more than 32, it has none (40_bit_cursor R129). -/
theorem withBitCount_of_not_mem {n : Nat} (h : n = 0 ∨ 32 < n) (r : Res Unit) :
    withBitCount n r = .refused (.bitCount n) :=
  if_neg (by omega)

theorem exec_need (n : Nat) (s : State) : exec (.need n) s = withBitCount n (s.need n) := rfl
theorem exec_peek (n : Nat) (s : State) : exec (.peek n) s = withBitCount n (s.peek n).keep := rfl
theorem exec_drop (n : Nat) (s : State) : exec (.drop n) s = withBitCount n (s.drop n) := rfl
theorem exec_read (n : Nat) (s : State) : exec (.read n) s = withBitCount n (s.read n).keep := rfl

/-! ## CURSOR_INIT -/

/-- Settles O10: the cursor CURSOR_INIT leaves is `Cursor.init`, which stands at stream bit 0. -/
theorem cursorInitZeroesCursor : Obligations.CursorInitZeroesCursor := by
  unfold Obligations.CursorInitZeroesCursor
  intro s
  obtain ⟨_, hbitpos, _⟩ := Cursor.init_inv s.inMem s.argInLen
  exact ⟨rfl, hbitpos⟩

/-! ## REFILL -/

/-- Whole bytes of the input are the stream's bits (00_scope R7, 40_bit_cursor R121). -/
theorem Memory.value_eq_streamValue (m : Memory) {inLen a k : Nat} (h : a + k ≤ inLen) :
    m.value a k = m.streamValue inLen (8 * a) (8 * k) := by
  refine Nat.eq_of_testBit_eq fun t => ?_
  rw [Memory.testBit_value, Memory.testBit_streamValue]
  by_cases ht : t < 8 * k
  · have hin : 8 * a + (8 * k - 1 - t) < 8 * inLen := by omega
    have hbyte : (8 * a + (8 * k - 1 - t)) / 8 = a + (k - 1 - t / 8) := by omega
    have hbit : 8 - 1 - (8 * a + (8 * k - 1 - t)) % 8 = t % 8 := by omega
    have hlt : (8 * a + (8 * k - 1 - t)) % 8 < 8 := Nat.mod_lt _ (by decide)
    simp only [Memory.streamBit, BitVec.getMsbD, ht, hin, hbyte, hbit, hlt, decide_true, Bool.true_and]
  · simp [ht]

/-- REFILL with input left: the next bytes go just below the bits held (40_bit_cursor R121). -/
theorem Cursor.refill_bytes {m : Memory} {c : Cursor} {k : Nat} (hk : k = min 4 (c.inLen - c.pos))
    (h : c.pos < c.inLen) :
    c.refill m = .ok () { c with
      acc := c.acc ||| (BitVec.ofNat 64 (m.streamValue c.inLen (8 * c.pos) (8 * k)) <<< (64 - c.valid - 8 * k))
      valid := c.valid + 8 * k
      pos := c.pos + k } := by
  have hbytes : c.pos + k ≤ c.inLen := by omega
  rw [← Memory.value_eq_streamValue m hbytes, Cursor.refill, if_pos h, hk]

/-- REFILL at the end of the input: the ghost's zero bits (40_bit_cursor R121). -/
theorem Cursor.refill_ghost {m : Memory} {c : Cursor} (h : c.inLen ≤ c.pos) (he : c.eoi = false) :
    c.refill m = .ok () { c with eoi := true, valid := c.valid + 32 } := by
  rw [Cursor.refill, if_neg (Nat.not_lt.mpr h), if_pos he]

/-- REFILL with the ghost taken (40_bit_cursor R121). -/
theorem Cursor.refill_exhausted {m : Memory} {c : Cursor} (h : c.inLen ≤ c.pos) (he : c.eoi = true) :
    c.refill m = .raise .unexpectedEndOfInput c := by
  rw [Cursor.refill, if_neg (Nat.not_lt.mpr h), if_neg (by simp [he])]

theorem exec_refill {s : State} (h : s.bc.valid ≤ 32) :
    exec .refill s = (s.withCursor (s.bc.refill s.inMem)).outcome :=
  if_pos h

/-- Settles O11: the three cases of R121, with the bytes of the input read as stream bits
(`Memory.value_eq_streamValue`). -/
theorem refillPullsBytesThenGhost : Obligations.RefillPullsBytesThenGhost := by
  unfold Obligations.RefillPullsBytesThenGhost
  intro s hv
  rw [exec_refill hv]
  refine ⟨fun k hk h => ?bytes, fun h he => ?ghost, fun h he => ?exhausted⟩
  case bytes => rw [Cursor.refill_bytes hk h]; rfl
  case ghost => rw [Cursor.refill_ghost h he]; rfl
  case exhausted => rw [Cursor.refill_exhausted h he]; rfl

/-! ## NEED and PEEK -/

/-- PEEK(n) is NEED(n) and then the top `n` bits held (40_bit_cursor R123). -/
theorem State.peek_eq_need_bind (n : Nat) (s : State) :
    s.peek n = (s.need n).bind fun _ t => .ok (t.bc.top n) t := by
  simp only [State.peek, State.need, Cursor.peek]
  cases s.bc.need s.inMem n <;> rfl

/-- Settles O12: PEEK runs on the cursor that NEED leaves, whose top bits are the stream's (`Cursor.Inv.top_eq`). -/
theorem needAndPeekKeepBitpos : Obligations.NeedAndPeekKeepBitpos := by
  unfold Obligations.NeedAndPeekKeepBitpos
  intro s n h1 h32 h
  simp only [exec_need, exec_peek, withBitCount_of_mem h1 h32, State.peek_eq_need_bind]
  rcases State.need_spec h h32 with ⟨hl, c, e, hi, hb, hlen, hheld⟩ | ⟨hl, c, e, hi, hb, hlen⟩
  · have htop : c.top n = s.inMem.streamValue s.bc.inLen s.bc.bitpos n := by rw [hi.top_eq hheld, hlen, hb]
    refine ⟨c, hi, hb, hlen, fun _ => ⟨hheld, ?_, ?_⟩, fun hshort => absurd hl (Nat.not_le.mpr hshort)⟩
    · rw [e, Res.outcome_ok]
    · rw [e, Res.bind_ok, Res.keep_ok, Res.outcome_ok, htop]
  · refine ⟨c, hi, hb, hlen, fun hroom => absurd hl (Nat.not_lt.mpr hroom), fun _ => ⟨?_, ?_⟩⟩
    · rw [e, Res.outcome_raise]
    · rw [e, Res.bind_raise, Res.keep_raise, Res.outcome_raise]

/-! ## DROP and READ -/

/-- Settles O13: what DROP and READ do to the cursor is `State.drop_spec` and `State.read_spec`. -/
theorem dropAndReadConsume : Obligations.DropAndReadConsume := by
  unfold Obligations.DropAndReadConsume
  intro s n h1 h32 h
  simp only [exec_drop, exec_read, withBitCount_of_mem h1 h32]
  constructor
  · rcases State.drop_spec h h32 with ⟨hl, c, e, hi, hb, hlen⟩ | ⟨hl, c, e, hi, hb, hlen⟩
    · exact ⟨c, hi, hlen, fun _ => ⟨hb, by rw [e, Res.outcome_ok]⟩,
        fun hshort => absurd hl (Nat.not_le.mpr hshort)⟩
    · exact ⟨c, hi, hlen, fun hroom => absurd hl (Nat.not_lt.mpr hroom),
        fun _ => ⟨hb, by rw [e, Res.outcome_raise]⟩⟩
  · rcases State.read_spec h h32 with ⟨hl, c, e, hi, hb, hlen⟩ | ⟨hl, c, e, hi, hb, hlen⟩
    · exact ⟨c, hi, hlen, fun _ => ⟨hb, by rw [e, Res.keep_ok, Res.outcome_ok]⟩,
        fun hshort => absurd hl (Nat.not_le.mpr hshort)⟩
    · exact ⟨c, hi, hlen, fun hroom => absurd hl (Nat.not_lt.mpr hroom),
        fun _ => ⟨hb, by rw [e, Res.keep_raise, Res.outcome_raise]⟩⟩

/-! ## Where an operation stops -/

/-- No byte is written at or past `target` (20_memory R61). -/
theorem State.emit_full {s : State} (b : Byte) (h : s.target ≤ s.outPos) : s.emit b = .fault .outputWrite :=
  if_neg (Nat.not_lt.mpr h)

/-- No byte is read before the output's start (20_memory R61). -/
theorem State.copyLoop_before_start {s : State} {i : Nat} (hi : 0 < i) (hroom : s.outPos < s.target)
    (h : s.outPos < s.cpDist) : s.copyLoop i = .fault .outputRead := by
  cases i with
  | zero => exact absurd hi (Nat.lt_irrefl 0)
  | succ i => rw [State.copyLoop, if_pos hroom, if_pos h]

/-- Settles O14: the bit counts outside 1 to 32 and REFILL without room are refused, and the accesses that would leave OUT
fault. -/
theorem stopsByName : Obligations.StopsByName := by
  unfold Obligations.StopsByName
  intro s n byte
  refine ⟨fun hn => ?count, fun hv => ?refill, fun hfull => ?lit, fun hdist hlen hroom => ?copyRun⟩
  case count =>
    simp only [exec_need, exec_peek, exec_drop, exec_read, withBitCount_of_not_mem hn, and_self]
  case refill => exact if_neg (Nat.not_le.mpr hv)
  case lit => simp only [exec, execLit, State.emit_full byte hfull, Res.bind_fault, Res.outcome_fault]
  case copyRun =>
    simp only [exec, execCopyRun, State.copyLoop_before_start hlen hroom hdist, Res.bind_fault, Res.outcome_fault]

end Sys2Proof.Machine

/-!
# DECODE

SUPPORT. DECODE as an instruction of its own: its two paths and where it raises (O15 to O17), and that it gives back
each symbol from the code BUILD gave it (O18). What DECODE does to the cursor is `Table.decode_fast` and
`Table.decode_slow`; for a built table it remains to say which path a code takes and what the thresholds find.
-/

namespace Sys2Proof.Machine

/-! ## DECODE as an instruction -/

theorem exec_decode_ok {s : State} {t : TableId} {v : Nat} {c : Cursor}
    (h : (s.table t).decode s.inMem s.bc = .ok v c) : exec (.decode t) s = .next { s with bc := c, ret := v } := by
  simp only [exec, execDecode, State.decode, h, State.withCursor_ok, Res.keep_ok, Res.outcome_ok]

theorem exec_decode_raise {s : State} {t : TableId} {e : ErrKind} {c : Cursor}
    (h : (s.table t).decode s.inMem s.bc = .raise e c) :
    exec (.decode t) s = .next (State.takeError e { s with bc := c }) := by
  simp only [exec, execDecode, State.decode, h, State.withCursor_raise, Res.keep_raise, Res.outcome_raise]

/-- DECODE returns the symbol `v` and consumes `n` bits. -/
def State.Decodes (s : State) (t : TableId) (v n : Nat) : Prop :=
  ∃ c, exec (.decode t) s = .next { s with bc := c, ret := v } ∧ c.Inv s.inMem ∧ c.inLen = s.bc.inLen ∧
    c.bitpos = s.bc.bitpos + n

/-- The fast path on the machine (41_huffman_table R142). -/
theorem State.decodes_fast {s : State} {t : TableId} {e : HashSlot} (h : s.bc.Inv s.inMem)
    (he : (s.table t).empty = false) (hl : s.bc.bitpos + 8 ≤ s.bc.limit)
    (hs : (s.table t).slot (s.inMem.streamValue s.bc.inLen s.bc.bitpos 8) = some e) (h8 : e.len ≤ 8) :
    s.Decodes t e.sym e.len := by
  obtain ⟨c, hd, hc⟩ := Table.decode_fast h he hl hs h8
  exact ⟨c, exec_decode_ok hd, hc⟩

/-- The slow path on the machine (41_huffman_table R143). -/
theorem State.decodes_slow {s : State} {t : TableId} {w L : Nat} (h : s.bc.Inv s.inMem)
    (he : (s.table t).empty = false) (hl : s.bc.bitpos + 32 ≤ s.bc.limit)
    (hs : (s.table t).slot (s.inMem.streamValue s.bc.inLen s.bc.bitpos 8) = none)
    (hw : w = s.inMem.streamValue s.bc.inLen s.bc.bitpos 32) (h1 : 1 ≤ L) (h32 : L ≤ 32)
    (hthr : w < (s.table t).thr.getD L 0) (hleast : ∀ j, 1 ≤ j → j < L → (s.table t).thr.getD j 0 ≤ w) :
    s.Decodes t ((s.table t).slowSym w L) L := by
  subst hw
  obtain ⟨c, hd, hc⟩ := Table.decode_slow h he hl hs (Table.findLen_eq h1 (by omega) hthr hleast)
  exact ⟨c, exec_decode_ok hd, hc⟩

/-- A slot within the hash table. -/
theorem Table.slot_of_getElem? {T : Table} {i : Nat} {x : Option HashSlot} (h : T.hash[i]? = some x) :
    T.slot i = x := by
  rw [Table.slot, List.getD_eq_getElem?_getD, h, Option.getD_some]

/-- Settles O15: `Table.decode_fast` on the machine. -/
theorem decodeFastPath : Obligations.DecodeFastPath := by
  unfold Obligations.DecodeFastPath
  intro s t e h he hl hs _ h8
  exact State.decodes_fast h he hl (Table.slot_of_getElem? hs) h8

/-- A bound on a list's entry, where one past the list's end reads as 0. -/
theorem getD_le_of_getElem?_le {l : List Nat} {j w : Nat} (h : ∀ x, l[j]? = some x → x ≤ w) : l.getD j 0 ≤ w := by
  rw [List.getD_eq_getElem?_getD]
  cases hj : l[j]? with
  | none => exact Nat.zero_le w
  | some x => exact h x hj

/-- The slow path's symbol, where the entries it reads are within the table's arrays (41_huffman_table R143). -/
theorem Table.slowSym_eq {T : Table} {w L thr stop sym : Nat} (hthr : T.thr[L]? = some thr)
    (hends : T.ends[L]? = some stop) (hsym : T.syms[stop - 1 - (thr - 1 - w) / 2 ^ (32 - L)]? = some sym) :
    T.slowSym w L = sym := by
  simp only [Table.slowSym, List.getD_eq_getElem?_getD, hthr, hends, Option.getD_some, Nat.shiftRight_eq_div_pow, hsym]

/-- Settles O16: the length given is the one the search finds, so `Table.decode_slow` applies. -/
theorem decodeSlowPath : Obligations.DecodeSlowPath := by
  unfold Obligations.DecodeSlowPath
  intro s t w L thr stop sym h he hl hs hw h1 h32 hthr hlt hleast hends hsym
  have hfound : w < (s.table t).thr.getD L 0 := by rwa [List.getD_eq_getElem?_getD, hthr, Option.getD_some]
  have hd := State.decodes_slow h he hl (Table.slot_of_getElem? hs) hw h1 h32 hfound fun j hj hjL =>
    getD_le_of_getElem?_le fun x hx => hleast j x hj hjL hx
  rwa [Table.slowSym_eq hthr hends hsym] at hd

/-! ## Where DECODE raises -/

theorem Table.decode_empty {m : Memory} {T : Table} (c : Cursor) (h : T.empty = true) :
    T.decode m c = .raise .emptyTable c := by rw [Table.decode, if_pos h]

/-- DECODE of an absent slot is the slow path from the cursor PEEK(8) leaves (41_huffman_table R142, R143). -/
theorem Table.decode_miss {m : Memory} {T : Table} {c c' : Cursor} {i : Nat} (he : T.empty = false)
    (hp : c.peek m 8 = .ok i c') (hs : T.slot i = none) : T.decode m c = T.decodeSlow m c' := by
  simp only [Table.decode, he, Bool.false_eq_true, if_false, hp, CurRes.bind_ok, hs]

/-- The cursor with which a table with a code raises, if it does: the one its PEEKs leave, where BITPOS has not moved
(41_huffman_table R142 to R145). -/
theorem Table.decode_raises {m : Memory} {T : Table} {c : Cursor} (hc : c.Inv m) (he : T.empty = false) :
    ∃ c', c'.Inv m ∧ c'.bitpos = c.bitpos ∧ c'.inLen = c.inLen ∧
      (c.limit < c.bitpos + 8 → T.decode m c = .raise .unexpectedEndOfInput c') ∧
      (T.slot (m.streamValue c.inLen c.bitpos 8) = none → c.bitpos + 8 ≤ c.limit → c.limit < c.bitpos + 32 →
        T.decode m c = .raise .unexpectedEndOfInput c') ∧
      (T.slot (m.streamValue c.inLen c.bitpos 8) = none → c.bitpos + 32 ≤ c.limit →
        T.findLen (m.streamValue c.inLen c.bitpos 32) 1 32 = none → T.decode m c = .raise .codeNotFound c') := by
  rcases Cursor.peek_spec hc (n := 8) (by decide) with ⟨hl, c1, e1, i1, b1, l1, _⟩ | ⟨hl, c1, e1, i1, b1, l1⟩
  · have hlim : c1.limit = c.limit := by simp only [Cursor.limit, l1]
    rcases Cursor.peek_spec i1 (n := 32) (by decide) with ⟨hl2, c2, e2, i2, b2, l2, _⟩ | ⟨hl2, c2, e2, i2, b2, l2⟩
    · rw [b1, l1] at e2
      refine ⟨c2, i2, b2.trans b1, l2.trans l1, fun _ => by omega, fun _ _ _ => by omega, fun hs _ hf => ?_⟩
      rw [Table.decode_miss he e1 hs, Table.decodeSlow, e2, CurRes.bind_ok, hf]
    · refine ⟨c2, i2, b2.trans b1, l2.trans l1, fun _ => by omega, fun hs _ _ => ?_, fun _ _ => by omega⟩
      rw [Table.decode_miss he e1 hs, Table.decodeSlow, e2, CurRes.bind_raise]
  · refine ⟨c1, i1, b1, l1, fun _ => ?_, fun _ _ => by omega, fun _ _ => by omega⟩
    simp only [Table.decode, he, Bool.false_eq_true, if_false, e1, CurRes.bind_raise]

/-- Settles O17: an empty table raises before the cursor is used, any other with the cursor of
`Table.decode_raises`. -/
theorem decodeRaises : Obligations.DecodeRaises := by
  unfold Obligations.DecodeRaises
  intro s t
  refine ⟨fun he => exec_decode_raise (Table.decode_empty s.bc he), fun h he => ?_⟩
  obtain ⟨c, hi, hb, hlen, hshort, hmiss, hnone⟩ := Table.decode_raises h he
  refine ⟨c, hi, hb, hlen, fun hl => exec_decode_raise (hshort hl), fun hs hl8 hl32 => ?_, fun hs hl hthr => ?_⟩
  · exact exec_decode_raise (hmiss (Table.slot_of_getElem? hs) hl8 hl32)
  · exact exec_decode_raise (hnone (Table.slot_of_getElem? hs) hl
      (Table.findLen_none.mpr fun L h1 h33 => hthr L h1 (by omega)))

/-! ## The table BUILD makes -/

/-- The first `n` of `k` stream bits are the upper part of their value (00_scope R7). -/
theorem Memory.streamValue_div (m : Memory) (inLen p : Nat) {n k : Nat} (h : n ≤ k) :
    m.streamValue inLen p k / 2 ^ (k - n) = m.streamValue inLen p n := by
  obtain ⟨j, rfl⟩ := Nat.exists_eq_add_of_le h
  rw [Nat.add_sub_cancel_left, m.streamValue_add, Nat.shiftLeft_eq, Nat.add_comm,
    Nat.add_mul_div_right _ _ (Nat.two_pow_pos j), Nat.div_eq_of_lt (m.streamValue_lt _ _ _), Nat.zero_add]

/-- A coded symbol makes the table one with a code (42_table_builder R168). -/
theorem Builder.table_empty_false {b : Builder} {L i sym : Nat} (h1 : 1 ≤ L) (h32 : L ≤ 32)
    (hsym : (b.list L)[i]? = some sym) : b.table.empty = false := by
  refine Bool.eq_false_iff.mpr fun he => ?_
  rw [b.table_empty_iff.mp he L h1 h32] at hsym
  cases hsym

/-- The slot of 8 bits that begin with a code (42_table_builder R167). -/
theorem Builder.table_slot_of_code {b : Builder} {L i sym h : Nat} (hk : b.kraft 32 ≤ 2 ^ 32) (h1 : 1 ≤ L)
    (h8 : L ≤ 8) (hsym : (b.list L)[i]? = some sym) (hh : h < 256) (hc : h / 2 ^ (8 - L) = b.code L i) :
    b.table.slot h = some ⟨sym, L⟩ :=
  Table.slot_of_getElem? (((Builder.table_hash hk).2 h ⟨sym, L⟩ hh).mpr ⟨L, i, h1, h8, hsym, rfl, hc⟩)

/-- 32 bits at or past the codes of up to 8 bits find their slot absent: a present one begins with such a code, which
ends below `kraft 8`. -/
theorem Builder.table_slot_of_kraft_le {b : Builder} {w : Nat} (hk : b.kraft 32 ≤ 2 ^ 32) (hw : w < 2 ^ 32)
    (h8 : b.kraft 8 ≤ w) : b.table.slot (w / 2 ^ 24) = none := by
  obtain ⟨hlen, hslot⟩ := Builder.table_hash hk
  have hlt : w / 2 ^ 24 < 256 := by omega
  obtain ⟨x, hx⟩ : ∃ x, b.table.hash[w / 2 ^ 24]? = some x := ⟨_, List.getElem?_eq_getElem (by omega)⟩
  cases x with
  | none => exact Table.slot_of_getElem? hx
  | some e =>
    obtain ⟨L, i, h1, hL, hsym, _, hc⟩ := (hslot _ e hlt).mp hx
    have hend := (Builder.code_bounds h1 hL (List.getElem?_eq_some_iff.mp hsym).1 hc).2
    have hmono := b.kraft_mono hL
    omega

/-- The codes of length `n + 1`, left-aligned, end at the Kraft sum up to it (42_table_builder R165, R166). -/
theorem Builder.kraft_eq_mul (b : Builder) {n : Nat} (h : n < 32) :
    b.kraft (n + 1) = 2 ^ (32 - (n + 1)) * (b.firstCode n + b.count (n + 1)) := by
  rw [b.kraft_succ, ← b.firstCode_mul h, ← Nat.add_mul, Nat.mul_comm]

/-- 32 bits that begin with a code of length `n + 1` lie between the Kraft sums on both sides of that length, so its
threshold is the first above them (41_huffman_table R143, 42_table_builder R166). -/
theorem Builder.kraft_bounds_of_code {b : Builder} {n i w : Nat} (hn : n < 32) (hi : i < b.count (n + 1))
    (hw : w / 2 ^ (32 - (n + 1)) = b.code (n + 1) i) : b.kraft n ≤ w ∧ w < b.kraft (n + 1) := by
  have hpos : 0 < 2 ^ (32 - (n + 1)) := Nat.two_pow_pos _
  rw [Builder.code, Nat.add_sub_cancel] at hw
  constructor
  · rw [← b.firstCode_mul hn, ← Nat.le_div_iff_mul_le hpos]
    omega
  · rw [b.kraft_eq_mul hn, Nat.mul_comm, ← Nat.div_lt_iff_lt_mul hpos]
    omega

/-- The offset of a length is that of the length before it and the symbols it adds (42_table_builder R166). -/
theorem Builder.table_ends_succ (b : Builder) {n : Nat} (h : n < 32) :
    b.table.ends.getD (n + 1) 0 = ((List.range n).flatMap fun j => b.list (j + 1)).length + b.count (n + 1) := by
  rw [b.table_ends h, List.range_succ, List.flatMap_append, List.length_append, List.flatMap_singleton]
  rfl

/-- Counting back from the last code of its length, the slow path comes to the symbol of the code the 32 bits begin with
(41_huffman_table R143, R146). -/
theorem Builder.table_slowSym {b : Builder} {n i sym w : Nat} (hn : n < 32) (hsym : (b.list (n + 1))[i]? = some sym)
    (hw : w / 2 ^ (32 - (n + 1)) = b.code (n + 1) i) : b.table.slowSym w (n + 1) = sym := by
  have hi : i < b.count (n + 1) := (List.getElem?_eq_some_iff.mp hsym).1
  have hlt := (Builder.kraft_bounds_of_code hn hi hw).2
  rw [b.kraft_eq_mul hn] at hlt
  have hback : (b.kraft (n + 1) - 1 - w) / 2 ^ (32 - (n + 1)) = b.count (n + 1) - (i + 1) := by
    rw [Nat.sub_sub, Nat.add_comm 1, b.kraft_eq_mul hn, Nat.mul_sub_div _ _ _ hlt, hw, Builder.code,
      Nat.add_sub_cancel, Nat.add_assoc, Nat.add_sub_add_left]
  have hplace (before : Nat) : before + b.count (n + 1) - 1 - (b.count (n + 1) - (i + 1)) = before + i := by omega
  rw [Table.slowSym, b.table_thr hn, b.table_ends_succ hn, Nat.shiftRight_eq_div_pow, hback, hplace,
    List.getD_eq_getElem?_getD, b.table_syms_at hn hi, hsym, Option.getD_some]

/-- Settles O18: a code of up to 8 bits is in the hash table under every 8 bits that begin with it; a longer one misses
there, and the thresholds find its length and its symbol. -/
theorem decodeInvertsBuild : Obligations.DecodeInvertsBuild := by
  unfold Obligations.DecodeInvertsBuild
  intro s t b L i sym h _ hb h1 h32 hsym hc hl
  obtain ⟨hk, hT⟩ := Builder.build_eq_some.mp hb
  have he : (s.table t).empty = false := hT ▸ Builder.table_empty_false h1 h32 hsym
  by_cases h8 : L ≤ 8
  case pos =>
    rw [if_pos h8] at hl
    refine State.decodes_fast (e := ⟨sym, L⟩) h he hl ?_ h8
    rw [hT]
    exact Builder.table_slot_of_code hk h1 h8 hsym (s.inMem.streamValue_lt _ _ 8)
      ((s.inMem.streamValue_div _ _ h8).trans hc)
  case neg =>
    rw [if_neg h8] at hl
    obtain ⟨n, rfl⟩ : ∃ n, L = n + 1 := ⟨L - 1, by omega⟩
    have hw := (s.inMem.streamValue_div s.bc.inLen s.bc.bitpos h32).trans hc
    have hmiss := s.inMem.streamValue_div s.bc.inLen s.bc.bitpos (n := 8) (k := 32) (by decide)
    obtain ⟨hlow, hhigh⟩ := Builder.kraft_bounds_of_code h32 (List.getElem?_eq_some_iff.mp hsym).1 hw
    have hd := State.decodes_slow h he hl ?slot rfl h1 h32 ?found ?least
    case slot =>
      rw [hT, ← hmiss]
      exact Builder.table_slot_of_kraft_le hk (s.inMem.streamValue_lt _ _ 32)
        ((b.kraft_mono (by omega)).trans hlow)
    case found => rwa [hT, b.table_thr h32]
    case least =>
      intro j _ hj
      rw [hT, b.table_thr (by omega)]
      exact (b.kraft_mono (by omega)).trans hlow
    rwa [hT, Builder.table_slowSym h32 hsym hw] at hd

end Sys2Proof.Machine

/-!
# The errors a decode reports

SUPPORT. ERR changes only where an error is taken, and from a sound state in a decode neither InvalidCodeLength nor
InvalidLengthCode is, nor EmptyTable outside a table parse (O55).
-/

namespace Sys2Proof.Machine

/-- An engine step takes an error or leaves ERR as it is (60_exceptions R307). -/
theorem Effect.err {s t : State} (h : Effect s t) :
    (∃ e u, Fails s e u ∧ t = State.takeError e u) ∨ t.err = s.err := by
  cases h with
  | raised e u hf => exact .inl ⟨e, u, hf, rfl⟩
  | built t => cases t <;> exact .inr rfl
  | lit u v hu | lenDone u v hu | lenBase u v hu =>
    obtain ⟨_, herr, _⟩ := hu.sameControl
    exact .inr herr
  | _ => exact .inr rfl

/-- Inside a decode ERR reads no error (10_state R27). -/
theorem State.ControlInv.err_of_busy {s : State} (h : s.ControlInv) (hb : s.status = .busy) : s.err = none := by
  obtain ⟨_, herr, _⟩ := h
  simpa [hb] using herr

/-- The errors a sound BUSY state does not take: INIT_BOOT alone meets a code length above 32, and runs before any
decode; `cp_sym` is a symbol; and past the table parses the tables in use have codes (60_exceptions R295, R297,
R298). -/
theorem Fails.error_of_inv {s u : State} {e : ErrKind} (h : Fails s e u) (hs : s.Inv) (hb : s.status = .busy) :
    e ≠ .invalidCodeLength ∧ e ≠ .invalidLengthCode ∧
    (e = .emptyTable → s.phase = .parseSym ∨ s.phase = .parseCopy) := by
  obtain ⟨_, hcontrol, _, htables, hrange, hflow⟩ := hs
  obtain ⟨hbusy, _⟩ := hcontrol
  obtain ⟨_, hcode, hlength, hempty⟩ := h.error
  have hsym := ((rangeInv_iff s).mp hrange).cpSym
  have hflows := (flowInv_iff s).mp hflow
  refine ⟨fun he => ?code, fun he => ?length, fun he => ?empty⟩
  case code =>
    have hp := hbusy.mp hb
    rw [hcode he] at hp
    cases hp
  case length => exact absurd (hlength he htables) (Nat.not_le.mpr (Nat.lt_succ_of_le hsym))
  case empty =>
    rcases hempty he with hp | ⟨hp, hT⟩ | ⟨hp, hT⟩
    · exact hp
    · rw [hflows.symT (.inl (by rw [hp]; rfl))] at hT
      cases hT
    · rw [hflows.copyT (.inl (by rw [hp]; rfl))] at hT
      cases hT

/-- Settles O55: an error the step takes is one of `Fails.error_of_inv`, and without one ERR stays clear. -/
theorem unreachableErrorsStayUnreached : Obligations.UnreachableErrorsStayUnreached := by
  unfold Obligations.UnreachableErrorsStayUnreached
  intro s t hs hh hb h
  rcases (step_effect hh h).err with ⟨e, u, hf, rfl⟩ | herr
  · simpa using hf.error_of_inv hs hb
  · obtain ⟨_, hcontrol, _⟩ := hs
    simp [herr, hcontrol.err_of_busy hb]

end Sys2Proof.Machine

/-!
# The builder's operations

SUPPORT. CLEAR, ADD_SYMBOL and BUILD as instructions of their own (O19 to O21), and the hash table of the table BUILD
answers (O22). What ADD_SYMBOL and BUILD make of a builder is said in Laws/Huffman.lean; here the same is said of `exec`,
and the Kraft sum and the offsets are written out as the sums of 42_table_builder R164 and R166.
-/

namespace Sys2Proof.Machine

/-! ## CLEAR -/

/-- Settles O19: a cleared builder is 33 empty lists. -/
theorem clearEmptiesLists : Obligations.ClearEmptiesLists := by
  unfold Obligations.ClearEmptiesLists
  intro s
  rfl

/-! ## ADD_SYMBOL -/

/-- The length check comes first (42_table_builder R161). -/
theorem Builder.addSymbol_of_long (b : Builder) (x : Int) {L : Nat} (h : 32 < L) :
    b.addSymbol x L = .raise .invalidCodeLength :=
  if_pos h

/-- The symbol check comes second (42_table_builder R161). -/
theorem Builder.addSymbol_of_not_symbol (b : Builder) {x : Int} {L : Nat} (h : L ≤ 32) (hx : x < 0 ∨ 285 ≤ x) :
    b.addSymbol x L = .raise .invalidSymbol :=
  (if_neg (Nat.not_lt.mpr h)).trans (if_pos hx)

/-- A symbol with a length already, 0 included, has no second one (42_table_builder R163). -/
theorem Builder.addSymbol_of_mem {b : Builder} {x : Int} {L : Nat} (h : L ≤ 32) (h0 : 0 ≤ x) (h285 : x < 285)
    (hmem : ∃ l ∈ b.lists, x.toNat ∈ l) : b.addSymbol x L = .duplicate :=
  (if_neg (Nat.not_lt.mpr h)).trans <|
    (if_neg (not_or.mpr ⟨Int.not_lt.mpr h0, Int.not_le.mpr h285⟩)).trans (if_pos ((b.holds_iff _).mpr hmem))

theorem exec_addSymbol_ok {s : State} {x : Int} {L : Nat} {b : Builder} (h : s.builder.addSymbol x L = .ok b) :
    exec (.addSymbol x L) s = .next { s with builder := b } := by
  simp only [exec, execAddSymbol, State.addSymbol, h, Res.outcome_ok]

theorem exec_addSymbol_raise {s : State} {x : Int} {L : Nat} {e : ErrKind} (h : s.builder.addSymbol x L = .raise e) :
    exec (.addSymbol x L) s = .next (s.takeError e) := by
  simp only [exec, execAddSymbol, State.addSymbol, h, Res.outcome_raise]

theorem exec_addSymbol_duplicate {s : State} {x : Int} {L : Nat} (h : s.builder.addSymbol x L = .duplicate) :
    exec (.addSymbol x L) s = .refused .duplicateSymbol := by
  simp only [exec, execAddSymbol, State.addSymbol, h, Res.outcome_refused]

/-- Settles O20: each check by what `Builder.addSymbol` answers, and the append by `Builder.list_modify`. -/
theorem addSymbolChecksThenAppends : Obligations.AddSymbolChecksThenAppends := by
  unfold Obligations.AddSymbolChecksThenAppends
  intro s x L
  refine ⟨fun h => ?long, fun h hx => ?notSymbol, fun h h0 h285 hmem => ?duplicate, fun h h0 h285 hlen hnew => ?append⟩
  case long => exact exec_addSymbol_raise (s.builder.addSymbol_of_long x h)
  case notSymbol => exact exec_addSymbol_raise (s.builder.addSymbol_of_not_symbol h hx)
  case duplicate => exact exec_addSymbol_duplicate (Builder.addSymbol_of_mem h h0 h285 hmem)
  case append =>
    have hlist := s.builder.list_modify L [x.toNat] (by omega)
    refine ⟨_, exec_addSymbol_ok (Builder.addSymbol_ok h h0 h285 hnew), ?_, ?_, fun j hj => ?_⟩
    · rw [List.length_modify, hlen]
    · rw [hlist, if_pos rfl]
    · rw [hlist, if_neg hj]

/-! ## BUILD -/

theorem exec_build_table {s : State} (t : TableId) (h : s.builder.kraft 32 ≤ 2 ^ 32) :
    exec (.build t) s = .next (s.setTable t s.builder.table) := by
  simp only [exec, execBuild, State.build, Builder.build_eq_some.mpr ⟨h, rfl⟩, Res.outcome_ok]

theorem exec_build_raise {s : State} (t : TableId) (h : 2 ^ 32 < s.builder.kraft 32) :
    exec (.build t) s = .next (s.takeError .oversubscribedTable) := by
  simp only [exec, execBuild, State.build, Builder.build_eq_none.mpr h, Res.outcome_raise]

/-- The Kraft sum up to a length, summand by summand (42_table_builder R164, R166). -/
theorem Builder.kraft_eq_sum (b : Builder) (n : Nat) :
    b.kraft n = ((List.range n).map fun j => (b.list (j + 1)).length * 2 ^ (31 - j)).sum := by
  induction n with
  | zero => rfl
  | succ n ih =>
    rw [b.kraft_succ, ih, List.range_succ, List.map_append, List.sum_append, List.map_singleton, List.sum_singleton,
      Nat.add_sub_add_right 31 1 n, Builder.count]

/-- An offset as the sum of the counts up to its length (42_table_builder R166). -/
theorem Builder.table_ends_eq_sum (b : Builder) {L : Nat} (h : L ≤ 32) :
    b.table.ends.getD L 0 = ((List.range L).map fun j => (b.list (j + 1)).length).sum := by
  rw [b.table_ends h, List.length_flatMap]

/-- The table has a threshold and an offset for each length from 0 to 32 (10_state R28). -/
theorem Builder.table_lengths (b : Builder) : b.table.thr.length = 33 ∧ b.table.ends.length = 33 := by
  obtain ⟨_, _, hends, hthr⟩ := b.buildVars_eq 32
  simp only [Builder.table, hthr (le_refl 32), hends, List.length_map, List.length_range, and_self]

/-- Settles O21: the Kraft sum decides whether `Builder.table` is written, and that table's parts are known one by
one. -/
theorem buildWritesTable : Obligations.BuildWritesTable := by
  unfold Obligations.BuildWritesTable
  intro s t
  simp only [← Builder.kraft_eq_sum]
  refine ⟨exec_build_raise t, fun hk => ?_⟩
  obtain ⟨hthr, hends⟩ := s.builder.table_lengths
  obtain ⟨hhash, _⟩ := Builder.table_hash hk
  exact ⟨s.builder.table, exec_build_table t hk, Builder.build_eq_some.mpr ⟨hk, rfl⟩, s.builder.table_syms, rfl,
    s.builder.table_empty_iff, hthr, hends, hhash, fun L hL => ⟨s.builder.table_thr hL, s.builder.table_ends_eq_sum hL⟩⟩

/-- Settles O22: a table BUILD answers is `Builder.table` of codes that fit, whose slots `Builder.table_hash` gives. -/
theorem buildFillsHash : Obligations.BuildFillsHash := by
  unfold Obligations.BuildFillsHash
  intro b T h e hbuild hh
  obtain ⟨hk, rfl⟩ := Builder.build_eq_some.mp hbuild
  obtain ⟨_, hslot⟩ := Builder.table_hash hk
  exact hslot h e hh

end Sys2Proof.Machine

/-!
# The bootstrap table

SUPPORT. INIT_BOOT with a good dictionary (O23): its build is BUILD of the builder whose lists are the dictionary's
symbols of each length in order.
-/

namespace Sys2Proof.Machine

theorem Builder.bootBuild_eq_ok {b : Builder} {T : Table} : b.bootBuild = .ok T ↔ b.build = some T := by
  unfold Builder.bootBuild
  cases b.build with
  | none => simp only [reduceCtorEq]
  | some x => simp only [BootResult.ok.injEq, Option.some.injEq]

/-- Where no pair is refused, INIT_BOOT's work is BUILD of the dictionary's symbols, by length and in order
(43_bootstrap_dictionary R180). -/
theorem initBoot_eq_bootBuild {d : List (Int × Nat)} (hpairs : ∀ p ∈ d, p.2 ≤ 32 ∧ 0 ≤ p.1 ∧ p.1 < 285)
    (hnodup : (d.map Prod.fst).Nodup) :
    ∃ b : Builder, b.lists.length = 33 ∧ (∀ L, b.list L = (d.filter fun p => p.2 = L).map fun p => p.1.toNat) ∧
      initBoot d = b.bootBuild := by
  have hfresh : ∀ p ∈ d, ∀ l ∈ Builder.cleared.lists, p.1.toNat ∉ l := fun p hp =>
    have ⟨_, hnonneg, _⟩ := hpairs p hp
    (Builder.cleared_above p.1).not_mem hnonneg
  obtain ⟨b, h33, hadd, hlist, _⟩ := Builder.addAll_good d Builder.cleared_ok.1 hpairs hnodup hfresh
  refine ⟨b, h33, fun L => ?_, ?_⟩
  · rw [hlist L, Builder.cleared_list, List.nil_append]
  · have hall := hadd []
    rwa [List.append_nil] at hall

/-- INIT_BOOT where its work succeeds. -/
theorem exec_initBoot_of_ok {s : State} {T : Table} (h : initBoot s.bootDict = .ok T) :
    exec .initBoot s = .next { s with
      bootT := T, builder := Builder.cleared, phase := if s.phase = .resetInit then .idle else s.phase } := by
  simp only [exec, execInitBoot, State.initBoot, h, Res.outcome_ok]

/-- Settles O23: the work is BUILD of the dictionary's lists and it succeeds, so the table it answers is theirs. -/
theorem initBootBuildsBootTable : Obligations.InitBootBuildsBootTable := by
  unfold Obligations.InitBootBuildsBootTable
  intro s hd
  obtain ⟨T, hT⟩ := initBoot_of_dictOk hd
  obtain ⟨hpairs, hnodup, _⟩ := hd
  obtain ⟨b, h33, hlist, hboot⟩ := initBoot_eq_bootBuild hpairs hnodup
  have hbuild : b.build = some T := Builder.bootBuild_eq_ok.mp (hboot.symm.trans hT)
  obtain ⟨_, rfl⟩ := Builder.build_eq_some.mp hbuild
  exact ⟨b, h33, fun L _ => hlist L, hbuild, exec_initBoot_of_ok hT⟩

end Sys2Proof.Machine

/-!
# The elements of a table parse

SUPPORT. COUNT and the two run codes as instructions (O26 to O29), and which of them, or of CLEAR, BUILD and the parse's
result, is due at each position inside PARSE_SYM and PARSE_COPY (O7).
-/

namespace Sys2Proof.Machine

/-! ## COUNT -/

theorem State.setCount_ok {n : Nat} (h : n ≤ 285) (s : State) : s.setCount n = .ok () { s with tpN := n } :=
  if_neg (Nat.not_lt.mpr h)

theorem State.setCount_raise {n : Nat} (h : 285 < n) (s : State) :
    s.setCount n = .raise .tooManySymbols { s with tpN := n } := if_pos h

theorem exec_count_ok {s s1 : State} {v : Nat} {n : BitVec 16} (hr : s.read 16 = .ok v s1) (hn : n.toNat ≤ 285) :
    exec (.count n) s = .next { s1 with tpN := n.toNat, seq := .clear } := by
  simp only [exec, execCount, hr, Res.bind_ok, State.setCount_ok hn, Res.outcome_ok]

theorem exec_count_tooMany {s s1 : State} {v : Nat} {n : BitVec 16} (hr : s.read 16 = .ok v s1) (hn : 285 < n.toNat) :
    exec (.count n) s = .next (State.takeError .tooManySymbols { s1 with tpN := n.toNat }) := by
  simp only [exec, execCount, hr, Res.bind_ok, State.setCount_raise hn, Res.bind_raise, Res.outcome_raise]

theorem exec_count_short {s s1 : State} {e : ErrKind} (hr : s.read 16 = .raise e s1) (n : BitVec 16) :
    exec (.count n) s = .next (s1.takeError e) := by
  simp only [exec, execCount, hr, Res.bind_raise, Res.outcome_raise]

/-- Settles O26: READ's two cases, and the check against 285. -/
theorem countStoresOrRaises : Obligations.CountStoresOrRaises := by
  unfold Obligations.CountStoresOrRaises
  intro s n h
  rcases State.read_spec h (n := 16) (by decide) with ⟨hl, c, hr, hi, hb, hlen⟩ | ⟨hl, c, hr, hi, hb, hlen⟩
  · exact ⟨c, hi, hlen, fun _ => ⟨hb, exec_count_ok hr, exec_count_tooMany hr⟩, fun hx => absurd hl (Nat.not_le.mpr hx)⟩
  · exact ⟨c, hi, hlen, fun hx => absurd hx (Nat.not_le.mpr hl), fun _ => ⟨hb, exec_count_short hr n⟩⟩

/-! ## The runs -/

/-- Settles O27: a skipping run is one subtraction. -/
theorem runSkipLowersRemaining : Obligations.RunSkipLowersRemaining := by
  unfold Obligations.RunSkipLowersRemaining
  intro s rep
  rfl

/-- A run code's length is one a table can hold (44_table_parsing R196). -/
theorem runLength_le (len : BitVec 5) : len.toNat ≤ 32 := Nat.le_of_lt len.isLt

/-- Settles O28: `State.assignRun_ok` at the instruction's repeat count. -/
theorem runAssignAppendsDescending : Obligations.RunAssignAppendsDescending := by
  unfold Obligations.RunAssignAppendsDescending
  intro s rep len _ h33 hr hrep ha
  obtain ⟨b, hrun, hb33, hlist, hother, _⟩ :=
    State.assignRun_ok (rep.toNat + 1) (runLength_le len) h33 hr (by omega) ha
  refine ⟨b, ?_, hb33, hlist, hother⟩
  simp only [exec, execRunAssign, runCount, hrun, Res.outcome_ok, Nat.cast_add, Nat.cast_one]

/-- Settles O29: `State.assignRun_overrun` at the instruction's repeat count. -/
theorem runAssignOverrunRaises : Obligations.RunAssignOverrunRaises := by
  unfold Obligations.RunAssignOverrunRaises
  intro s rep len _ h33 h0 hr hrep ha
  obtain ⟨b, hrun, hb33, hlist, hother⟩ :=
    State.assignRun_overrun (rep.toNat + 1) (runLength_le len) h33 (by omega) hr (by omega) ha
  refine ⟨b, ?_, hb33, ?_, hother⟩
  · simp only [exec, execRunAssign, runCount, hrun, Res.outcome_raise]
  · rwa [show (s.tpRem + 1).toNat = s.tpRem.toNat + 1 by omega] at hlist

/-! ## The position inside the phase -/

/-- `s` parses the table `t`, and `after` is the phase that follows (45_block_decoder R215, R216, R225). -/
def State.Parsing (s : State) (t : WorkTable) (after : Phase) : Prop :=
  s.phase = .parseSym ∧ t = .symT ∧ after = .parseCopy ∨ s.phase = .parseCopy ∧ t = .copyT ∧ after = .blockParams

theorem State.Parsing.phase {s : State} {t : WorkTable} {after : Phase} (h : s.Parsing t after) :
    s.phase = .parseSym ∨ s.phase = .parseCopy := by
  rcases h with ⟨hp, _⟩ | ⟨hp, _⟩
  · exact .inl hp
  · exact .inr hp

theorem State.Parsing.engineNext {s : State} {t : WorkTable} {after : Phase} (h : s.Parsing t after) :
    engineNext s = parseNext t after s := by
  rcases h with ⟨hp, rfl, rfl⟩ | ⟨hp, rfl, rfl⟩ <;> simp only [Machine.engineNext, hp]

/-- Settles O7: `parseNext` at each position. -/
theorem tableParseRunsItsElements : Obligations.TableParseRunsItsElements := by
  unfold Obligations.TableParseRunsItsElements
  intro s hh t after h
  replace h : s.Parsing t after := h
  rw [step_engine hh, engineStep, h.engineNext]
  refine ⟨fun hq => ?clear, fun hq hr => ?build, fun hq he => ?stop, fun hq he => ?done⟩
  case clear => simp only [parseNext, hq]
  case build => simp only [parseNext, hq, if_neg (Int.not_le.mpr hr)]
  case stop => simp only [parseNext, hq, if_pos he]
  case done => simp only [parseNext, hq, he, Bool.false_eq_true, if_false]

end Sys2Proof.Machine

/-!
# The steps of a table parse

SUPPORT. PARSE_TABLE in one and the engine's steps from COUNT to the parse's result end alike (O31). PARSE_TABLE never
writes the position inside the phase, so the two states differ in it alone: `State.withSeq` puts it in, the operations
commute with it, and each part of PARSE_TABLE is matched by the steps at its position (`EndsAs`).
-/

namespace Sys2Proof.Machine

/-! ## The position inside the phase plays no part in a run -/

/-- The state at another position inside its phase. -/
def State.withSeq (q : Seq) (s : State) : State := { s with seq := q }

/-- The result at another position inside the phase. -/
def Res.withSeq {α : Type} (q : Seq) (r : Res α) : Res α :=
  match r with
  | .ok v s => .ok v (s.withSeq q)
  | .raise e s => .raise e (s.withSeq q)
  | .fault f => .fault f
  | .refused x => .refused x

theorem State.addSymbol_withSeq (q : Seq) (x : Int) (L : Nat) (s : State) :
    (s.withSeq q).addSymbol x L = (s.addSymbol x L).withSeq q := by
  simp only [State.addSymbol, State.withSeq]
  cases s.builder.addSymbol x L <;> rfl

theorem State.assignRun_withSeq (q : Seq) (len rep : Nat) (s : State) :
    (s.withSeq q).assignRun len rep = (s.assignRun len rep).withSeq q := by
  induction rep generalizing s with
  | zero => rfl
  | succ rep ih =>
    have hadd : (s.withSeq q).addSymbol (s.withSeq q).tpRem len = (s.addSymbol s.tpRem len).withSeq q :=
      s.addSymbol_withSeq q s.tpRem len
    simp only [State.assignRun, hadd]
    cases s.addSymbol s.tpRem len with
    | ok _ s' => exact ih { s' with tpRem := s'.tpRem - 1 }
    | _ => rfl

theorem State.run_withSeq (q : Seq) (rc : Nat) (s : State) : (s.withSeq q).run rc = (s.run rc).withSeq q := by
  unfold State.run
  split
  · rfl
  · exact s.assignRun_withSeq q _ _

/-! ## A run in the run loop -/

/-- A run code lowers `tp_rem` and changes the builder, or raises (44_table_parsing R195 to R197). -/
theorem State.run_cases {s : State} (ha : s.builder.Above s.tpRem) (rc : Nat) :
    (∃ b r, s.run rc = .ok () { s with builder := b, tpRem := r } ∧ r < s.tpRem ∧ b.Above r) ∨
    ∃ e u, s.run rc = .raise e u := by
  unfold State.run
  split
  · have hlt : s.tpRem - ((rc / 32 + 1 : Nat) : Int) < s.tpRem := by omega
    exact .inl ⟨s.builder, _, rfl, hlt, ha.mono (le_of_lt hlt)⟩
  · rcases s.assignRun_cases (rc % 32) (rc / 32 + 1) with ⟨b, hb, _, hab⟩ | ⟨e, b, r, hb, _⟩ | ⟨_, hno⟩
    · exact .inl ⟨b, _, hb, by omega, hab ha⟩
    · exact .inr ⟨e, _, hb⟩
    · exact absurd ha hno

theorem State.runLoop_of_neg {s : State} (h : s.tpRem < 0) (k : Nat) : State.runLoop k s = .ok () s := by
  cases k with
  | zero => rfl
  | succ k => exact if_neg (Int.not_le.mpr h)

theorem State.runLoop_succ {s : State} (h : 0 ≤ s.tpRem) (k : Nat) :
    State.runLoop (k + 1) s =
      (s.decode .bootT).bind fun rc s' => (s'.run rc).bind fun _ s'' => State.runLoop k s'' := if_pos h

/-! ## How a parse ends -/

/-- How the engine leaves a parse whose result is `r`: the next phase, the soft stop, or the error (44_table_parsing
R190; 45_block_decoder R215, R225). -/
inductive ParseEnds (after : Phase) : Res Nat → State → Prop where
  | built (u : State) : ParseEnds after (.ok 1 u) { u with phase := after, seq := .start }
  | empty (u : State) (q : Seq) : ParseEnds after (.ok 0 u) (u.withSeq q).softStop
  | raised (e : ErrKind) (u : State) (q : Seq) : ParseEnds after (.raise e u) ((u.withSeq q).takeError e)

/-- Some number of steps of `s` leaves the parse as its result `r` says. -/
def EndsAs (after : Phase) (s : State) (r : Res Nat) : Prop :=
  ∃ k s', Sys2Proof.core.run k s = .next s' ∧ ParseEnds after r s'

theorem EndsAs.of_step {after : Phase} {s u : State} {r : Res Nat} (h : step s = .next u) (hu : EndsAs after u r) :
    EndsAs after s r := by
  obtain ⟨k, s', hk, he⟩ := hu
  exact ⟨k + 1, s', (run_next h).trans hk, he⟩

theorem EndsAs.of_last {after : Phase} {s u : State} {r : Res Nat} (h : step s = .next u)
    (he : ParseEnds after r u) : EndsAs after s r := ⟨1, u, run_one h, he⟩

/-! ## PARSE_TABLE, part by part -/

theorem State.build_ok {s : State} (h : s.builder.kraft 32 ≤ 2 ^ 32) (t : TableId) :
    s.build t = .ok () (s.setTable t s.builder.table) := by
  simp only [State.build, Builder.build_eq_some.mpr ⟨h, rfl⟩]

theorem State.build_raise {s : State} (h : 2 ^ 32 < s.builder.kraft 32) (t : TableId) :
    s.build t = .raise .oversubscribedTable s := by
  simp only [State.build, Builder.build_eq_none.mpr h]

/-- PARSE_TABLE's result, once BUILD has run (44_table_parsing R198). -/
def State.parseResult (t : WorkTable) (s : State) : Res Nat := .ok (if (s.table t.id).empty then 0 else 1) s

/-- PARSE_TABLE from BUILD on (44_table_parsing R198). -/
def State.parseBuild (t : WorkTable) (s : State) : Res Nat := (s.build t.id).bind fun _ s' => s'.parseResult t

theorem State.parseBuild_ok {s : State} (h : s.builder.kraft 32 ≤ 2 ^ 32) (t : WorkTable) :
    s.parseBuild t = (s.setTable t.id s.builder.table).parseResult t := by
  rw [State.parseBuild, State.build_ok h, Res.bind_ok]

theorem State.parseBuild_raise {s : State} (h : 2 ^ 32 < s.builder.kraft 32) (t : WorkTable) :
    s.parseBuild t = .raise .oversubscribedTable s := by
  rw [State.parseBuild, State.build_raise h, Res.bind_raise]

/-- PARSE_TABLE from CLEAR on (44_table_parsing R193). -/
def State.parseRuns (t : WorkTable) (s : State) : Res Nat :=
  (State.runLoop s.tpN { s.clearBuilder with tpRem := (s.tpN : Int) - 1 }).bind fun _ s' => s'.parseBuild t

theorem State.parseTable_eq (t : WorkTable) (s : State) :
    s.parseTable t = (s.read 16).bind fun n s1 => (s1.setCount n).bind fun _ s2 => s2.parseRuns t := rfl

section
variable {s : State} {t : WorkTable} {after : Phase}

theorem endsAs_result (hh : s.host = []) (hp : s.Parsing t after) :
    EndsAs after (s.withSeq .result) (s.parseResult t) := by
  obtain ⟨_, _, hstop, hdone⟩ := tableParseRunsItsElements (s.withSeq .result) hh t after hp
  have htab : (s.withSeq .result).table t.id = s.table t.id := by cases t <;> rfl
  rw [htab] at hstop hdone
  cases he : (s.table t.id).empty with
  | true =>
    simp only [State.parseResult, he, if_true]
    exact .of_last (hstop rfl he) (.empty s .result)
  | false =>
    simp only [State.parseResult, he, Bool.false_eq_true, if_false]
    exact .of_last (hdone rfl he) (.built s)

theorem endsAs_build (hh : s.host = []) (hp : s.Parsing t after) (hr : s.tpRem < 0) :
    EndsAs after (s.withSeq .runs) (s.parseBuild t) := by
  obtain ⟨_, hbuild, _, _⟩ := tableParseRunsItsElements (s.withSeq .runs) hh t after hp
  have hstep := hbuild rfl hr
  rcases Nat.lt_or_ge (2 ^ 32) (s.builder.kraft 32) with hk | hk
  · rw [State.parseBuild_raise hk]
    exact .of_last (hstep.trans (exec_build_raise (s := s.withSeq .result) t.id hk)) (.raised _ s .result)
  · have hset : (s.withSeq .result).setTable t.id s.builder.table =
        (s.setTable t.id s.builder.table).withSeq .result := by cases t <;> rfl
    rw [State.parseBuild_ok hk]
    refine .of_step (hstep.trans ((exec_build_table (s := s.withSeq .result) t.id hk).trans (congrArg _ hset))) ?_
    refine endsAs_result ((State.setTable_host ..).trans hh) ?_
    simpa only [State.Parsing, State.setTable_phase] using hp

/-- The run loop, run by run (44_table_parsing R193, R194): BOOT_T yields symbols, the builder holds the slots already
given a length only, so none is added twice, and each run lowers `tp_rem`, so a bound above `tp_rem` is enough. -/
theorem endsAs_runs (k : Nat) {s : State} (hh : s.host = []) (hp : s.Parsing t after) (hboot : s.bootT.Ok)
    (ha : s.builder.Above s.tpRem) (hk : s.tpRem < (k : Int)) :
    EndsAs after (s.withSeq .runs) ((State.runLoop k s).bind fun _ s' => s'.parseBuild t) := by
  induction k generalizing s with
  | zero => exact endsAs_build hh hp hk
  | succ k ih =>
    rcases lt_or_ge s.tpRem 0 with hneg | h0
    · rw [State.runLoop_of_neg hneg]
      exact endsAs_build hh hp hneg
    have hengine : step (s.withSeq .runs) = engineStep (s.withSeq .runs) := step_engine hh
    have hnext := engineNext_run (s := s.withSeq .runs) hp.phase rfl h0
    rw [State.runLoop_succ h0, State.decode, State.table_bootT]
    cases hd : s.bootT.decode s.inMem s.bc with
    | raise e c =>
      exact .of_last (hengine.trans (engineStep_code_raise hnext hd)) (.raised e { s with bc := c } .runs)
    | ok rc c =>
      obtain ⟨hrc, _⟩ := hboot.decode_ok hd
      have hstep : step (s.withSeq .runs) = ((State.run rc { s with bc := c }).withSeq .runs).outcome := by
        rw [hengine, engineStep_code hnext hd (if_pos hrc), exec_decodeRun hrc, ← State.run_withSeq]
        rfl
      rw [State.withCursor_ok, Res.bind_ok]
      rcases State.run_cases (s := { s with bc := c }) ha rc with ⟨b, r, hrun, hlt, hab⟩ | ⟨e, u, hrun⟩
      · rw [hrun] at hstep ⊢
        have hlt' : r < s.tpRem := hlt
        exact .of_step hstep (ih hh hp hboot hab (by simp only; omega))
      · rw [hrun] at hstep ⊢
        exact .of_last hstep (.raised e u .runs)

theorem endsAs_clear (hh : s.host = []) (hp : s.Parsing t after) (hboot : s.bootT.Ok) :
    EndsAs after (s.withSeq .clear) (s.parseRuns t) := by
  obtain ⟨hclear, _⟩ := tableParseRunsItsElements (s.withSeq .clear) hh t after hp
  exact .of_step (hclear rfl) (endsAs_runs s.tpN (s := { s.clearBuilder with tpRem := (s.tpN : Int) - 1 }) hh hp hboot
    (Builder.cleared_above _) (by simp only; omega))

/-- COUNT's step reads the number PARSE_TABLE reads (44_table_parsing R191, R192). -/
theorem endsAs_parseTable (hh : s.host = []) (hi : s.bc.Inv s.inMem) (hboot : s.bootT.Ok) (hq : s.seq = .start)
    (hp : s.Parsing t after) : EndsAs after s (s.parseTable t) := by
  have hnext : engineNext s = rawNext .count s := RawDue.engineNext (.inr (.inl ⟨rfl, hp.phase, hq⟩))
  rw [State.parseTable_eq]
  rcases State.read_spec hi (n := 16) (by decide) with ⟨hl, c, hr, _⟩ | ⟨_, c, hr, _⟩
  · have hn : (BitVec.ofNat 16 (s.inMem.streamValue s.bc.inLen s.bc.bitpos 16)).toNat =
        s.inMem.streamValue s.bc.inLen s.bc.bitpos 16 := Nat.mod_eq_of_lt (s.inMem.streamValue_lt ..)
    have hstep : step s = exec (.count (BitVec.ofNat 16 (s.inMem.streamValue s.bc.inLen s.bc.bitpos 16))) s :=
      (step_engine hh).trans (engineStep_raw hnext hi hl rfl)
    rw [hr, Res.bind_ok]
    generalize s.inMem.streamValue s.bc.inLen s.bc.bitpos 16 = n at hn hstep hr ⊢
    by_cases h285 : n ≤ 285
    · rw [State.setCount_ok h285, Res.bind_ok]
      have hexec := exec_count_ok hr (hn.le.trans h285)
      rw [hn] at hexec
      exact .of_step (hstep.trans hexec) (endsAs_clear (s := { s with bc := c, tpN := n }) hh hp hboot)
    · rw [State.setCount_raise (Nat.not_le.mp h285), Res.bind_raise]
      have hexec := exec_count_tooMany hr (hn.symm ▸ Nat.not_le.mp h285)
      rw [hn] at hexec
      exact .of_last (hstep.trans hexec) (.raised _ { s with bc := c, tpN := n } s.seq)
  · rw [hr, Res.bind_raise]
    have hstep : step s = .next (State.takeError .unexpectedEndOfInput { s with bc := c }) := by
      simp only [step_engine hh, engineStep, hnext, rawNext, decodeValue]
      exact exec_count_short hr _
    exact .of_last hstep (.raised _ { s with bc := c } s.seq)

end

/-- Settles O31: `endsAs_parseTable`, read off result by result. -/
theorem parseStepsRefineParseTable : Obligations.ParseStepsRefineParseTable := by
  unfold Obligations.ParseStepsRefineParseTable
  intro s t after hh hi hboot hq hp
  obtain ⟨k, s', hk, he⟩ := endsAs_parseTable hh hi hboot hq hp
  generalize s.parseTable t = r at he
  cases he with
  | built u =>
    refine ⟨k, .start, _, hk, fun v h => ?_, fun v h => ?_, fun e v h => ?_⟩ <;> cases h
    rfl
  | empty u q | raised e u q =>
    refine ⟨k, q, _, hk, fun v h => ?_, fun v h => ?_, fun e v h => ?_⟩ <;> cases h
    rfl

end Sys2Proof.Machine

/-!
# A good table descriptor

SUPPORT. PARSE_TABLE on a descriptor whose runs cover its slots (O30). The builder after the runs read so far is
`descriptorBuilder` of the lengths they gave, since a slot not reached yet has no length; `State.run_descriptor` says
that one run more keeps this, and `State.runLoop_descriptor` follows run by run.
-/

namespace Sys2Proof.Machine

/-! ## The slots of one length -/

theorem mem_slotsOfLength {n : Nat} {lens : List Nat} {L x : Nat} :
    x ∈ slotsOfLength n lens L ↔ ∃ i < n, lens.getD i 0 = L ∧ n - 1 - i = x := by
  simp only [slotsOfLength, List.mem_filterMap, List.mem_range, Option.ite_none_right_eq_some, Option.some.injEq]

/-- Slots past the lengths listed have none, so they are in no list. -/
theorem slotsOfLength_eq {n : Nat} {lens : List Nat} {L : Nat} (hL : L ≠ 0) (hn : lens.length ≤ n) :
    slotsOfLength n lens L =
      (List.range lens.length).filterMap fun i => if lens.getD i 0 = L then some (n - 1 - i) else none := by
  obtain ⟨d, rfl⟩ := Nat.exists_eq_add_of_le hn
  rw [slotsOfLength, List.range_add, List.filterMap_append, List.filterMap_map, List.append_right_eq_self,
    List.filterMap_eq_nil_iff]
  intro j _
  rw [Function.comp, List.getD_eq_default _ _ (Nat.le_add_right ..), if_neg hL.symm]

/-- One run more gives the highest slots left to the list of its length (44_table_parsing R196). -/
theorem slotsOfLength_append_replicate {n : Nat} {lens : List Nat} {L rep l : Nat} (hL : L ≠ 0)
    (hn : lens.length + rep ≤ n) :
    slotsOfLength n (lens ++ List.replicate rep l) L =
      slotsOfLength n lens L ++ if L = l then (List.range rep).map fun i => n - 1 - (lens.length + i) else [] := by
  rw [slotsOfLength_eq hL (by simpa using hn), slotsOfLength_eq hL (by omega), List.length_append,
    List.length_replicate, List.range_add, List.filterMap_append, List.filterMap_map]
  congr 1
  · refine List.filterMap_congr fun i hi => ?_
    rw [List.getD_append _ _ _ _ (List.mem_range.mp hi)]
  · have hget : ∀ i ∈ List.range rep, (lens ++ List.replicate rep l).getD (lens.length + i) 0 = l := fun i hi => by
      rw [List.getD_append_right _ _ _ _ (Nat.le_add_right ..), Nat.add_sub_cancel_left,
        List.getD_replicate _ (List.mem_range.mp hi)]
    split
    next h =>
      rw [← List.filterMap_eq_map]
      exact List.filterMap_congr fun i hi => by simp only [Function.comp, hget i hi, h, if_true]
    next h =>
      exact List.filterMap_eq_nil_iff.mpr fun i hi => by simp only [Function.comp, hget i hi, Ne.symm h, if_false]

/-! ## The builder of a descriptor -/

/-- Two builders with the same 33 lists. -/
theorem Builder.ext_list {a b : Builder} (ha : a.lists.length = 33) (hb : b.lists.length = 33)
    (h : ∀ L, L < 33 → a.list L = b.list L) : a = b := by
  have hlists : a.lists = b.lists := List.ext_getElem (ha.trans hb.symm) fun L h1 h2 => by
    have := h L (ha ▸ h1)
    rwa [Builder.list, Builder.list, List.getD_eq_getElem _ _ h1, List.getD_eq_getElem _ _ h2] at this
  cases a; cases b; exact congrArg _ hlists

theorem descriptorBuilder_length (n : Nat) (lens : List Nat) : (descriptorBuilder n lens).lists.length = 33 := by
  simp [descriptorBuilder]

theorem descriptorBuilder_list (n : Nat) (lens : List Nat) {L : Nat} (h0 : L ≠ 0) (h : L < 33) :
    (descriptorBuilder n lens).list L = slotsOfLength n lens L := by
  obtain ⟨j, rfl⟩ := Nat.exists_eq_succ_of_ne_zero h0
  simp [descriptorBuilder, Builder.list, List.getD_eq_getElem?_getD, show j < 32 by omega]

/-- Before the first run the builder is cleared. -/
theorem descriptorBuilder_nil (n : Nat) : descriptorBuilder n [] = Builder.cleared := by
  refine Builder.ext_list (descriptorBuilder_length n []) Builder.cleared_ok.1 fun L hL => ?_
  rw [Builder.cleared_list]
  by_cases h0 : L = 0
  · rw [h0]; rfl
  · rw [descriptorBuilder_list n [] h0 hL, slotsOfLength_eq h0 (Nat.zero_le n)]; rfl

/-- A skipped slot is in no list, and nothing is one past slot 0 (44_table_parsing R195). -/
theorem descriptorBuilder_skip (n : Nat) (lens : List Nat) (rep : Nat) :
    descriptorBuilder n (lens ++ List.replicate rep 0) = descriptorBuilder n lens := by
  have hget (i : Nat) : (lens ++ List.replicate rep 0).getD i 0 = lens.getD i 0 := by
    simp only [List.getD_eq_getElem?_getD, List.getElem?_append, List.getElem?_replicate]
    split
    · rfl
    · rw [List.getElem?_eq_none (by omega)]
      split <;> rfl
  simp only [descriptorBuilder, slotsOfLength, hget]

/-- The slots with a length are the ones the runs have passed (44_table_parsing R193). -/
theorem descriptorBuilder_above {n : Nat} {lens : List Nat} :
    (descriptorBuilder n lens).Above ((n : Int) - 1 - lens.length) := by
  intro l hl x hx
  simp only [descriptorBuilder, List.mem_cons, List.mem_map] at hl
  rcases hl with rfl | ⟨j, _, rfl⟩
  · cases hx
  · obtain ⟨i, hi, hget, rfl⟩ := mem_slotsOfLength.mp hx
    have hlt : i < lens.length := by
      by_contra hge
      rw [List.getD_eq_default _ _ (Nat.not_lt.mp hge)] at hget
      exact Nat.succ_ne_zero _ hget.symm
    omega

/-! ## The runs of a descriptor -/

/-- The machine inside the run loop of a descriptor of `n` slots, the lengths `lens` read (44_table_parsing R193). -/
def State.HasRead (s : State) (n : Nat) (lens : List Nat) : Prop :=
  s.builder = descriptorBuilder n lens ∧ s.tpRem = (n : Int) - 1 - lens.length

/-- The state once the lengths `lens` of a descriptor of `n` slots are read, the cursor at `c`. -/
def State.afterRuns (s : State) (n : Nat) (lens : List Nat) (c : Cursor) : State :=
  { s with bc := c, builder := descriptorBuilder n lens, tpRem := (n : Int) - 1 - lens.length }

/-- A run that assigns no slot past slot 0 adds its lengths to those read (44_table_parsing R195, R196). -/
theorem State.run_descriptor {s : State} {n : Nat} {lens : List Nat} (hn : n ≤ 285) (hs : s.HasRead n lens)
    {rc : Nat} (hrc : rc % 32 ≠ 0 → lens.length + (rc / 32 + 1) ≤ n) :
    s.run rc = .ok () (s.afterRuns n (lens ++ List.replicate (rc / 32 + 1) (rc % 32)) s.bc) := by
  obtain ⟨hb, hrem⟩ := hs
  have hrem' : (n : Int) - 1 - (lens ++ List.replicate (rc / 32 + 1) (rc % 32)).length =
      s.tpRem - ((rc / 32 + 1 : Nat) : Int) := by
    rw [hrem, List.length_append, List.length_replicate]; omega
  rw [State.run, State.afterRuns, hrem']
  split
  next h0 => rw [h0, descriptorBuilder_skip, ← hb]; rfl
  next h0 =>
    have hle := hrc h0
    have h33 : s.builder.lists.length = 33 := hb ▸ descriptorBuilder_length n lens
    have habove : s.builder.Above s.tpRem := by rw [hb, hrem]; exact descriptorBuilder_above
    obtain ⟨b, hrun, hb33, hlist, hother, _⟩ := State.assignRun_ok (s := s) (len := rc % 32) (rc / 32 + 1) (by omega)
      h33 (by omega) (by omega) habove
    rw [hrun]
    congr 2
    refine Builder.ext_list hb33 (descriptorBuilder_length ..) fun L hL => ?_
    by_cases hL0 : L = 0
    · rw [hL0, hother 0 (Ne.symm h0), hb]; rfl
    rw [descriptorBuilder_list n _ hL0 hL, slotsOfLength_append_replicate hL0 hle,
      ← descriptorBuilder_list n lens hL0 hL, ← hb]
    split
    next h =>
      rw [h, hlist]
      congr 1
      exact List.map_congr_left fun i _ => by omega
    next h => rw [hother L h, List.append_nil]

theorem runLengths_cons (rc : Nat) (rcs : List Nat) :
    runLengths (rc :: rcs) = List.replicate (rc / 32 + 1) (rc % 32) ++ runLengths rcs := rfl

/-- Runs decoded one after another: the first, and those after it. -/
theorem runsAt_succ {m : Memory} {boot : Table} {k : Nat} {c c' : Cursor} {rcs : List Nat}
    (h : runsAt m boot (k + 1) c = some (rcs, c')) :
    ∃ rc rcs' c1, rcs = rc :: rcs' ∧ boot.decode m c = .ok rc c1 ∧ runsAt m boot k c1 = some (rcs', c') := by
  simp only [runsAt] at h
  split at h
  · cases h
  next rc c1 hd =>
    split at h
    · cases h
    next rcs' c2 hr => cases h; exact ⟨rc, rcs', c1, rfl, hd, hr⟩

/-- The run loop reads the runs of a descriptor up to the one that covers the last slot (44_table_parsing R193 to R196):
`lens` are the lengths read before, `k` the runs still to come. -/
theorem State.runLoop_descriptor {n k : Nat} (hn : n ≤ 285) {s : State} {lens rcs : List Nat} {c : Cursor} (fuel : Nat)
    (hs : s.HasRead n lens) (hfuel : n ≤ fuel + lens.length) (hruns : runsAt s.inMem s.bootT k s.bc = some (rcs, c))
    (hcover : n ≤ (lens ++ runLengths rcs).length) (hlast : ∀ j < k, (lens ++ runLengths (rcs.take j)).length < n)
    (hskip : ∀ i x, n ≤ i → (lens ++ runLengths rcs)[i]? = some x → x = 0) :
    State.runLoop fuel s = .ok () (s.afterRuns n (lens ++ runLengths rcs) c) := by
  induction k generalizing s lens rcs fuel with
  | zero =>
    obtain ⟨hb, hrem⟩ := hs
    cases hruns
    simp only [runLengths, List.flatMap_nil, List.append_nil] at hcover ⊢
    rw [State.runLoop_of_neg (by omega), State.afterRuns, ← hb, ← hrem]
  | succ k ih =>
    obtain ⟨rc, rcs', c1, rfl, hd, hruns'⟩ := runsAt_succ hruns
    have hlt : lens.length < n := by simpa [runLengths] using hlast 0 (Nat.succ_pos k)
    obtain ⟨fuel, rfl⟩ : ∃ f, fuel = f + 1 := ⟨fuel - 1, by omega⟩
    have hrem0 : 0 ≤ s.tpRem := by rw [hs.2]; omega
    rw [runLengths_cons, ← List.append_assoc] at hcover hskip ⊢
    have hrc : rc % 32 ≠ 0 → lens.length + (rc / 32 + 1) ≤ n := fun h0 => by
      by_contra hgt
      refine h0 (hskip (lens.length + rc / 32) _ (by omega) ?_)
      rw [List.getElem?_append_left (by simp), List.getElem?_append_right (by omega)]
      simp
    have hs' : State.HasRead { s with bc := c1 } n lens := hs
    rw [State.runLoop_succ hrem0, State.decode, State.table_bootT, hd, State.withCursor_ok, Res.bind_ok,
      State.run_descriptor hn hs' hrc, Res.bind_ok]
    refine ih fuel ⟨rfl, rfl⟩ ?_ hruns' hcover (fun j hj => ?_) hskip
    · simp only [List.length_append, List.length_replicate]; omega
    · have := hlast (j + 1) (by omega)
      rwa [List.take_succ_cons, runLengths_cons, ← List.append_assoc] at this

/-! ## The table of a descriptor -/

/-- A run's length has 5 bits (44_table_parsing R194). -/
theorem lt_of_mem_runLengths {rcs : List Nat} {x : Nat} (h : x ∈ runLengths rcs) : x < 32 := by
  obtain ⟨rc, _, hx⟩ := List.mem_flatMap.mp h
  rw [List.eq_of_mem_replicate hx]
  exact Nat.mod_lt _ (by decide)

/-- The table has a code exactly where some slot has a length (44_table_parsing R198). -/
theorem descriptorBuilder_empty_iff {n : Nat} {lens : List Nat} (hlt : ∀ x ∈ lens, x < 32)
    (hskip : ∀ i x, n ≤ i → lens[i]? = some x → x = 0) :
    (descriptorBuilder n lens).table.empty = false ↔ ∃ x ∈ lens, x ≠ 0 := by
  rw [← Bool.not_eq_true, Builder.table_empty_iff, not_iff_comm]
  push Not
  constructor
  · intro hall L h1 h32
    rw [descriptorBuilder_list n lens (by omega) (by omega), List.eq_nil_iff_forall_not_mem]
    intro x hx
    obtain ⟨i, _, hget, _⟩ := mem_slotsOfLength.mp hx
    rcases Nat.lt_or_ge i lens.length with hi | hi
    · rw [List.getD_eq_getElem _ _ hi] at hget
      exact absurd (hget.symm.trans (hall _ (List.getElem_mem hi))) (by omega)
    · rw [List.getD_eq_default _ _ hi] at hget
      omega
  · intro hall x hx
    by_contra h0
    have hx32 := hlt x hx
    obtain ⟨i, hi⟩ := List.mem_iff_getElem?.mp hx
    have hin : i < n := by
      by_contra hge
      exact h0 (hskip i x (Nat.not_lt.mp hge) hi)
    have hmem : n - 1 - i ∈ slotsOfLength n lens x :=
      mem_slotsOfLength.mpr ⟨i, hin, by rw [List.getD_eq_getElem?_getD, hi]; rfl, rfl⟩
    rw [← descriptorBuilder_list n lens h0 (by omega), hall x (by omega) (by omega)] at hmem
    cases hmem

/-- Settles O30: the run loop leaves the descriptor's builder (`State.runLoop_descriptor`), and BUILD its table. -/
theorem parseTableReadsDescriptor : Obligations.ParseTableReadsDescriptor := by
  unfold Obligations.ParseTableReadsDescriptor
  intro s t n k rcs lens c c' _ _ _ _ hn hread hruns hlens hcover hlast hskip hkraft
  have hr : s.read 16 = .ok n { s with bc := c } := by rw [State.read, hread, State.withCursor_ok]
  have hloop : State.runLoop n { s with bc := c, tpN := n, builder := Builder.cleared, tpRem := (n : Int) - 1 } =
      .ok () (State.afterRuns { s with tpN := n } n lens c') := by
    rw [hlens] at hcover hskip ⊢
    exact State.runLoop_descriptor (lens := []) hn n ⟨(descriptorBuilder_nil n).symm, by simp⟩ (by omega) hruns hcover
      hlast hskip
  have hempty := descriptorBuilder_empty_iff (hlens ▸ fun _ => lt_of_mem_runLengths) hskip
  refine ⟨if (descriptorBuilder n lens).table.empty then 0 else 1, ?_, ?_, ?_⟩
  · have hparse : s.parseTable t = (State.afterRuns { s with tpN := n } n lens c').parseBuild t := by
      rw [State.parseTable_eq, hr, Res.bind_ok, State.setCount_ok hn, Res.bind_ok, State.parseRuns, State.clearBuilder,
        hloop, Res.bind_ok]
    have hbuild := State.parseBuild_ok (s := .afterRuns { s with tpN := n } n lens c') hkraft t
    rw [exec, execParseTable, hparse, hbuild, State.parseResult, State.table_setTable, Res.keep_ok, Res.outcome_ok]
    cases t <;> rfl
  · split
    · exact .inl rfl
    · exact .inr rfl
  · rw [← hempty]
    cases (descriptorBuilder n lens).table.empty <;> simp

end Sys2Proof.Machine

/-!
# The elements of a block

SUPPORT. HDR, PARAMS and LIT as instructions (O33 to O35). Each of HDR's and PARAMS's fields is one DROP or READ, so the
first field the stream is too short for is where they raise (`State.drop_spec`, `State.read_spec`).
-/

namespace Sys2Proof.Machine

theorem Cursor.limit_eq (c : Cursor) : c.limit = 8 * c.inLen + 32 := rfl

/-! ## HDR -/

/-- The effective output size, the case of no hint first (45_block_decoder R213). -/
theorem targetOf_eq (declared : Nat) (hint : Word) :
    targetOf declared hint = if hint = 0 then declared else min declared hint.toNat := ite_not ..

/-- Settles O33: field by field, the first one the stream is too short for raises. -/
theorem hdrSetsSizes : Obligations.HdrSetsSizes := by
  unfold Obligations.HdrSetsSizes
  intro s magic size reserved h
  have hle := h.bitpos_le_limit
  simp only [Cursor.limit_eq] at hle
  rcases State.drop_spec h (n := 32) (by decide) with ⟨hl1, c1, e1, i1, b1, n1⟩ | ⟨hl1, c1, e1, i1, b1, n1⟩
  case inr =>
    simp only [Cursor.limit_eq] at hl1
    refine ⟨fun hroom => absurd hroom (by omega), fun _ => ⟨c1, s.declared, ?_, ?_, i1, n1, ?_⟩⟩
    · simp only [exec, execHdr, e1, Res.bind_raise, Res.outcome_raise]
    · rw [if_pos (by omega)]
    · omega
  rcases State.read_spec (s := { s with bc := c1 }) i1 (n := 32) (by decide) with
    ⟨hl2, c2, e2, i2, b2, n2⟩ | ⟨hl2, c2, e2, i2, b2, n2⟩
  case inr =>
    simp only [Cursor.limit_eq] at hl1 hl2 b2 n2
    refine ⟨fun hroom => absurd hroom (by omega),
      fun _ => ⟨c2, s.declared, ?_, ?_, i2, n2.trans n1, ?_⟩⟩
    · simp only [exec, execHdr, e1, e2, Res.bind_ok, Res.bind_raise, Res.outcome_raise]
    · rw [if_pos (by omega)]
    · omega
  rcases State.drop_spec (s := { s with bc := c2, declared := size.toNat }) i2 (n := 32) (by decide) with
    ⟨hl3, c3, e3, i3, b3, n3⟩ | ⟨hl3, c3, e3, i3, b3, n3⟩
  case inr =>
    simp only [Cursor.limit_eq] at hl1 hl2 hl3 b2 n2 b3 n3
    refine ⟨fun hroom => absurd hroom (by omega),
      fun _ => ⟨c3, size.toNat, ?_, ?_, i3, n3.trans (n2.trans n1), ?_⟩⟩
    · simp only [exec, execHdr, e1, e2, e3, Res.bind_ok, Res.bind_raise, Res.outcome_raise]
    · rw [if_neg (by omega)]
    · omega
  simp only [Cursor.limit_eq] at hl1 hl2 hl3 b2 n2 b3 n3
  refine ⟨fun _ => ⟨c3, targetOf size.toNat s.argOutHint, ?_, targetOf_eq .., i3, n3.trans (n2.trans n1), by omega⟩,
    fun hshort => absurd hshort (by omega)⟩
  simp only [exec, execHdr, e1, e2, e3, Res.bind_ok, Res.outcome_ok, BitVec.ofNat_toNat, BitVec.setWidth_eq]

/-! ## PARAMS -/

/-- Settles O34: field by field, the first one the stream is too short for raises. -/
theorem paramsSetsBlock : Obligations.ParamsSetsBlock := by
  unfold Obligations.ParamsSetsBlock
  intro s rsv sv m h
  have hle := h.bitpos_le_limit
  simp only [Cursor.limit_eq] at hle
  rcases State.drop_spec h (n := 4) (by decide) with ⟨hl1, c1, e1, i1, b1, n1⟩ | ⟨hl1, c1, e1, i1, b1, n1⟩
  case inr =>
    simp only [Cursor.limit_eq] at hl1
    refine ⟨fun hroom => absurd hroom (by omega), fun _ => ⟨c1, s.wsb, ?_, ?_, i1, n1, ?_⟩⟩
    · simp only [exec, execParams, e1, Res.bind_raise, Res.outcome_raise]
    · rw [if_pos (by omega)]
    · omega
  rcases State.read_spec (s := { s with bc := c1 }) i1 (n := 4) (by decide) with
    ⟨hl2, c2, e2, i2, b2, n2⟩ | ⟨hl2, c2, e2, i2, b2, n2⟩
  case inr =>
    simp only [Cursor.limit_eq] at hl1 hl2 b2 n2
    refine ⟨fun hroom => absurd hroom (by omega),
      fun _ => ⟨c2, s.wsb, ?_, ?_, i2, n2.trans n1, ?_⟩⟩
    · simp only [exec, execParams, e1, e2, Res.bind_ok, Res.bind_raise, Res.outcome_raise]
    · rw [if_pos (by omega)]
    · omega
  rcases State.read_spec (s := { s with bc := c2, wsb := sv.toNat + 1 }) i2 (n := 4) (by decide) with
    ⟨hl3, c3, e3, i3, b3, n3⟩ | ⟨hl3, c3, e3, i3, b3, n3⟩
  case inr =>
    simp only [Cursor.limit_eq] at hl1 hl2 hl3 b2 n2 b3 n3
    refine ⟨fun hroom => absurd hroom (by omega),
      fun _ => ⟨c3, sv.toNat + 1, ?_, ?_, i3, n3.trans (n2.trans n1), ?_⟩⟩
    · simp only [exec, execParams, paramsWsb, e1, e2, e3, Res.bind_ok, Res.bind_raise, Res.outcome_raise]
    · rw [if_neg (by omega)]
    · omega
  simp only [Cursor.limit_eq] at hl1 hl2 hl3 b2 n2 b3 n3
  refine ⟨fun _ => ⟨c3, ?_, i3, n3.trans (n2.trans n1), by omega⟩, fun hshort => absurd hshort (by omega)⟩
  simp only [exec, execParams, paramsWsb, paramsCodes, Nat.shiftLeft_eq, e1, e2, e3, Res.bind_ok, Res.outcome_ok,
    Nat.reducePow]

/-! ## LIT -/

theorem exec_lit_room {s : State} (b : Byte) (h : s.outPos < s.target) :
    exec (.lit b) s = .next { s with
      outMem := s.outMem.write s.outPos b, outPos := s.outPos + 1, phase := .codeTest } := by
  simp only [exec, execLit, State.emit_room b h, Res.bind_ok, Res.outcome_ok]

/-- Settles O35: the byte is one write of OUT. -/
theorem litWritesOneByte : Obligations.LitWritesOneByte := by
  unfold Obligations.LitWritesOneByte
  intro s byte hroom hwf
  exact ⟨_, exec_lit_room byte hroom, Memory.write_wf _ _ _ hwf, Memory.read_write_same _ _ _ hwf,
    fun a ha => Memory.read_write_other _ _ _ _ ha⟩

end Sys2Proof.Machine

/-!
# The phases without an element

SUPPORT. What the engine does in a phase that fetches no element (O6, O8), and START (O32).
-/

namespace Sys2Proof.Machine

/-! ## The engine's step, phase by phase -/

section
variable {s : State}

theorem engineStep_blockTest (hp : s.phase = .blockTest) : engineStep s = .next (blockTest s) := by
  simp only [engineStep, engineNext, hp]

theorem engineStep_codeTest (hp : s.phase = .codeTest) : engineStep s = .next (codeTest s) := by
  simp only [engineStep, engineNext, hp]

theorem engineStep_check (hp : s.phase = .check) :
    engineStep s = .next { s with outPos := 0, phase := .header, bc := Cursor.init s.argInLen } := by
  simp only [engineStep, engineNext, hp, exec, execCursorInit]

theorem engineStep_copyRun (hp : s.phase = .copyRun) : engineStep s = exec .copyRun s := by
  simp only [engineStep, engineNext, hp]

theorem engineStep_resetInit (hp : s.phase = .resetInit) : engineStep s = exec .initBoot s := by
  simp only [engineStep, engineNext, hp]

theorem engineStep_wait (hp : s.phase = .idle ∨ s.phase = .failed) : engineStep s = .next s := by
  rcases hp with hp | hp <;> simp only [engineStep, engineNext, hp]

end

/-- Settles O6: the two tests, each on both sides. -/
theorem loopTestsChooseNextPhase : Obligations.LoopTestsChooseNextPhase := by
  unfold Obligations.LoopTestsChooseNextPhase
  intro s hh
  rw [step_engine hh]
  refine ⟨fun hp hroom => ?more, fun hp hfull => ?done, fun hp hleft hroom => ?code, fun hp hend => ?block⟩
  case more => rw [engineStep_blockTest hp, blockTest, if_pos hroom]
  case done => rw [engineStep_blockTest hp, blockTest, if_neg (Nat.not_lt.mpr hfull), State.finish]
  case code => rw [engineStep_codeTest hp, codeTest, if_pos ⟨hleft, hroom⟩]
  case block => rw [engineStep_codeTest hp, codeTest, if_neg (by omega)]

/-- Settles O8: one phase at a time. -/
theorem otherPhasesRunTheirOperation : Obligations.OtherPhasesRunTheirOperation := by
  unfold Obligations.OtherPhasesRunTheirOperation
  intro s hh
  rw [step_engine hh]
  exact ⟨engineStep_check, engineStep_copyRun, engineStep_resetInit, engineStep_wait⟩

/-! ## START -/

theorem acceptsStart_iff (s : State) :
    s.acceptsStart = true ↔ s.status ≠ .busy ∧ s.phase ≠ .resetInit ∧ s.phase ≠ .failed := by
  simp [State.acceptsStart, State.isBusy, and_assoc]

/-- An argument error of START leads to IDLE, since START is not accepted in RESET_INIT (60_exceptions R307). -/
theorem clearForStart_takeError {s : State} (hp : s.phase ≠ .resetInit) (e : ErrKind) :
    s.clearForStart.takeError e = { s with
      status := .error, err := some e, outLen := 0, softEof := false, statusDeclared := 0, statusTarget := 0
      phase := .idle } := by
  rw [State.takeError, State.clearForStart_phase, if_neg hp, State.clearForStart]

/-- Settles O32: the tests of START in their order. -/
theorem startChecksArguments : Obligations.StartChecksArguments := by
  unfold Obligations.StartChecksArguments
  intro s
  simp only [exec, execStart]
  refine ⟨fun hno => ?ignored, fun hbusy hreset hfailed => ?_⟩
  case ignored =>
    refine if_neg fun h => ?_
    obtain ⟨hbusy, hreset, hfailed⟩ := (acceptsStart_iff s).mp h
    rcases hno with h | h | h
    · exact hbusy h
    · exact hreset h
    · exact hfailed h
  rw [if_pos ((acceptsStart_iff s).mpr ⟨hbusy, hreset, hfailed⟩)]
  refine ⟨fun hlen hargs => ?good, fun hlen => ?empty, fun hlen hpresent hhint => ?invalid⟩
  case good =>
    have hok : ¬ (s.argOutPresent = true ∧ s.argOutHint = 0) := fun ⟨hpresent, hhint⟩ =>
      hargs.elim (fun h => by rw [h] at hpresent; cases hpresent) fun h => h hhint
    rw [if_neg hlen, if_neg hok, State.clearForStart]
  case empty => rw [if_pos hlen, clearForStart_takeError hreset]
  case invalid => rw [if_neg hlen, if_pos ⟨hpresent, hhint⟩, clearForStart_takeError hreset]

end Sys2Proof.Machine

/-!
# Every decode ends

SUPPORT. The bound on a decode's steps (O59): a step of a sound BUSY state leaves BUSY, consumes a bit of the input or
its ghost, or lowers `State.rank`, which is at most 7. `State.stepsLeft` counts both, so it falls with every step.
-/

namespace Sys2Proof.Machine

/-! ## What a step uses up -/

/-- The bits a decode has consumed; CHECK has yet to initialise the cursor (45_block_decoder R211). -/
def State.consumed (s : State) : Nat := if s.phase = .check then 0 else s.bc.bitpos

/-- The steps of a table parse that consume no bit, from a position inside it: CLEAR, BUILD, the result, and one for the
way to the phase after it. -/
def Seq.parseRank : Seq → Nat
  | .clear => 6
  | .runs => 5
  | .result => 4
  | .start | .lenExtra _ | .distExtra _ => 0

/-- A bound on the steps until a bit is consumed or the decode ends. -/
def State.rank (s : State) : Nat :=
  match s.phase with
  | .check => 7
  | .header => 6
  | .parseSym | .parseCopy => s.seq.parseRank
  | .copyLen =>
    match s.seq with
    | .lenExtra _ => 5
    | .start | .clear | .runs | .result | .distExtra _ => 6
  | .copyDist => 4
  | .blockParams | .literal | .copyRun => 3
  | .codeTest => 2
  | .blockTest => 1
  | .symbol | .resetInit | .idle | .failed => 0

/-- A bound on the steps left in a decode. -/
def State.stepsLeft (s : State) : Nat := 8 * (8 * s.argInLen.toNat + 32 - s.consumed) + s.rank

theorem State.rank_of_parse {s : State} (h : s.phase = .parseSym ∨ s.phase = .parseCopy) :
    s.rank = s.seq.parseRank := by
  rcases h with h | h <;> simp only [State.rank, h]

theorem Seq.parseRank_le (q : Seq) : q.parseRank ≤ 6 := by
  cases q <;> simp [Seq.parseRank]

theorem State.rank_le (s : State) : s.rank ≤ 7 := by
  cases hp : s.phase with
  | parseSym => rw [State.rank_of_parse (.inl hp)]; exact s.seq.parseRank_le.trans (by decide)
  | parseCopy => rw [State.rank_of_parse (.inr hp)]; exact s.seq.parseRank_le.trans (by decide)
  | copyLen => cases hq : s.seq <;> simp [State.rank, hp, hq]
  | _ => simp [State.rank, hp]

theorem State.rank_of_copyLen {s : State} (h : s.phase = .copyLen) (hq : ∀ n, s.seq ≠ .lenExtra n) : s.rank = 6 := by
  cases hs : s.seq with
  | lenExtra n => exact absurd hs (hq n)
  | _ => simp only [State.rank, h, hs]

theorem State.consumed_of_decoding {s : State} (h : s.phase.decoding = true) : s.consumed = s.bc.bitpos :=
  if_neg fun e => by rw [e] at h; cases h

theorem Phase.decoding_of_parse {p : Phase} (h : p = .parseSym ∨ p = .parseCopy) : p.decoding = true := by
  rcases h with rfl | rfl <;> rfl

/-- `t` comes later in the decode than `s`: after more bits, or closer to the next one. -/
def State.Advances (s t : State) : Prop := t.phase.decoding = true ∧ (t.rank < s.rank ∨ s.consumed < t.consumed)

theorem State.Advances.of_rank {s t : State} (hp : t.phase.decoding = true) (h : t.rank < s.rank) : s.Advances t :=
  ⟨hp, .inl h⟩

theorem State.Advances.of_bits {s t : State} (hs : s.phase.decoding = true) (ht : t.phase.decoding = true)
    (h : s.bc.bitpos < t.bc.bitpos) : s.Advances t := by
  refine ⟨ht, .inr ?_⟩
  rwa [State.consumed_of_decoding hs, State.consumed_of_decoding ht]

/-- A step inside a table parse that consumes no bit. -/
theorem State.Advances.of_parse {s t : State} (hs : s.phase = .parseSym ∨ s.phase = .parseCopy)
    (ht : t.phase = s.phase) {q q' : Seq} (hq : s.seq = q) (hq' : t.seq = q') (h : q'.parseRank < q.parseRank) :
    s.Advances t := by
  refine .of_rank (by rw [ht]; exact Phase.decoding_of_parse hs) ?_
  rwa [State.rank_of_parse hs, State.rank_of_parse (by rw [ht]; exact hs), hq, hq']

/-! ## The parts of a sound state -/

section
variable {s : State}

theorem State.Inv.control (hs : s.Inv) : s.ControlInv := by
  obtain ⟨_, hcontrol, _⟩ := hs
  exact hcontrol

theorem State.Inv.cursor (hs : s.Inv) (hp : s.phase.decoding = true) :
    s.bc.Inv s.inMem ∧ s.bc.inLen = s.argInLen.toNat := by
  obtain ⟨_, _, hcursor, _⟩ := hs
  exact hcursor hp

theorem State.Inv.tables (hs : s.Inv) : s.TablesInv := by
  obtain ⟨_, _, _, htables, _⟩ := hs
  exact htables

theorem State.Inv.ranges (hs : s.Inv) : s.InRange := by
  obtain ⟨_, _, _, _, hrange, _⟩ := hs
  exact (rangeInv_iff s).mp hrange

theorem State.Inv.flows (hs : s.Inv) : s.Flows := by
  obtain ⟨_, _, _, _, _, hflow⟩ := hs
  exact (flowInv_iff s).mp hflow

theorem State.Inv.outMem_wf (hs : s.Inv) : s.outMem.wf = true := by
  obtain ⟨⟨_, hout⟩, _⟩ := hs
  exact hout

end

/-- A code of a sound table has at least one bit (41_huffman_table R142, R143). -/
theorem Table.Ok.bitpos_lt_decode {m : Memory} {T : Table} {c c' : Cursor} {v : Nat} (hT : T.Ok)
    (h : T.decode m c = .ok v c') (hc : c.Inv m) : c.bitpos < c'.bitpos := by
  obtain ⟨_, _, hto⟩ := hT.decode_ok h
  obtain ⟨_, _, hlt⟩ := hto hc
  exact hlt

/-! ## A step outside the table parses -/

/-- A symbol that is ready was decoded, or is the one in `cp_sym` (45_block_decoder R220, R221). -/
theorem SymbolReady.advances {s u : State} {v : Nat} (h : SymbolReady s u v) (hs : s.Inv) :
    s.bc.bitpos < u.bc.bitpos ∨ u = s ∧ (s.phase = .literal ∧ v < 256 ∨ s.phase = .copyLen) := by
  obtain ⟨hi, _⟩ := hs.cursor (Phase.decoding_of_inCode h.inCode.1)
  obtain ⟨hsym, _⟩ := hs.tables
  rcases h with ⟨_, c, hd, rfl⟩ | ⟨hl | hl, rfl, rfl⟩
  · exact .inl (hsym.bitpos_lt_decode hd hi)
  · exact .inr ⟨rfl, .inl ⟨hl, hs.flows.literal hl⟩⟩
  · exact .inr ⟨rfl, .inr hl⟩

theorem State.ControlInv.inDecode {s : State} (h : s.ControlInv) (hb : s.status = .busy) : s.phase.inDecode = true :=
  h.1.mp hb

/-- A step outside the table parses, but for a length's extra field, leaves BUSY or advances. -/
theorem Effect.advances {s t : State} (h : Effect s t) (hs : s.Inv) (hb : s.status = .busy)
    (hparse : ¬ (s.phase = .parseSym ∨ s.phase = .parseCopy)) (hextra : s.phase = .copyLen → ∀ n, s.seq ≠ .lenExtra n) :
    t.status ≠ .busy ∨ s.Advances t := by
  have hdecode := hs.control.inDecode hb
  have hcopy {v c} (hp : s.phase = .copyDist) (hd : s.copyT.decode s.inMem s.bc = .ok v c) :
      s.bc.bitpos < c.bitpos := by
    obtain ⟨_, hT, _⟩ := hs.tables
    obtain ⟨hi, _⟩ := hs.cursor (by rw [hp]; rfl)
    exact hT.bitpos_lt_decode hd hi
  have hdecoding {u v} (hu : SymbolReady s u v) : s.phase.decoding = true := Phase.decoding_of_inCode hu.inCode.1
  cases h with
  | wait hp => rcases hp with hp | hp <;> rw [hp] at hdecode <;> cases hdecode
  | booted T hp => rw [hp] at hdecode; cases hdecode
  | raised e u => exact .inl (by simp)
  | blockDone => exact .inl (by simp)
  | counted hp | cleared hp | skipped hp | assigned hp | tableEmpty hp => exact absurd hp hparse
  | built t hp => exact absurd (hp.imp And.left And.left) hparse
  | tableDone after hp => exact absurd (hp.imp And.left And.left) hparse
  | checked hp | header hp | blockMore hp | params hp | codeMore hp | codeDone hp | copied hp =>
    exact .inr (.of_rank rfl (by simp [State.rank, Seq.parseRank, hp]))
  | distExtra hp => exact .inr (.of_rank rfl (by simp [State.rank, hp]))
  | lenExtra hp n hq => exact absurd hq (hextra hp n)
  | distDone hp v c hd | distBase hp v c hd =>
    exact .inr (.of_bits (by rw [hp]; rfl) (by simp [State.awaitDistExtra, hp, Phase.decoding]) (hcopy hp hd))
  | lit u v hu =>
    rcases hu.advances hs with hbits | ⟨rfl, ⟨hp, _⟩ | hp⟩
    · exact .inr (.of_bits (hdecoding hu) rfl hbits)
    · exact .inr (.of_rank rfl (by simp [State.rank, hp]))
    · exact .inr (.of_rank rfl (by rw [State.rank_of_copyLen hp (hextra hp)]; simp [State.rank]))
  | lenDone u v hu hv =>
    rcases hu.advances hs with hbits | ⟨rfl, ⟨_, hlt⟩ | hp⟩
    · exact .inr (.of_bits (hdecoding hu) rfl hbits)
    · exact absurd hv (Nat.not_le.mpr hlt)
    · exact .inr (.of_rank rfl (by rw [State.rank_of_copyLen hp (hextra hp)]; simp [State.rank]))
  | lenBase u v hu hv =>
    rcases hu.advances hs with hbits | ⟨rfl, ⟨_, hlt⟩ | hp⟩
    · exact .inr (.of_bits (hdecoding hu) (Phase.decoding_of_inCode hu.inCode.2) hbits)
    · exact absurd hv (Nat.not_le.mpr hlt)
    · refine .inr (.of_rank (by simp [hp, Phase.decoding]) ?_)
      rw [State.rank_of_copyLen hp (hextra hp)]
      simp [State.rank, hp]

/-- A length's extra field leads to COPY_DIST, or raises (46_copy_instructions R243 to R247). -/
theorem engineStep_lenExtra {s t : State} {n : Fin 5} (hp : s.phase = .copyLen) (hq : s.seq = .lenExtra n)
    (h : engineStep s = .next t) : t.status ≠ .busy ∨ s.Advances t := by
  have hn : engineNext s = rawNext (.lenExtra n) s := by simp only [engineNext, hp, hq]
  simp only [engineStep, hn, rawNext, decodeValue, exec_lenExtraInstr, State.takeLenExtra] at h
  rcases s.read_any (n := n.val + 1) (by omega) with ⟨v, c, e, _⟩ | ⟨c, e, _⟩ <;> rw [e] at h <;> cases h
  · exact .inr (.of_rank rfl (by simp [State.rank, hp, hq]))
  · exact .inl (by simp)

/-! ## A step of a table parse -/

/-- COUNT consumes its 16 bits, or raises (44_table_parsing R191, R192). -/
theorem engineStep_count {s t : State} (hi : s.bc.Inv s.inMem) (hp : s.phase.decoding = true)
    (hn : engineNext s = rawNext .count s) (h : engineStep s = .next t) : t.status ≠ .busy ∨ s.Advances t := by
  simp only [engineStep, hn, rawNext, decodeValue] at h
  generalize s.bc.lookFields s.inMem 0 Format.count.fields = v at h
  rcases State.read_spec hi (n := 16) (by decide) with ⟨_, c, hr, _, hb, _⟩ | ⟨_, c, hr, _⟩
  · by_cases h285 : (BitVec.ofNat 16 v).toNat ≤ 285
    · rw [exec_count_ok hr h285] at h
      cases h
      exact .inr (.of_bits hp hp (by simp only; omega))
    · rw [exec_count_tooMany hr (Nat.not_le.mp h285)] at h
      cases h
      exact .inl (by simp)
  · rw [exec_count_short hr] at h
    cases h
    exact .inl (by simp)

/-- A run code consumes its bits, or raises (44_table_parsing R194 to R197). -/
theorem engineStep_run {s t : State} (hs : s.Inv) (hp : s.phase = .parseSym ∨ s.phase = .parseCopy)
    (hq : s.seq = .runs) (h0 : 0 ≤ s.tpRem) (h : engineStep s = .next t) : t.status ≠ .busy ∨ s.Advances t := by
  obtain ⟨_, _, hboot, _⟩ := hs.tables
  have hdec := Phase.decoding_of_parse hp
  have hn := engineNext_run hp hq h0
  cases hd : s.bootT.decode s.inMem s.bc with
  | raise e c =>
    rw [engineStep_code_raise hn hd] at h
    cases h
    exact .inl (by simp)
  | ok rc c =>
    obtain ⟨hrc, _⟩ := hboot.decode_ok hd
    obtain ⟨hi, _⟩ := hs.cursor hdec
    have hbits := hboot.bitpos_lt_decode hd hi
    rw [engineStep_code hn hd (if_pos hrc), exec_decodeRun hrc] at h
    have habove : s.builder.Above s.tpRem := hs.flows.runs hp hq
    rcases State.run_cases (s := { s with bc := c }) habove rc with ⟨b, r, e, _⟩ | ⟨e, u, he⟩
    · rw [e] at h
      cases h
      exact .inr (.of_bits hdec hdec hbits)
    · rw [he] at h
      cases h
      exact .inl (by simp)

/-- Each step of a table parse leaves BUSY or advances. -/
theorem engineStep_parse {s t : State} {T : WorkTable} {after : Phase} (hs : s.Inv) (hpar : s.Parsing T after)
    (h : engineStep s = .next t) : t.status ≠ .busy ∨ s.Advances t := by
  have hp := hpar.phase
  have hdec := Phase.decoding_of_parse hp
  have hnext := hpar.engineNext
  cases hq : s.seq with
  | clear =>
    simp only [engineStep, hnext, parseNext, hq, exec, execClear] at h
    cases h
    exact .inr (.of_parse hp rfl hq (q' := .runs) rfl (by decide))
  | runs =>
    by_cases h0 : 0 ≤ s.tpRem
    · exact engineStep_run hs hp hq h0 h
    · simp only [engineStep, hnext, parseNext, hq, if_neg h0] at h
      rcases Nat.lt_or_ge (2 ^ 32) (s.builder.kraft 32) with hk | hk
      · rw [exec_build_raise (s := { s with seq := .result }) _ hk] at h
        cases h
        exact .inl (by simp)
      · rw [exec_build_table (s := { s with seq := .result }) _ hk] at h
        cases h
        exact .inr (.of_parse hp (State.setTable_phase ..) hq (q' := .result) (State.setTable_seq ..) (by decide))
  | result =>
    simp only [engineStep, hnext, parseNext, hq] at h
    cases he : (s.table T.id).empty <;>
      simp only [he, if_true, Bool.false_eq_true, if_false, exec, execSoftStop] at h <;> cases h
    · rcases hpar with ⟨_, _, rfl⟩ | ⟨_, _, rfl⟩ <;>
        exact .inr (.of_rank rfl (by rw [State.rank_of_parse hp, hq]; simp [State.rank, Seq.parseRank]))
    · exact .inl (by simp)
  | start | lenExtra n | distExtra n =>
    obtain ⟨hi, _⟩ := hs.cursor hdec
    exact engineStep_count hi hdec (by simp only [hnext, parseNext, hq]) h

/-! ## The bound -/

/-- The engine stops in no sound BUSY state: INIT_BOOT alone could be refused, and runs before any decode. -/
theorem engineStep_next_of_busy {s : State} (hs : s.Inv) (hb : s.status = .busy) : ∃ t, engineStep s = .next t := by
  have hsym := hs.ranges.cpSym
  have hstops := (engineStep_spec s).2
  cases h : engineStep s with
  | next t => exact ⟨t, rfl⟩
  | fault f => exact absurd h (hstops.not_fault hs.flows f)
  | refused r =>
    rcases hstops.refused r h with ⟨_, ⟨hp, _⟩ | ⟨hp, hq, hnot⟩⟩ | ⟨_, _, hnot | hlarge⟩
    · have hdecode := hs.control.inDecode hb
      rw [hp] at hdecode
      cases hdecode
    · exact absurd (hs.flows.runs hp hq) hnot
    · exact absurd hs.tables hnot
    · omega

/-- A step of a sound BUSY state leaves BUSY or advances. -/
theorem engineStep_advances {s t : State} (hs : s.Inv) (hb : s.status = .busy) (h : engineStep s = .next t) :
    t.status ≠ .busy ∨ s.Advances t := by
  by_cases hsym : s.phase = .parseSym
  · exact engineStep_parse hs (.inl ⟨hsym, rfl, rfl⟩) h
  by_cases hcopy : s.phase = .parseCopy
  · exact engineStep_parse hs (.inr ⟨hcopy, rfl, rfl⟩) h
  by_cases hextra : s.phase = .copyLen ∧ ∃ n, s.seq = .lenExtra n
  · obtain ⟨hp, n, hq⟩ := hextra
    exact engineStep_lenExtra hp hq h
  · exact ((engineStep_spec s).1 t h).advances hs hb (not_or.mpr ⟨hsym, hcopy⟩) fun hp n hq => hextra ⟨hp, n, hq⟩

/-- A decode never goes back, and never passes the end of the ghost (10_state R23). -/
theorem Effect.consumed_le {s t : State} (h : Effect s t) (hs : s.Inv) (hb : s.status = .busy) (ht : t.Inv)
    (hp : t.phase.decoding = true) :
    s.consumed ≤ t.consumed ∧ t.consumed ≤ 8 * s.argInLen.toNat + 32 := by
  rw [State.consumed_of_decoding hp]
  obtain ⟨hi, hlen⟩ := ht.cursor hp
  have hle := hi.bitpos_le_limit
  rw [Cursor.limit_eq, hlen, h.inputs.2] at hle
  refine ⟨?_, by omega⟩
  by_cases hc : s.phase = .check
  · exact (if_pos hc).trans_le (Nat.zero_le _)
  · have hd : s.phase.decoding = true := by simpa [Phase.inDecode, hc] using hs.control.inDecode hb
    rw [State.consumed_of_decoding hd]
    obtain ⟨hi', _⟩ := hs.cursor hd
    obtain ⟨_, _, hle'⟩ := h.cursor hs.tables hd hi'
    exact hle'

/-- A step of a sound BUSY state that stays BUSY leaves fewer steps. -/
theorem stepsLeft_lt {s t : State} (hs : s.Inv) (hh : s.host = []) (hb : s.status = .busy) (h : step s = .next t)
    (ht : t.status = .busy) : t.stepsLeft < s.stepsLeft := by
  have he := step_effect hh h
  rw [step_engine hh] at h
  rcases engineStep_advances hs hb h with hdone | ⟨hp, hless⟩
  · exact absurd ht hdone
  · obtain ⟨hback, hlim⟩ := he.consumed_le hs hb (Move.inv (.engine he) hs) hp
    have hrank := t.rank_le
    rw [State.stepsLeft, State.stepsLeft, he.inputs.2]
    omega

/-- A decode ends within `State.stepsLeft` steps and one more. -/
theorem decode_ends (n : Nat) {s : State} (hs : s.Inv) (hh : s.host = []) (hb : s.status = .busy)
    (hn : s.stepsLeft < n) : ∃ k t, k ≤ n ∧ Sys2Proof.core.run k s = .next t ∧ t.status ≠ .busy := by
  induction n generalizing s with
  | zero => exact absurd hn (Nat.not_lt_zero _)
  | succ n ih =>
    obtain ⟨u, hu⟩ := engineStep_next_of_busy hs hb
    rw [← step_engine hh] at hu
    by_cases hbu : u.status = .busy
    · have hlt := stepsLeft_lt hs hh hb hu hbu
      obtain ⟨_, _, _, _, _, hhu, _⟩ := engineLeavesInputsAlone s u hh hu
      obtain ⟨k, t, hk, hrun, ht⟩ := ih (stepKeepsSoundness s u hs hu) hhu hbu (by omega)
      exact ⟨k + 1, t, by omega, (run_next hu).trans hrun, ht⟩
    · exact ⟨1, u, by omega, run_one hu, hbu⟩

/-- Settles O59: `decode_ends`, with a bound on `State.stepsLeft` that counts every bit of the input and its ghost. -/
theorem everyDecodeEnds : Obligations.EveryDecodeEnds := by
  unfold Obligations.EveryDecodeEnds
  intro s hs hh hb
  have hrank := s.rank_le
  exact decode_ends _ hs hh hb (by rw [State.stepsLeft]; omega)

end Sys2Proof.Machine

/-!
# Leftovers

SUPPORT. The outcome of a decode does not depend on what an earlier one left (O60). `State.Agrees` relates two states of
one decode that differ in leftovers only: what the host reads, the cursor, the input and the bytes written agree
(`State.SameVisible`), and of the other registers those that the phase will read before it writes them
(`State.SameLive`). Every engine step of two sound states keeps it.
-/

namespace Sys2Proof.Machine

/-! ## Two states that differ in leftovers -/

/-- What agrees in every phase past CHECK: the registers the host reads, the phase, the cursor, `out_pos` and the bytes
below it, and what the decode reads of its inputs (45_block_decoder R228). -/
structure State.SameVisible (s s' : State) : Prop where
  status : s.status = s'.status
  err : s.err = s'.err
  outLen : s.outLen = s'.outLen
  softEof : s.softEof = s'.softEof
  statusDeclared : s.statusDeclared = s'.statusDeclared
  statusTarget : s.statusTarget = s'.statusTarget
  phase : s.phase = s'.phase
  bc : s.bc = s'.bc
  outPos : s.outPos = s'.outPos
  inMem : s.inMem = s'.inMem
  argOutHint : s.argOutHint = s'.argOutHint
  bootT : s.bootT = s'.bootT
  out : ∀ a, a < s.outPos → s.outMem.read a = s'.outMem.read a

/-- What the parse of the table `T` reads: each register from the position on at which the parse has written it
(44_table_parsing R190 to R198). -/
structure State.SameParse (T : WorkTable) (s s' : State) : Prop where
  target : s.target = s'.target
  earlier : T = .copyT → s.symT = s'.symT
  seq : s.seq = s'.seq
  count : s.seq = .clear → s.tpN = s'.tpN
  runs : s.seq = .runs → s.tpRem = s'.tpRem ∧ s.builder = s'.builder
  result : s.seq = .result → s.table T.id = s'.table T.id

/-- What a block has set when its codes begin (45_block_decoder R215 to R217). -/
structure State.SameBlock (s s' : State) : Prop where
  target : s.target = s'.target
  symT : s.symT = s'.symT
  copyT : s.copyT = s'.copyT
  wsb : s.wsb = s'.wsb
  codesLeft : s.codesLeft = s'.codesLeft

/-- What the row of a symbol in `cp_sym` and a length's extra field read besides (46_copy_instructions R241 to R250). -/
structure State.SameSymbol (s s' : State) : Prop extends s.SameBlock s' where
  seq : s.seq = s'.seq
  cpSym : s.cpSym = s'.cpSym
  length : ∀ n, s.seq = .lenExtra n → s.length = s'.length

/-- What a distance reads besides (46_copy_instructions R251 to R271). -/
structure State.SameDistance (s s' : State) : Prop extends s.SameBlock s' where
  seq : s.seq = s'.seq
  cpLen : s.cpLen = s'.cpLen
  distance : ∀ n, s.seq = .distExtra n → s.distance = s'.distance

/-- What the copy reads besides (46_copy_instructions R272). -/
structure State.SameCopy (s s' : State) : Prop extends s.SameBlock s' where
  cpLen : s.cpLen = s'.cpLen
  cpDist : s.cpDist = s'.cpDist

/-- What the phase of `s` reads before it writes it. RESET_INIT and CHECK are not past CHECK. -/
def State.SameLive (s s' : State) : Prop :=
  match s.phase with
  | .resetInit | .check => False
  | .idle | .failed | .header => True
  | .blockTest => s.target = s'.target
  | .parseSym => s.SameParse .symT s'
  | .parseCopy => s.SameParse .copyT s'
  | .blockParams => s.target = s'.target ∧ s.symT = s'.symT ∧ s.copyT = s'.copyT
  | .codeTest | .symbol => s.SameBlock s'
  | .literal | .copyLen => s.SameSymbol s'
  | .copyDist => s.SameDistance s'
  | .copyRun => s.SameCopy s'

/-- Two states past CHECK that differ in leftovers only. -/
def State.Agrees (s s' : State) : Prop := s.SameVisible s' ∧ s.SameLive s'

/-- Results that agree: values and errors are the same, and the states after a value are related by `P`. -/
inductive Res.Agree {α : Type} (P : State → State → Prop) : Res α → Res α → Prop where
  | ok (v : α) {s s' : State} (h : P s s') : Res.Agree P (.ok v s) (.ok v s')
  | raise (e : ErrKind) {s s' : State} (h : s.SameVisible s') : Res.Agree P (.raise e s) (.raise e s')
  | fault (f : Fault) : Res.Agree P (.fault f) (.fault f)
  | refused (r : Refusal) : Res.Agree P (.refused r) (.refused r)

/-- Outcomes of a step that agree. -/
inductive OutcomesAgree : Host.Outcome State Fault Refusal → Host.Outcome State Fault Refusal → Prop where
  | next {s s' : State} (h : s.Agrees s') : OutcomesAgree (.next s) (.next s')
  | fault (f : Fault) : OutcomesAgree (.fault f) (.fault f)
  | refused (r : Refusal) : OutcomesAgree (.refused r) (.refused r)

/-! ## Operations from states that differ in leftovers -/

theorem State.SameVisible.takeError {s s' : State} (h : s.SameVisible s') (e : ErrKind) :
    (s.takeError e).Agrees (s'.takeError e) := by
  refine ⟨{ h with
    status := rfl, err := rfl, outLen := rfl, softEof := rfl
    phase := by rw [State.takeError_phase, State.takeError_phase, h.phase] }, ?_⟩
  rcases s.takeError_phase_cases e with hp | hp <;> simp only [State.SameLive, hp]

theorem State.SameVisible.setCursor {s s' : State} (h : s.SameVisible s') (c : Cursor) :
    State.SameVisible { s with bc := c } { s' with bc := c } := { h with bc := rfl }

theorem State.SameVisible.softStop {s s' : State} (h : s.SameVisible s') : s.softStop.Agrees s'.softStop :=
  ⟨{ h with status := rfl, outLen := congrArg (BitVec.ofNat 32) h.outPos, softEof := rfl, phase := rfl }, trivial⟩

theorem State.SameVisible.finish {s s' : State} (h : s.SameVisible s') : s.finish.Agrees s'.finish :=
  ⟨{ h with status := rfl, outLen := congrArg (BitVec.ofNat 32) h.outPos, softEof := rfl, phase := rfl }, trivial⟩

theorem Res.Agree.bind {α β : Type} {P Q : State → State → Prop} {r r' : Res α} {f f' : α → State → Res β}
    (h : r.Agree P r') (hf : ∀ v s s', P s s' → (f v s).Agree Q (f' v s')) : (r.bind f).Agree Q (r'.bind f') := by
  cases h with
  | ok v h => exact hf v _ _ h
  | raise e h => exact .raise e h
  | fault x => exact .fault x
  | refused x => exact .refused x

theorem Res.Agree.outcome {α : Type} {r r' : Res α} (h : r.Agree State.Agrees r') :
    OutcomesAgree r.outcome r'.outcome := by
  cases h with
  | ok v h => exact .next h
  | raise e h => exact .next (h.takeError e)
  | fault x => exact .fault x
  | refused x => exact .refused x

section
variable {α β : Type} {Q : State → State → Prop} {s s' : State}

/-- An operation of the cursor does the same in both states, and the cursor after it is the same. -/
theorem State.SameVisible.cursor_bind (h : s.SameVisible s') (op : Memory → Cursor → CurRes α)
    {f f' : α → State → Res β} (hf : ∀ v c, (f v { s with bc := c }).Agree Q (f' v { s' with bc := c })) :
    ((s.withCursor (op s.inMem s.bc)).bind f).Agree Q ((s'.withCursor (op s'.inMem s'.bc)).bind f') := by
  rw [← h.inMem, ← h.bc]
  cases op s.inMem s.bc with
  | ok v c => exact hf v c
  | raise e c => exact .raise e (h.setCursor c)

theorem State.SameVisible.drop_bind (h : s.SameVisible s') (n : Nat) {f f' : Unit → State → Res β}
    (hf : ∀ v c, (f v { s with bc := c }).Agree Q (f' v { s' with bc := c })) :
    ((s.drop n).bind f).Agree Q ((s'.drop n).bind f') := h.cursor_bind (fun m c => c.drop m n) hf

theorem State.SameVisible.read_bind (h : s.SameVisible s') (n : Nat) {f f' : Nat → State → Res β}
    (hf : ∀ v c, (f v { s with bc := c }).Agree Q (f' v { s' with bc := c })) :
    ((s.read n).bind f).Agree Q ((s'.read n).bind f') := h.cursor_bind (fun m c => c.read m n) hf

/-- A raw element is fetched alike. -/
theorem State.SameVisible.raw (h : s.SameVisible s') {f : Format} (hn : engineNext s = rawNext f s)
    (hn' : engineNext s' = rawNext f s') (hok : ∀ v i, decodeValue f v = .ok i → OutcomesAgree (exec i s) (exec i s')) :
    OutcomesAgree (engineStep s) (engineStep s') := by
  have hv : s'.bc.lookFields s'.inMem 0 f.fields = s.bc.lookFields s.inMem 0 f.fields := by rw [h.bc, h.inMem]
  simp only [engineStep, hn, hn', rawNext, hv]
  cases hi : decodeValue f (s.bc.lookFields s.inMem 0 f.fields) with
  | ok i => exact hok _ i hi
  | error r => exact .refused _

/-- A code of the same table is decoded alike. -/
theorem State.SameVisible.code {u u' : State} (h : u.SameVisible u') {t : TableId} {f : Format}
    {upd : Nat → State → State} (hn : engineNext s = codeNext t f upd u) (hn' : engineNext s' = codeNext t f upd u')
    (ht : u.table t = u'.table t)
    (hok : ∀ v c i, decodeValue f v = .ok i →
      OutcomesAgree (exec i (upd v { u with bc := c })) (exec i (upd v { u' with bc := c }))) :
    OutcomesAgree (engineStep s) (engineStep s') := by
  have hd : (u'.table t).decode u'.inMem u'.bc = (u.table t).decode u.inMem u.bc := by rw [ht, h.inMem, h.bc]
  simp only [engineStep, hn, hn', codeNext, hd]
  cases (u.table t).decode u.inMem u.bc with
  | raise e c => exact .next ((h.setCursor c).takeError e)
  | ok v c =>
    cases hi : decodeValue f v with
    | ok i => simp only [hi]; exact hok v c i hi
    | error r => simp only [hi]; exact .refused _

end

/-! ## The header and the block parameters -/

theorem execHdr_agree {s s' : State} (h : s.SameVisible s') (magic size reserved : Word) :
    OutcomesAgree (execHdr magic size reserved s) (execHdr magic size reserved s') := by
  refine (h.drop_bind 32 fun _ c => ?_).outcome
  refine (h.setCursor c).read_bind 32 fun _ c2 => ?_
  have hdeclared : State.SameVisible { s with bc := c2, declared := size.toNat }
      { s' with bc := c2, declared := size.toNat } := { h with bc := rfl }
  refine hdeclared.drop_bind 32 fun _ c3 => ?_
  have htarget := congrArg (targetOf size.toNat) h.argOutHint
  exact .ok () ⟨{ h with
    bc := rfl, statusDeclared := rfl, statusTarget := congrArg (BitVec.ofNat 32) htarget, phase := rfl }, htarget⟩

theorem execParams_agree {s s' : State} (h : s.SameVisible s') (htarget : s.target = s'.target)
    (hsym : s.symT = s'.symT) (hcopy : s.copyT = s'.copyT) (rsv sv m : BitVec 4) :
    OutcomesAgree (execParams rsv sv m s) (execParams rsv sv m s') := by
  refine (h.drop_bind 4 fun _ c => ?_).outcome
  refine (h.setCursor c).read_bind 4 fun _ c2 => ?_
  have hwsb : State.SameVisible { s with bc := c2, wsb := paramsWsb sv } { s' with bc := c2, wsb := paramsWsb sv } :=
    { h with bc := rfl }
  refine hwsb.read_bind 4 fun _ c3 => ?_
  exact .ok () ⟨{ h with bc := rfl, phase := rfl }, ⟨htarget, hsym, hcopy, rfl, rfl⟩⟩

theorem blockTest_agree {s s' : State} (h : s.SameVisible s') (htarget : s.target = s'.target) :
    (blockTest s).Agrees (blockTest s') := by
  have hiff : s.outPos < s.target ↔ s'.outPos < s'.target := by rw [h.outPos, htarget]
  by_cases hroom : s.outPos < s.target
  · rw [blockTest, blockTest, if_pos hroom, if_pos (hiff.mp hroom)]
    exact ⟨{ h with phase := rfl }, ⟨htarget, nofun, rfl, nofun, nofun, nofun⟩⟩
  · rw [blockTest, blockTest, if_neg hroom, if_neg (mt hiff.mpr hroom)]
    exact h.finish

theorem codeTest_agree {s s' : State} (h : s.SameVisible s') (hb : s.SameBlock s') :
    (codeTest s).Agrees (codeTest s') := by
  have hiff : (0 < s.codesLeft ∧ s.outPos < s.target) ↔ (0 < s'.codesLeft ∧ s'.outPos < s'.target) := by
    rw [hb.codesLeft, h.outPos, hb.target]
  by_cases hmore : 0 < s.codesLeft ∧ s.outPos < s.target
  · rw [codeTest, codeTest, if_pos hmore, if_pos (hiff.mp hmore)]
    exact ⟨{ h with phase := rfl }, { hb with }⟩
  · rw [codeTest, codeTest, if_neg hmore, if_neg (mt hiff.mpr hmore)]
    exact ⟨{ h with phase := rfl }, hb.target⟩

/-! ## The table parses -/

/-- A run reads `tp_rem` and the builder only, and writes them only (44_table_parsing R195 to R197). -/
theorem State.assignRun_agree (len rep : Nat) {s s' : State} (h : s.SameVisible s') (hr : s.tpRem = s'.tpRem)
    (hb : s.builder = s'.builder) :
    (s.assignRun len rep).Agree
      (fun t t' => ∃ b r, t = { s with builder := b, tpRem := r } ∧ t' = { s' with builder := b, tpRem := r })
      (s'.assignRun len rep) := by
  induction rep generalizing s s' with
  | zero => exact .ok () ⟨s.builder, s.tpRem, rfl, by rw [hr, hb]⟩
  | succ rep ih =>
    have hadd : s'.builder.addSymbol s'.tpRem len = s.builder.addSymbol s.tpRem len := by rw [hr, hb]
    simp only [State.assignRun, State.addSymbol, hadd]
    cases s.builder.addSymbol s.tpRem len with
    | ok b =>
      exact ih (s := { s with builder := b, tpRem := s.tpRem - 1 })
        (s' := { s' with builder := b, tpRem := s'.tpRem - 1 }) { h with } (congrArg (· - 1) hr) rfl
    | raise e => exact .raise e h
    | duplicate => exact .refused _

theorem State.run_agree (rc : Nat) {s s' : State} (h : s.SameVisible s') (hr : s.tpRem = s'.tpRem)
    (hb : s.builder = s'.builder) :
    (s.run rc).Agree
      (fun t t' => ∃ b r, t = { s with builder := b, tpRem := r } ∧ t' = { s' with builder := b, tpRem := r })
      (s'.run rc) := by
  unfold State.run
  split
  · exact .ok () ⟨s.builder, _, rfl, by rw [hr, hb]; rfl⟩
  · exact State.assignRun_agree _ _ h hr hb

theorem State.Parsing.sameLive_iff {s s' : State} {T : WorkTable} {after : Phase} (h : s.Parsing T after) :
    s.SameLive s' ↔ s.SameParse T s' := by
  rcases h with ⟨hp, rfl, _⟩ | ⟨hp, rfl, _⟩ <;> simp only [State.SameLive, hp]

theorem State.Agrees.of_parse {s s' : State} {T : WorkTable} {after : Phase} (h : s.SameVisible s')
    (hp : s.Parsing T after) (hl : s.SameParse T s') : s.Agrees s' := ⟨h, hp.sameLive_iff.mpr hl⟩

/-- COUNT sets `tp_n` alike (44_table_parsing R191, R192). -/
theorem execCount_agree {s s' : State} {T : WorkTable} {after : Phase} (h : s.SameVisible s')
    (hp : s.Parsing T after) (hl : s.SameParse T s') (n : BitVec 16) :
    OutcomesAgree (execCount n s) (execCount n s') := by
  refine (h.read_bind 16 fun _ c => ?_).outcome
  by_cases hn : n.toNat ≤ 285
  · rw [State.setCount_ok hn, State.setCount_ok hn]
    exact .ok () (.of_parse { h with bc := rfl } hp ⟨hl.target, hl.earlier, rfl, fun _ => rfl, nofun, nofun⟩)
  · rw [State.setCount_raise (Nat.not_le.mp hn), State.setCount_raise (Nat.not_le.mp hn)]
    exact .raise _ { h with bc := rfl }

/-- A run code gives its slots their lengths alike (44_table_parsing R194). -/
theorem run_agree {s s' : State} {T : WorkTable} {after : Phase} (h : s.SameVisible s') (hp : s.Parsing T after)
    (hl : s.SameParse T s') (hq : s.seq = .runs) (c : Cursor) (rc : Nat) :
    OutcomesAgree (State.run rc { s with bc := c }).outcome (State.run rc { s' with bc := c }).outcome := by
  obtain ⟨hr, hb⟩ := hl.runs hq
  have hrun := State.run_agree rc (h.setCursor c) hr hb
  generalize State.run rc { s with bc := c } = r, State.run rc { s' with bc := c } = r' at hrun
  cases hrun with
  | raise e hv => exact .next (hv.takeError e)
  | fault f => exact .fault f
  | refused r => exact .refused r
  | ok v hok =>
    obtain ⟨b, r, rfl, rfl⟩ := hok
    refine .next (.of_parse { h with bc := rfl } hp ?_)
    exact { hl with
      count := fun e => by rw [show s.seq = _ from e] at hq; cases hq
      runs := fun _ => ⟨rfl, rfl⟩
      result := fun e => by rw [show s.seq = _ from e] at hq; cases hq }

/-- BUILD writes the same table (44_table_parsing R198). -/
theorem build_agree {s s' : State} {T : WorkTable} {after : Phase} (h : s.SameVisible s') (hp : s.Parsing T after)
    (hl : s.SameParse T s') (hb : s.builder = s'.builder) :
    OutcomesAgree (exec (.build T.id) { s with seq := .result }) (exec (.build T.id) { s' with seq := .result }) := by
  rcases Nat.lt_or_ge (2 ^ 32) (s.builder.kraft 32) with hk | hk
  · rw [exec_build_raise (s := { s with seq := .result }) _ hk,
      exec_build_raise (s := { s' with seq := .result }) _ (hb ▸ hk)]
    have hv : State.SameVisible { s with seq := .result } { s' with seq := .result } := { h with }
    exact .next (hv.takeError _)
  · rw [exec_build_table (s := { s with seq := .result }) _ hk,
      exec_build_table (s := { s' with seq := .result }) _ (hb ▸ hk)]
    rcases hp with ⟨hphase, rfl, rfl⟩ | ⟨hphase, rfl, rfl⟩
    · exact .next (.of_parse { h with } (.inl ⟨hphase, rfl, rfl⟩)
        ⟨hl.target, nofun, rfl, nofun, nofun, fun _ => congrArg Builder.table hb⟩)
    · exact .next (.of_parse { h with } (.inr ⟨hphase, rfl, rfl⟩)
        ⟨hl.target, hl.earlier, rfl, nofun, nofun, fun _ => congrArg Builder.table hb⟩)

/-- A parsed table leads to the same phase (45_block_decoder R215, R225). -/
theorem tableDone_agree {s s' : State} {T : WorkTable} {after : Phase} (h : s.SameVisible s')
    (hp : s.Parsing T after) (hl : s.SameParse T s') (ht : s.table T.id = s'.table T.id) :
    State.Agrees { s with phase := after, seq := .start } { s' with phase := after, seq := .start } := by
  rcases hp with ⟨_, rfl, rfl⟩ | ⟨_, rfl, rfl⟩
  · exact ⟨{ h with phase := rfl }, ⟨hl.target, fun _ => ht, rfl, nofun, nofun, nofun⟩⟩
  · exact ⟨{ h with phase := rfl }, ⟨hl.target, hl.earlier rfl, ht⟩⟩

/-- A table parse steps alike, at each of its positions (44_table_parsing R190). -/
theorem parse_agree {s s' : State} {T : WorkTable} {after : Phase} (h : s.SameVisible s') (hp : s.Parsing T after)
    (hl : s.SameParse T s') : OutcomesAgree (engineStep s) (engineStep s') := by
  have hp' : s'.Parsing T after := by rw [State.Parsing, ← h.phase]; exact hp
  have hn := hp.engineNext
  have hn' := hp'.engineNext
  have hseq := hl.seq
  cases hq : s.seq <;> rw [hq] at hseq <;> simp only [parseNext, hq, ← hseq] at hn hn'
  case clear =>
    simp only [engineStep, hn, hn', exec, execClear]
    have hrem : (s.tpN : Int) - 1 = (s'.tpN : Int) - 1 := by rw [hl.count hq]
    exact .next (.of_parse { h with } hp ⟨hl.target, hl.earlier, rfl, nofun, fun _ => ⟨hrem, rfl⟩, nofun⟩)
  case runs =>
    obtain ⟨hr, hb⟩ := hl.runs hq
    by_cases h0 : 0 ≤ s.tpRem
    · rw [if_pos h0] at hn
      rw [if_pos (hr ▸ h0)] at hn'
      refine h.code hn hn' h.bootT fun v c i hi => ?_
      by_cases hv : v < 285
      · rw [decodeValue, if_pos hv] at hi
        cases hi
        rw [exec_decodeRun hv, exec_decodeRun hv]
        exact run_agree h hp hl hq c v
      · rw [decodeValue, if_neg hv] at hi
        cases hi
    · rw [if_neg h0] at hn
      rw [if_neg (hr ▸ h0)] at hn'
      simp only [engineStep, hn, hn']
      exact build_agree h hp hl hb
  case result =>
    have ht := hl.result hq
    rw [← ht] at hn'
    cases he : (s.table T.id).empty <;> simp only [he, Bool.false_eq_true, if_true, if_false] at hn hn'
    · simp only [engineStep, hn, hn']
      exact .next (tableDone_agree h hp hl ht)
    · simp only [engineStep, hn, hn', exec, execSoftStop]
      exact .next h.softStop
  case start | lenExtra | distExtra =>
    refine h.raw hn hn' fun v i hi => ?_
    cases hi
    exact execCount_agree h hp hl _

/-! ## Symbols and distances -/

/-- A length known in full leads to COPY_DIST in both. -/
theorem setLength_agree {u u' : State} (h : u.SameVisible u') (hb : u.SameBlock u') (L : Nat) :
    (u.setLength L).Agrees (u'.setLength L) :=
  ⟨{ h with phase := rfl }, { hb with seq := rfl, cpLen := congrArg (L + ·) hb.wsb, distance := nofun }⟩

theorem awaitLenExtra_agree {u u' : State} (h : u.SameVisible u') (hl : u.SameSymbol u')
    (hp : u.phase = .literal ∨ u.phase = .copyLen) (B : Nat) (n : Fin 5) :
    (u.awaitLenExtra B n).Agrees (u'.awaitLenExtra B n) := by
  refine ⟨{ h with }, ?_⟩
  have hsym : (u.awaitLenExtra B n).SameSymbol (u'.awaitLenExtra B n) :=
    { hl with seq := rfl, length := fun _ _ => rfl }
  rcases hp with hp | hp <;> simpa only [State.SameLive, State.awaitLenExtra_phase, hp] using hsym

/-- LIT writes the same byte at the same place (45_block_decoder R220). -/
theorem execLit_agree {u u' : State} (h : u.SameVisible u') (hb : u.SameBlock u') (hw : u.outMem.wf = true)
    (hw' : u'.outMem.wf = true) (b : Byte) : OutcomesAgree (execLit b u) (execLit b u') := by
  have hiff : u.outPos < u.target ↔ u'.outPos < u'.target := by rw [h.outPos, hb.target]
  by_cases hroom : u.outPos < u.target
  · simp only [execLit, State.emit_room b hroom, State.emit_room b (hiff.mp hroom), Res.bind_ok, Res.outcome_ok]
    refine .next ⟨{ h with phase := rfl, outPos := congrArg (· + 1) h.outPos, out := fun a ha => ?_ }, { hb with }⟩
    simp only at ha ⊢
    rw [← h.outPos]
    by_cases hlast : a = u.outPos
    · rw [hlast, Memory.read_write_same _ _ _ hw, Memory.read_write_same _ _ _ hw']
    · rw [Memory.read_write_other _ _ _ _ hlast, Memory.read_write_other _ _ _ _ hlast, h.out a (by omega)]
  · simp only [execLit, State.emit_full b (Nat.not_lt.mp hroom), State.emit_full b (Nat.not_lt.mp (mt hiff.mpr hroom)),
      Res.bind_fault, Res.outcome_fault]
    exact .fault _

/-- The row of a symbol (45_block_decoder R220, R221; 46_copy_instructions R241 to R249). -/
theorem exec_sym_agree {u u' : State} {i : Instr} (hi : i.format? = some .sym) (h : u.SameVisible u')
    (hl : u.SameSymbol u') (hp : u.phase = .literal ∨ u.phase = .copyLen) (hw : u.outMem.wf = true)
    (hw' : u'.outMem.wf = true) : OutcomesAgree (exec i u) (exec i u') := by
  cases i with
  | lit b => exact execLit_agree h hl.toSameBlock hw hw' b
  | lenQ0 | lenQ1 | lenMax => exact .next (setLength_agree h hl.toSameBlock _)
  | lenQ2 | lenQ3 | lenQ4 | lenQ5 | lenQ6 => exact .next (awaitLenExtra_agree h hl hp _ _)
  | lenInvalid => exact .next (h.takeError _)
  | _ => cases hi

theorem setDistance_agree {u u' : State} (h : u.SameVisible u') (hl : u.SameDistance u') (D : Nat) :
    (u.setDistance D).Agree State.Agrees (u'.setDistance D) := by
  have hiff : u.outPos < finalDist D ↔ u'.outPos < finalDist D := by rw [h.outPos]
  by_cases hfar : u.outPos < finalDist D
  · rw [State.setDistance, State.setDistance, if_pos hfar, if_pos (hiff.mp hfar)]
    exact .raise _ { h with }
  · rw [State.setDistance, State.setDistance, if_neg hfar, if_neg (mt hiff.mpr hfar)]
    exact .ok () ⟨{ h with phase := rfl }, { hl with cpDist := rfl }⟩

/-- The row of a distance symbol (46_copy_instructions R252 to R269). -/
theorem exec_dsym_agree {u u' : State} {i : Instr} (hi : i.format? = some .dsym) (h : u.SameVisible u')
    (hl : u.SameDistance u') (hp : u.phase = .copyDist) : OutcomesAgree (exec i u) (exec i u') := by
  have hawait B n : (u.awaitDistExtra B n).Agrees (u'.awaitDistExtra B n) := by
    refine ⟨{ h with }, ?_⟩
    have hdist : (u.awaitDistExtra B n).SameDistance (u'.awaitDistExtra B n) :=
      { hl with seq := rfl, distance := fun _ _ => rfl }
    simpa only [State.SameLive, State.awaitDistExtra_phase, hp] using hdist
  cases i with
  | distQ0 | distQ1 => exact (setDistance_agree h hl _).outcome
  | distQ2 | distQ3 | distQ4 | distQ5 | distQ6 | distQ7 | distQ8 | distQ9 | distQ10 | distQ11 | distQ12 | distQ13
  | distQ14 | distQ15 | distQ16 => exact .next (hawait _ _)
  | distInvalid => exact .next (h.takeError _)
  | _ => cases hi

/-! ## The copy -/

/-- Two copies of the same length and distance over memories that agree below `p` write the same bytes: each byte is the
one `d` before it (46_copy_instructions R272, R273). -/
theorem copies_agree {m m' n n' : Memory} {p k d : Nat} (hd : 1 ≤ d) (hdp : d ≤ p)
    (hout : ∀ a, a < p → m.read a = m'.read a) (hn : ∀ a, a < p → n.read a = m.read a)
    (hn' : ∀ a, a < p → n'.read a = m'.read a) (hk : ∀ j, j < k → n.read (p + j) = n.read (p + j - d))
    (hk' : ∀ j, j < k → n'.read (p + j) = n'.read (p + j - d)) (a : Nat) (ha : a < p + k) :
    n.read a = n'.read a := by
  induction a using Nat.strong_induction_on with
  | _ a ih =>
    by_cases hold : a < p
    · rw [hn a hold, hn' a hold, hout a hold]
    · obtain ⟨j, rfl⟩ := Nat.exists_eq_add_of_le (Nat.not_lt.mp hold)
      rw [hk j (by omega), hk' j (by omega), ih (p + j - d) (by omega) (by omega)]

/-- COPY_RUN writes the same bytes (46_copy_instructions R272 to R274). -/
theorem execCopyRun_agree {s s' : State} (h : s.SameVisible s') (hl : s.SameCopy s') (hw : s.outMem.wf = true)
    (hw' : s'.outMem.wf = true) (h1 : 1 ≤ s.cpDist) (hback : s.cpDist ≤ s.outPos) (hroom : s.outPos ≤ s.target) :
    OutcomesAgree (execCopyRun s) (execCopyRun s') := by
  obtain ⟨m, e, _, hframe, hcopy⟩ := State.copyLoop_spec s.cpLen hw h1 hback hroom
  obtain ⟨m', e', _, hframe', hcopy'⟩ := State.copyLoop_spec s'.cpLen hw' (hl.cpDist ▸ h1)
    (by rwa [← hl.cpDist, ← h.outPos]) (by rwa [← h.outPos, ← hl.target])
  have hpos : s.outPos + min s.cpLen (s.target - s.outPos) = s'.outPos + min s'.cpLen (s'.target - s'.outPos) := by
    rw [h.outPos, hl.cpLen, hl.target]
  rw [← h.outPos, ← hl.cpLen, ← hl.target] at hframe' hcopy'
  rw [← hl.cpDist] at hcopy'
  simp only [execCopyRun, e, e', Res.bind_ok, Res.outcome_ok]
  refine .next ⟨{ h with phase := rfl, outPos := hpos, out := ?_ }, { hl with }⟩
  exact copies_agree h1 hback h.out (fun a ha => hframe a (.inl ha)) (fun a ha => hframe' a (.inl ha)) hcopy hcopy'

/-! ## A step -/

theorem decodeValue_sym {v : Nat} {i : Instr} (h : decodeValue .sym v = .ok i) : i.format? = some .sym := by
  simp only [decodeValue] at h
  split at h <;> cases h
  obtain ⟨_, hf, _⟩ := decodeSymRow_reads (BitVec.ofNat 9 v)
  exact hf

theorem decodeValue_dsym {v : Nat} {i : Instr} (h : decodeValue .dsym v = .ok i) : i.format? = some .dsym := by
  simp only [decodeValue] at h
  split at h <;> cases h
  next hv =>
    obtain ⟨_, hf, _⟩ := decodeDsymRow_reads (x := BitVec.ofNat 9 v) (by rw [BitVec.toNat_ofNat]; omega)
    exact hf

section
variable {s s' : State}

/-- A fresh symbol (45_block_decoder R218). -/
theorem symbol_agree (h : s.SameVisible s') (hp : s.phase = .symbol) (hl : s.SameBlock s') (hw : s.outMem.wf = true)
    (hw' : s'.outMem.wf = true) : OutcomesAgree (engineStep s) (engineStep s') := by
  have hcodes : s.codesLeft - 1 = s'.codesLeft - 1 := by rw [hl.codesLeft]
  have hu : State.SameVisible { s with codesLeft := s.codesLeft - 1 } { s' with codesLeft := s'.codesLeft - 1 } :=
    { h with }
  refine hu.code (engineNext_symbol hp) (engineNext_symbol (h.phase ▸ hp)) hl.symT fun v c i hi => ?_
  refine exec_sym_agree (decodeValue_sym hi) { h with phase := rfl, bc := rfl } ?_ ?_ hw hw'
  · exact { hl with codesLeft := hcodes, seq := rfl, cpSym := rfl, length := nofun }
  · by_cases hv : v < Config.litLimit
    · exact .inl (if_pos hv)
    · exact .inr (if_neg hv)

/-- A symbol already in `cp_sym`. -/
theorem kept_agree (h : s.SameVisible s') (hp : s.phase = .literal ∨ s.phase = .copyLen) (hl : s.SameSymbol s')
    (hn : engineNext s = symbolNext s) (hn' : engineNext s' = symbolNext s') (hw : s.outMem.wf = true)
    (hw' : s'.outMem.wf = true) : OutcomesAgree (engineStep s) (engineStep s') := by
  simp only [engineStep, hn, hn', symbolNext, ← hl.cpSym]
  cases hi : decodeValue .sym s.cpSym with
  | ok i => exact exec_sym_agree (decodeValue_sym hi) h hl hp hw hw'
  | error r => exact .refused _

/-- A length: its extra field, or the row of the symbol in `cp_sym` (46_copy_instructions R241 to R250). -/
theorem copyLen_agree (h : s.SameVisible s') (hp : s.phase = .copyLen) (hl : s.SameSymbol s')
    (hw : s.outMem.wf = true) (hw' : s'.outMem.wf = true) : OutcomesAgree (engineStep s) (engineStep s') := by
  have hp' := h.phase.symm.trans hp
  have hseq := hl.seq
  cases hq : s.seq with
  | lenExtra n =>
    rw [hq] at hseq
    refine h.raw (f := .lenExtra n) (by simp only [engineNext, hp, hq]) (by simp only [engineNext, hp', ← hseq])
      fun v i hi => ?_
    cases hi
    rw [exec_lenExtraInstr, exec_lenExtraInstr, State.takeLenExtra, State.takeLenExtra]
    refine (h.read_bind _ fun _ c => ?_).outcome
    refine .ok () ?_
    simp only [← hl.length n hq]
    exact setLength_agree (h.setCursor c) { hl.toSameBlock with } _
  | _ =>
    rw [hq] at hseq
    exact kept_agree h (.inr hp) hl (by simp only [engineNext, hp, hq]) (by simp only [engineNext, hp', ← hseq]) hw hw'

/-- A distance: its extra field, or a fresh distance symbol (46_copy_instructions R251 to R271). -/
theorem copyDist_agree (h : s.SameVisible s') (hp : s.phase = .copyDist) (hl : s.SameDistance s') :
    OutcomesAgree (engineStep s) (engineStep s') := by
  have hp' := h.phase.symm.trans hp
  have hseq := hl.seq
  cases hq : s.seq with
  | distExtra n =>
    rw [hq] at hseq
    refine h.raw (f := .distExtra n) (by simp only [engineNext, hp, hq]) (by simp only [engineNext, hp', ← hseq])
      fun v i hi => ?_
    cases hi
    rw [exec_distExtraInstr, exec_distExtraInstr]
    refine (h.read_bind _ fun _ c => ?_).outcome
    simp only [← hl.distance n hq]
    exact setDistance_agree (h.setCursor c) { hl with } _
  | _ =>
    rw [hq] at hseq
    refine h.code (f := .dsym) (t := .copyT) (upd := fun _ u => u) (by simp only [engineNext, hp, hq])
      (by simp only [engineNext, hp', ← hseq]) hl.copyT fun v c i hi => ?_
    exact exec_dsym_agree (decodeValue_dsym hi) (h.setCursor c) { hl with } hp

/-- Every engine step of two sound states that differ in leftovers answers alike, phase by phase. -/
theorem engineStep_agree (h : s.Agrees s') (hs : s.Inv) (hs' : s'.Inv) :
    OutcomesAgree (engineStep s) (engineStep s') := by
  obtain ⟨hv, hl⟩ := h
  have hw := hs.outMem_wf
  have hw' := hs'.outMem_wf
  have hphase := hv.phase
  cases hp : s.phase <;> rw [hp] at hphase <;> simp only [State.SameLive, hp] at hl
  case idle =>
    rw [engineStep_wait (.inl hp), engineStep_wait (.inl hphase.symm)]
    exact .next ⟨hv, by simp only [State.SameLive, hp]⟩
  case failed =>
    rw [engineStep_wait (.inr hp), engineStep_wait (.inr hphase.symm)]
    exact .next ⟨hv, by simp only [State.SameLive, hp]⟩
  case header =>
    refine hv.raw (f := .hdr) (by simp only [engineNext, hp]) (by simp only [engineNext, ← hphase]) fun v i hi => ?_
    cases hi
    simp only [exec]
    exact execHdr_agree hv _ _ _
  case blockTest =>
    rw [engineStep_blockTest hp, engineStep_blockTest hphase.symm]
    exact .next (blockTest_agree hv hl)
  case parseSym => exact parse_agree hv (.inl ⟨hp, rfl, rfl⟩) hl
  case parseCopy => exact parse_agree hv (.inr ⟨hp, rfl, rfl⟩) hl
  case blockParams =>
    obtain ⟨htarget, hsym, hcopy⟩ := hl
    refine hv.raw (f := .params) (by simp only [engineNext, hp]) (by simp only [engineNext, ← hphase]) fun v i hi => ?_
    cases hi
    simp only [exec]
    exact execParams_agree hv htarget hsym hcopy _ _ _
  case codeTest =>
    rw [engineStep_codeTest hp, engineStep_codeTest hphase.symm]
    exact .next (codeTest_agree hv hl)
  case symbol => exact symbol_agree hv hp hl hw hw'
  case literal =>
    exact kept_agree hv (.inl hp) hl (by simp only [engineNext, hp]) (by simp only [engineNext, ← hphase]) hw hw'
  case copyLen => exact copyLen_agree hv hp hl hw hw'
  case copyDist => exact copyDist_agree hv hp hl
  case copyRun =>
    obtain ⟨h1, hback⟩ := hs.flows.copy hp
    rw [engineStep_copyRun hp, engineStep_copyRun hphase.symm]
    exact execCopyRun_agree hv hl hw hw' h1 hback hs.ranges.outPos

end

/-! ## A run -/

/-- A sound state in which the engine alone acts. -/
structure State.Quiet (s : State) : Prop where
  inv : s.Inv
  host : s.host = []

theorem State.Quiet.step {s t : State} (hs : s.Quiet) (h : step s = .next t) : t.Quiet := by
  obtain ⟨_, _, _, _, _, hhost, _⟩ := engineLeavesInputsAlone s t hs.host h
  exact ⟨stepKeepsSoundness s t hs.inv h, hhost⟩

/-- A run that answers after its first step. -/
theorem run_succ_next {k : Nat} {s t : State} (h : Sys2Proof.core.run (k + 1) s = .next t) :
    ∃ u, step s = .next u ∧ Sys2Proof.core.run k u = .next t := by
  cases hs : step s with
  | next u => exact ⟨u, rfl, (run_next hs).symm.trans h⟩
  | fault r => rw [core_run_fault Sys2Proof.core hs] at h; cases h
  | refused r => rw [core_run_refused Sys2Proof.core hs] at h; cases h

theorem run_agree_next (k : Nat) {s s' t t' : State} (ha : s.Agrees s') (hs : s.Quiet) (hs' : s'.Quiet)
    (h : Sys2Proof.core.run k s = .next t) (h' : Sys2Proof.core.run k s' = .next t') : t.Agrees t' := by
  induction k generalizing s s' with
  | zero => cases h; cases h'; exact ha
  | succ k ih =>
    obtain ⟨u, hu, hrun⟩ := run_succ_next h
    obtain ⟨u', hu', hrun'⟩ := run_succ_next h'
    have hstep := engineStep_agree ha hs.inv hs'.inv
    rw [← step_engine hs.host, ← step_engine hs'.host, hu, hu'] at hstep
    cases hstep with
    | next hau => exact ih hau (hs.step hu) (hs'.step hu') hrun hrun'

/-- While BUSY the status registers that a decode's end sets are clear (10_state R27). -/
theorem State.ControlInv.of_check {s : State} (h : s.ControlInv) (hp : s.phase = .check) :
    s.status = .busy ∧ s.err = none ∧ s.outLen = 0 ∧ s.softEof = false := by
  have hb : s.status = .busy := h.1.mpr (by rw [hp]; rfl)
  obtain ⟨_, _, _, hsoft, hlen, _⟩ := id h
  refine ⟨hb, h.err_of_busy hb, by_contra fun hne => ?_, Bool.eq_false_iff.mpr fun ht => ?_⟩
  · have := hlen hne
    rw [hb] at this
    cases this
  · have := hsoft ht
    rw [hb] at this
    cases this

/-- CHECK makes the cursor and `out_pos` the same (45_block_decoder R211). -/
theorem check_agree {s s' : State} (hs : s.ControlInv) (hs' : s'.ControlInv) (hp : s.phase = .check)
    (hp' : s'.phase = .check) (hin : s.inMem = s'.inMem) (hlen : s.argInLen = s'.argInLen)
    (hhint : s.argOutHint = s'.argOutHint) (hboot : s.bootT = s'.bootT)
    (hdeclared : s.statusDeclared = s'.statusDeclared) (htarget : s.statusTarget = s'.statusTarget) :
    OutcomesAgree (engineStep s) (engineStep s') := by
  obtain ⟨hb, he, hol, hse⟩ := hs.of_check hp
  obtain ⟨hb', he', hol', hse'⟩ := hs'.of_check hp'
  rw [engineStep_check hp, engineStep_check hp']
  refine .next ⟨?_, trivial⟩
  exact {
    status := hb.trans hb'.symm, err := he.trans he'.symm, outLen := hol.trans hol'.symm
    softEof := hse.trans hse'.symm, statusDeclared := hdeclared, statusTarget := htarget, phase := rfl
    bc := congrArg Cursor.init hlen, outPos := rfl, inMem := hin, argOutHint := hhint, bootT := hboot
    out := fun a ha => absurd ha (Nat.not_lt_zero a) }

/-- Settles O60: after CHECK the states differ in leftovers only (`check_agree`), and from there on they keep to that
(`run_agree_next`). -/
theorem outcomeIgnoresLeftovers : Obligations.OutcomeIgnoresLeftovers := by
  unfold Obligations.OutcomeIgnoresLeftovers
  intro s s' t t' k hs hs' hp hp' hh hh' hin hlen hhint hboot hdeclared htarget hrun hrun'
  obtain ⟨u, hu, hru⟩ := run_succ_next hrun
  obtain ⟨u', hu', hru'⟩ := run_succ_next hrun'
  have hq := State.Quiet.step ⟨hs, hh⟩ hu
  have hq' := State.Quiet.step ⟨hs', hh'⟩ hu'
  have hagree := check_agree hs.control hs'.control hp hp' hin hlen hhint hboot hdeclared htarget
  rw [← step_engine hh, ← step_engine hh', hu, hu'] at hagree
  cases hagree with
  | next ha =>
    obtain ⟨hv, _⟩ := run_agree_next k ha hq hq' hru hru'
    refine ⟨?_, hv.outPos, hv.out⟩
    simp only [State.hostView, State.errCode, hv.status, hv.err, hv.outLen, hv.softEof, hv.statusDeclared,
      hv.statusTarget]

end Sys2Proof.Machine

/-!
# The copy instructions

SUPPORT. The length and distance symbols, their extra fields, and COPY_RUN as instructions (O36 to O43). A symbol without
an extra field is `State.setLength` or `State.setDistance` of its base; one with such a field leaves the base behind and
waits; the field's element is one READ and then the same two operations.
-/

namespace Sys2Proof.Machine

/-! ## The bases -/

/-- The base of a length's class from the second on (30_encoding R99). -/
theorem lenBase_succ (q r : Nat) : lenBase (q + 1) r = 2 ^ q * (4 + r) := by
  rw [lenBase, if_neg (Nat.succ_ne_zero q), Nat.add_sub_cancel, Nat.one_shiftLeft]

/-- The base of a distance's class from the second on (30_encoding R100). -/
theorem distBase_succ (q r : Nat) : distBase (q + 1) r = 2 ^ q * (2 + r) := by
  rw [distBase, if_neg (Nat.succ_ne_zero q), Nat.add_sub_cancel, Nat.one_shiftLeft]

/-- A field of `w` bits set in a multiple of `2 ^ w` is added to it (00_scope R11). -/
theorem or_eq_add_of_eq_mul_two_pow {base b w x : Nat} (hx : x < 2 ^ w) (h : base = b * 2 ^ w) :
    base ||| x = b * 2 ^ w + x := by
  rw [h, Nat.mul_comm, Nat.two_pow_add_eq_or_of_lt hx]

/-! ## Lengths -/

theorem State.setLength_eq (length : Nat) (s : State) :
    s.setLength length =
      { s with length := length, cpLen := length + s.wsb, phase := .copyDist, seq := .start } := rfl

theorem exec_lenQ0 (r : BitVec 2) (s : State) : exec (.lenQ0 r) s = .next (s.setLength r.toNat) := rfl

theorem exec_lenQ1 (r : BitVec 2) (s : State) : exec (.lenQ1 r) s = .next (s.setLength (4 + r.toNat)) := by
  simp only [exec, execLenQ1, lenBase_succ, pow_zero, one_mul]

theorem exec_lenMax (s : State) : exec .lenMax s = .next (s.setLength 255) := rfl

/-- Settles O36: each of the three is `State.setLength` of its length. -/
theorem lenWithoutExtraBits : Obligations.LenWithoutExtraBits := by
  unfold Obligations.LenWithoutExtraBits
  intro s r
  simp only [exec_lenQ0, exec_lenQ1, exec_lenMax, State.setLength_eq, and_self]

/-- A length of class `n + 2` waits for a field of `n + 1` bits (46_copy_instructions R243 to R247). -/
theorem next_awaitLenExtra_base (s : State) (r : BitVec 2) (n : Fin 5) :
    (.next (s.awaitLenExtra (lenBase (n.val + 2) r.toNat) n) : Host.Outcome State Fault Refusal) =
      .next { s with length := 2 ^ (n.val + 1) * (4 + r.toNat), seq := .lenExtra n } := by
  rw [lenBase_succ, State.awaitLenExtra]

/-- Settles O37: one lemma over the field due. -/
theorem lenBasesAwaitExtraBits : Obligations.LenBasesAwaitExtraBits := by
  unfold Obligations.LenBasesAwaitExtraBits
  intro s r
  have base := next_awaitLenExtra_base s r
  exact ⟨base 0, base 1, base 2, base 3, base 4⟩

/-! ## Distances -/

/-- A distance that the output so far reaches leads to the copy (46_copy_instructions R270). -/
theorem State.setDistance_inRange {s : State} {d : Nat} (h : d + 1 ≤ s.outPos) :
    s.setDistance d = .ok () { s with distance := d, cpDist := d + 1, phase := .copyRun, seq := .start } :=
  if_neg (Nat.not_lt.mpr h)

/-- A distance before the output's start raises (46_copy_instructions R271). -/
theorem State.setDistance_outOfRange {s : State} {d : Nat} (h : s.outPos < d + 1) :
    s.setDistance d = .raise .copyOutOfRange { s with distance := d, cpDist := d + 1 } :=
  if_pos h

theorem exec_distQ0 (r2 : BitVec 1) (s : State) : exec (.distQ0 r2) s = (s.setDistance r2.toNat).outcome := rfl

theorem exec_distQ1 (r2 : BitVec 1) (s : State) : exec (.distQ1 r2) s = (s.setDistance (2 + r2.toNat)).outcome := by
  simp only [exec, execDistQ1, distBase_succ, pow_zero, one_mul]

/-- Settles O39: both symbols are `State.setDistance` of their distance, on either side of its range check. -/
theorem distWithoutExtraBits : Obligations.DistWithoutExtraBits := by
  unfold Obligations.DistWithoutExtraBits
  intro s r2
  have hq1 : 2 + r2.toNat + 1 = r2.toNat + 3 := by omega
  rw [exec_distQ0, exec_distQ1, ← hq1]
  refine ⟨fun h => ?_, fun h => ?_, fun h => ?_, fun h => ?_⟩
  · rw [State.setDistance_inRange h, Res.outcome_ok]
  · rw [State.setDistance_outOfRange h, Res.outcome_raise]
  · rw [State.setDistance_inRange h, Res.outcome_ok]
  · rw [State.setDistance_outOfRange h, Res.outcome_raise]

/-- A distance of class `n + 2` waits for a field of `n + 1` bits (46_copy_instructions R254 to R268). -/
theorem next_awaitDistExtra_base (s : State) (r2 : BitVec 1) (n : Fin 15) :
    (.next (s.awaitDistExtra (distBase (n.val + 2) r2.toNat) n) : Host.Outcome State Fault Refusal) =
      .next { s with distance := 2 ^ (n.val + 1) * (2 + r2.toNat), seq := .distExtra n } := by
  rw [distBase_succ, State.awaitDistExtra]

/-- Settles O40: one lemma over the field due. -/
theorem distBasesAwaitExtraBits : Obligations.DistBasesAwaitExtraBits := by
  unfold Obligations.DistBasesAwaitExtraBits
  intro s r2
  have base := next_awaitDistExtra_base s r2
  exact ⟨base 0, base 1, base 2, base 3, base 4, base 5, base 6, base 7, base 8, base 9, base 10, base 11, base 12,
    base 13, base 14⟩

/-- Settles O42: both symbols take their error in the state as it is (46_copy_instructions R249, R269). -/
theorem invalidSymbolsRaise : Obligations.InvalidSymbolsRaise := by
  unfold Obligations.InvalidSymbolsRaise
  exact fun _ _ _ => ⟨rfl, rfl⟩

/-! ## Extra fields -/

/-- READ(n) as one cursor with two outcomes: its bits are there and consumed, or they are not and none is. -/
theorem State.read_outcomes {s : State} (h : s.bc.Inv s.inMem) {n : Nat} (hn : n ≤ 32) :
    ∃ c, c.Inv s.inMem ∧ c.inLen = s.bc.inLen ∧
      (s.bc.bitpos + n ≤ 8 * s.bc.inLen + 32 →
        c.bitpos = s.bc.bitpos + n ∧ ∃ v, s.read n = .ok v { s with bc := c }) ∧
      (8 * s.bc.inLen + 32 < s.bc.bitpos + n →
        c.bitpos = s.bc.bitpos ∧ s.read n = .raise .unexpectedEndOfInput { s with bc := c }) := by
  rcases State.read_spec h hn with ⟨hl, c, e, hi, hb, hlen⟩ | ⟨hl, c, e, hi, hb, hlen⟩
  · exact ⟨c, hi, hlen, fun _ => ⟨hb, _, e⟩, fun hshort => absurd hl (Nat.not_le.mpr hshort)⟩
  · exact ⟨c, hi, hlen, fun hroom => absurd hl (Nat.not_lt.mpr hroom), fun _ => ⟨hb, e⟩⟩

/-- A length's extra field of any width that READ takes (46_copy_instructions R243 to R247, R250). -/
theorem State.takeLenExtra_completes {s : State} (h : s.bc.Inv s.inMem) {w x : Nat} (hw : w ≤ 32) (hx : x < 2 ^ w)
    (b : Nat) :
    ∃ c, c.Inv s.inMem ∧ c.inLen = s.bc.inLen ∧ (s.length = b * 2 ^ w → s.length ||| x = b * 2 ^ w + x) ∧
      (s.bc.bitpos + w ≤ 8 * s.bc.inLen + 32 → c.bitpos = s.bc.bitpos + w ∧
        (s.takeLenExtra w x).outcome = .next { s with
          bc := c, length := s.length ||| x, cpLen := (s.length ||| x) + s.wsb, phase := .copyDist, seq := .start }) ∧
      (8 * s.bc.inLen + 32 < s.bc.bitpos + w → c.bitpos = s.bc.bitpos ∧
        (s.takeLenExtra w x).outcome = .next (State.takeError .unexpectedEndOfInput { s with bc := c })) := by
  obtain ⟨c, hi, hlen, hroom, hshort⟩ := State.read_outcomes h hw
  refine ⟨c, hi, hlen, or_eq_add_of_eq_mul_two_pow hx, fun hl => ?_, fun hl => ?_⟩
  · obtain ⟨hb, v, e⟩ := hroom hl
    exact ⟨hb, by rw [State.takeLenExtra, e, Res.bind_ok, Res.outcome_ok, State.setLength_eq, withExtra]⟩
  · obtain ⟨hb, e⟩ := hshort hl
    exact ⟨hb, by rw [State.takeLenExtra, e, Res.bind_raise, Res.outcome_raise]⟩

/-- Settles O38: each of the five elements is `State.takeLenExtra` of its width. -/
theorem lenExtraCompletesLength : Obligations.LenExtraCompletesLength := by
  unfold Obligations.LenExtraCompletesLength
  intro s w x b i hi h
  rcases hi with ⟨v, rfl, rfl, rfl⟩ | ⟨v, rfl, rfl, rfl⟩ | ⟨v, rfl, rfl, rfl⟩ | ⟨v, rfl, rfl, rfl⟩ |
    ⟨v, rfl, rfl, rfl⟩ <;>
  exact State.takeLenExtra_completes h (by decide) v.isLt b

/-- A distance's extra field of any width that READ takes (46_copy_instructions R254 to R268, R270, R271). -/
theorem State.takeDistExtra_completes {s : State} (h : s.bc.Inv s.inMem) {w x : Nat} (hw : w ≤ 32) (hx : x < 2 ^ w)
    (b : Nat) :
    ∃ c, c.Inv s.inMem ∧ c.inLen = s.bc.inLen ∧ (s.distance = b * 2 ^ w → s.distance ||| x = b * 2 ^ w + x) ∧
      (s.bc.bitpos + w ≤ 8 * s.bc.inLen + 32 → c.bitpos = s.bc.bitpos + w ∧
        ((s.distance ||| x) + 1 ≤ s.outPos → (s.takeDistExtra w x).outcome = .next { s with
          bc := c, distance := s.distance ||| x, cpDist := (s.distance ||| x) + 1, phase := .copyRun, seq := .start }) ∧
        (s.outPos < (s.distance ||| x) + 1 → (s.takeDistExtra w x).outcome = .next (State.takeError .copyOutOfRange
          { s with bc := c, distance := s.distance ||| x, cpDist := (s.distance ||| x) + 1 }))) ∧
      (8 * s.bc.inLen + 32 < s.bc.bitpos + w → c.bitpos = s.bc.bitpos ∧
        (s.takeDistExtra w x).outcome = .next (State.takeError .unexpectedEndOfInput { s with bc := c })) := by
  obtain ⟨c, hi, hlen, hroom, hshort⟩ := State.read_outcomes h hw
  refine ⟨c, hi, hlen, or_eq_add_of_eq_mul_two_pow hx, fun hl => ?_, fun hl => ?_⟩
  · obtain ⟨hb, v, e⟩ := hroom hl
    rw [State.takeDistExtra, e, Res.bind_ok, withExtra]
    refine ⟨hb, fun hin => ?_, fun hout => ?_⟩
    · rw [State.setDistance_inRange (s := { s with bc := c }) hin, Res.outcome_ok]
    · rw [State.setDistance_outOfRange (s := { s with bc := c }) hout, Res.outcome_raise]
  · obtain ⟨hb, e⟩ := hshort hl
    exact ⟨hb, by rw [State.takeDistExtra, e, Res.bind_raise, Res.outcome_raise]⟩

/-- Settles O41: each of the fifteen elements is `State.takeDistExtra` of its width. -/
theorem distExtraCompletesDistance : Obligations.DistExtraCompletesDistance := by
  unfold Obligations.DistExtraCompletesDistance
  intro s w x b i hi h
  rcases hi with ⟨v, rfl, rfl, rfl⟩ | ⟨v, rfl, rfl, rfl⟩ | ⟨v, rfl, rfl, rfl⟩ | ⟨v, rfl, rfl, rfl⟩ |
    ⟨v, rfl, rfl, rfl⟩ | ⟨v, rfl, rfl, rfl⟩ | ⟨v, rfl, rfl, rfl⟩ | ⟨v, rfl, rfl, rfl⟩ | ⟨v, rfl, rfl, rfl⟩ |
    ⟨v, rfl, rfl, rfl⟩ | ⟨v, rfl, rfl, rfl⟩ | ⟨v, rfl, rfl, rfl⟩ | ⟨v, rfl, rfl, rfl⟩ | ⟨v, rfl, rfl, rfl⟩ |
    ⟨v, rfl, rfl, rfl⟩ <;>
  exact State.takeDistExtra_completes h (by decide) v.isLt b

/-! ## COPY_RUN -/

/-- Where each of `k` bytes from `p` on is the one `d` before it, they repeat the `d` bytes before `p`
(46_copy_instructions R273). -/
theorem Memory.read_periodic {m n : Memory} {p k d : Nat} (hd : 1 ≤ d) (hdp : d ≤ p)
    (hcopy : ∀ j, j < k → m.read (p + j) = m.read (p + j - d)) (hold : ∀ a, a < p → m.read a = n.read a)
    (j : Nat) (hj : j < k) : m.read (p + j) = n.read (p - d + j % d) := by
  induction j using Nat.strong_induction_on with
  | _ j ih =>
    rw [hcopy j hj]
    by_cases hjd : j < d
    · rw [hold _ (by omega), Nat.mod_eq_of_lt hjd, show p + j - d = p - d + j by omega]
    · rw [show p + j - d = p + (j - d) by omega, ih (j - d) (by omega) (by omega),
        ← Nat.mod_eq_sub_mod (Nat.not_lt.mp hjd)]

/-- Settles O43: the loop copies each byte from `cp_dist` before it (`State.copyLoop_spec`), hence the period
(`Memory.read_periodic`). -/
theorem copyRunRepeatsPeriodically : Obligations.CopyRunRepeatsPeriodically := by
  unfold Obligations.CopyRunRepeatsPeriodically
  rintro s k hwf h1 hback hroom rfl
  obtain ⟨m, e, hw, hframe, hcopy⟩ := State.copyLoop_spec s.cpLen hwf h1 hback hroom
  have hperiod := Memory.read_periodic h1 hback hcopy fun a ha => hframe a (.inl ha)
  refine ⟨m, ?_, hw, hcopy, hperiod, hframe⟩
  simp only [exec, execCopyRun, e, Res.bind_ok, Res.outcome_ok]

end Sys2Proof.Machine

/-!
# How a decode ends

FUNCTIONAL. The soft and the hard end of a decode with their whole frame (O44, O45), and the codes by which the host
tells them apart (O46).
-/

namespace Sys2Proof.Machine

theorem exec_softStop (s : State) : exec .softStop s = .next s.softStop := rfl

theorem exec_raise (e : ErrKind) (s : State) : exec (.raise e) s = .next (s.takeError e) := rfl

/-- Settles O44. -/
theorem softStopEndsDone : Obligations.SoftStopEndsDone := by
  unfold Obligations.SoftStopEndsDone
  intro s
  rw [exec_softStop, State.softStop]

/-- Settles O45. -/
theorem raiseTakesTheError : Obligations.RaiseTakesTheError := by
  unfold Obligations.RaiseTakesTheError
  intro s e
  rw [exec_raise, State.takeError]

theorem State.errCode_of_none {s : State} (h : s.err = none) : s.errCode = 0 := by
  rw [State.errCode, h]

theorem State.errCode_of_some {s : State} {e : ErrKind} (h : s.err = some e) : s.errCode = errKindCode e := by
  rw [State.errCode, h]

/-- Settles O46: the two lists are the tables of `errKindCode` and `Status.code`; ERR is read by cases on whether an
error is held. -/
theorem errorCodesAsListed : Obligations.ErrorCodesAsListed := by
  unfold Obligations.ErrorCodesAsListed
  exact ⟨rfl, rfl, fun _ => ⟨State.errCode_of_none, fun _ => State.errCode_of_some⟩⟩

end Sys2Proof.Machine

/-!
# A bad dictionary

FUNCTIONAL. Where INIT_BOOT meets the first bad pair, or more codes than fit, after good ones, and what INIT_BOOT and
RESET then answer (O24).
-/

namespace Sys2Proof.Machine

/-! ## INIT_BOOT's work after good pairs -/

/-- Good pairs come to a builder that holds exactly their symbols, with the dictionary's Kraft sum; the pairs that
follow are added to it (43_bootstrap_dictionary R180). -/
theorem initBoot_append {d : List (Int × Nat)} (hpairs : ∀ q ∈ d, q.2 ≤ 32 ∧ 0 ≤ q.1 ∧ q.1 < 285)
    (hnodup : (d.map Prod.fst).Nodup) :
    ∃ b : Builder, (∀ d', initBoot (d ++ d') = b.addAll d') ∧ (∀ q ∈ d, ∃ l ∈ b.lists, q.1.toNat ∈ l) ∧
      b.kraft 32 = ((d.filter fun q => q.2 ≠ 0).map fun q => 2 ^ (32 - q.2)).sum := by
  have hfresh : ∀ q ∈ d, ∀ l ∈ Builder.cleared.lists, q.1.toNat ∉ l := fun q hq =>
    have ⟨_, hnonneg, _⟩ := hpairs q hq
    (Builder.cleared_above q.1).not_mem hnonneg
  obtain ⟨b, _, hadd, hlist, hmem, _⟩ := Builder.addAll_good d Builder.cleared_ok.1 hpairs hnodup hfresh
  have hlists L := (hlist L).trans (by rw [Builder.cleared_list, List.nil_append])
  exact ⟨b, hadd, fun q hq => (hmem _).mpr (.inr ⟨q, hq, rfl⟩),
    Builder.kraft_of_pairs hlists fun q hq => (hpairs q hq).1⟩

theorem Builder.addAll_cons_raise {b : Builder} {p : Int × Nat} {e : ErrKind} (h : b.addSymbol p.1 p.2 = .raise e)
    (d : List (Int × Nat)) : b.addAll (p :: d) = .raise e b := by
  rw [Builder.addAll, h]

theorem Builder.addAll_cons_duplicate {b : Builder} {p : Int × Nat} (h : b.addSymbol p.1 p.2 = .duplicate)
    (d : List (Int × Nat)) : b.addAll (p :: d) = .duplicate := by
  rw [Builder.addAll, h]

theorem Builder.addAll_nil_raise {b : Builder} (h : 2 ^ 32 < b.kraft 32) :
    b.addAll [] = .raise .oversubscribedTable b := by
  rw [Builder.addAll, Builder.bootBuild, Builder.build_eq_none.mpr h]

/-! ## INIT_BOOT and RESET where that work does not succeed -/

section
variable {s : State}

/-- The builder stays as it was when the error was raised, and the error is taken (70_reset_and_hazards R331). -/
theorem exec_initBoot_of_raise {e : ErrKind} {b : Builder} (h : initBoot s.bootDict = .raise e b) :
    exec .initBoot s = .next (State.takeError e { s with builder := b }) := by
  simp only [exec, execInitBoot, State.initBoot, h, Res.outcome_raise]

theorem exec_reset_of_raise {e : ErrKind} {b : Builder} (h : initBoot s.bootDict = .raise e b) :
    exec .reset s =
      .next { State.resetWith s.bootDict with inMem := s.inMem, outMem := s.outMem, host := s.host } := by
  simp only [exec, execReset, h]

theorem exec_initBoot_of_duplicate (h : initBoot s.bootDict = .duplicate) :
    exec .initBoot s = .refused .duplicateSymbol := by
  simp only [exec, execInitBoot, State.initBoot, h, Res.outcome_refused]

theorem exec_reset_of_duplicate (h : initBoot s.bootDict = .duplicate) :
    exec .reset s = .refused .duplicateSymbol := by
  simp only [exec, execReset, h]

/-- An error of INIT_BOOT in RESET_INIT ends that phase in FAILED, with BOOT_T as it was (70_reset_and_hazards R331;
log entry 4). -/
theorem exec_initBoot_fails {e : ErrKind} {b : Builder} (h : initBoot s.bootDict = .raise e b)
    (hp : s.phase = .resetInit) :
    ∃ t, exec .initBoot s = .next t ∧ t.status = .error ∧ t.phase = .failed ∧ t.err = some e ∧ t.bootT = s.bootT :=
  ⟨_, exec_initBoot_of_raise h, rfl, by rw [State.takeError_phase, if_pos hp], rfl, rfl⟩

/-- An error of INIT_BOOT ends RESET in FAILED from every state (70_reset_and_hazards R330, R331). -/
theorem exec_reset_fails {e : ErrKind} {b : Builder} (h : initBoot s.bootDict = .raise e b) :
    ∃ t, exec .reset s = .next t ∧ t.status = .error ∧ t.phase = .failed ∧ t.err = some e := by
  refine ⟨_, exec_reset_of_raise h, ?_⟩
  simp only [State.resetWith, h, BootResult.status, BootResult.phase, BootResult.err, and_self]

end

/-- Settles O24: past the good pairs INIT_BOOT adds the first bad one to the builder they make, or builds it; what
ADD_SYMBOL or BUILD answers there decides how INIT_BOOT and RESET end. -/
theorem badDictionaryFailsReset : Obligations.BadDictionaryFailsReset := by
  unfold Obligations.BadDictionaryFailsReset
  intro s d d' p hdict hpairs hnodup
  obtain ⟨b, hinit, hmem, hkraft⟩ := initBoot_append hpairs hnodup
  have hboot : initBoot s.bootDict = b.addAll d' := hdict ▸ hinit d'
  refine ⟨fun e hbad => ?raises, fun hhead hlen h0 h285 hrepeat => ?repeats⟩
  case raises =>
    have hraise : initBoot s.bootDict = .raise e b := by
      rcases hbad with ⟨hhead, hlong, rfl⟩ | ⟨hhead, hlen, hrange, rfl⟩ | ⟨rfl, hsum, rfl⟩
      · obtain ⟨_, rfl⟩ := List.head?_eq_some_iff.mp hhead
        exact hboot.trans (Builder.addAll_cons_raise (b.addSymbol_of_long p.1 hlong) _)
      · obtain ⟨_, rfl⟩ := List.head?_eq_some_iff.mp hhead
        exact hboot.trans (Builder.addAll_cons_raise (b.addSymbol_of_not_symbol hlen hrange) _)
      · exact hboot.trans (Builder.addAll_nil_raise (hkraft ▸ hsum))
    exact ⟨exec_initBoot_fails hraise, exec_reset_fails hraise⟩
  case repeats =>
    obtain ⟨q, hq, hqp⟩ := List.mem_map.mp hrepeat
    obtain ⟨_, rfl⟩ := List.head?_eq_some_iff.mp hhead
    have hheld : ∃ l ∈ b.lists, p.1.toNat ∈ l := hqp ▸ hmem q hq
    have hdup : initBoot s.bootDict = .duplicate :=
      hboot.trans (Builder.addAll_cons_duplicate (Builder.addSymbol_of_mem hlen h0 h285 hheld) _)
    exact ⟨exec_initBoot_of_duplicate hdup, exec_reset_of_duplicate hdup⟩

end Sys2Proof.Machine
